-- ==== Sys2Proof/Word.lean ====
section
/-!
DEFINITION. The word types of the block: 32-bit register words (R20, R25 to R31), the 64-bit
command word (R101), bytes of the little-endian byte view (R75), and line numbers (R8: NLINES = 96).
-/
namespace Sys2Proof

/-- One byte of the little-endian view of a register window (R75). -/
abbrev Byte := BitVec 8

/-- A register word, an address or the `d` operand of a command: 32 bits, unsigned (R11, R102). -/
abbrev Word := BitVec 32

/-- A command word as it stands on the command port: 64 bits (R101). -/
abbrev CmdWord := BitVec 64

/-- A Hardware Line Number, 0 to 95 (R8, 90_conflicts C1). -/
abbrev Line := Fin 96

end Sys2Proof
end

