-- ==== Sys2Proof/Config.lean ====
section
/-!
DEFINITION. Implementation parameters (R8, R9, R10) and the free values.

`Params` is the configuration of one machine: the parameters the spec leaves OPEN, each with the
spec's default. Every parameter is plain data, so a machine of any admissible configuration can be
written out, compared and run; the functions it stands for (`Arb`, `Alloc`, `Mappable`) are computed
from it in Machine/Operands.lean. The opaque constants are values nothing constrains.
-/
namespace Sys2Proof

namespace Config

/-- The free 32-bit value `draw_32` of the `k`-th draw (R12, R25 and log entries 12 and 13): nothing is
known of it. -/
opaque freeValue : Nat → Word

/-- RATING (R9): OPEN, no default, and no rule reads it. -/
opaque rating : Nat

/-- CPU (R9): "fixed to the single managed core"; it is also the handle of the one timer instance
that `TickCallback` carries (R49, R177). -/
def cpu : Nat := 0

/-- CAPACITY (R8): entries of the domain mapping table. -/
def capacity : Nat := 96

/-- NMI_LINE (R8): "the designated non-maskable source (line 0)". -/
def nmiLine : Line := 0

/-- SHIFT (R8): "shift fixed at 32". -/
def shift : Nat := 32

/-- MIN_DELTA (R8): smallest valid next-event operand, in ticks. -/
def minDelta : Nat := 1

/-- MAX_DELTA (R8): largest valid next-event operand, in ticks. -/
def maxDelta : Nat := 255

/-- VEC_SHIFT (R8): the right shift applied to the vector register. -/
def vecShift : Nat := 2

/-- NO_IRQ (R36, D13): the identifier that names no line. -/
def noIrq : Word := 0

/-- LOGICAL_BASE (R155, D13): the default allocator numbers identifiers from here. -/
def logicalBase : Nat := 1

end Config

/-- The OPEN parameters of one machine (R9, R10, R71, R72), with the spec's defaults. -/
structure Params where
  /-- REF_RATE in Hz (R9). -/
  refRate : Nat := 24000000
  /-- PRESCALE (R9). -/
  prescale : Nat := 16
  /-- HZ, "targetFrequency" (R9, D24). -/
  hz : Nat := 100
  /-- OFF_VECTOR (R71). -/
  offVector : Word := 0x00
  /-- OFF_PROTECT (R71). -/
  offProtect : Word := 0x08
  /-- OFF_NMI_TYPE (R71). -/
  offNmiType : Word := 0x0C
  /-- OFF_PENDING(0); bank b lies 4b bytes higher (R71, R129). -/
  offPending : Word := 0x10
  /-- OFF_ENABLE(0) (R71). -/
  offEnable : Word := 0x40
  /-- OFF_MASK(0) (R71). -/
  offMask : Word := 0x50
  /-- OFF_T_IRQST (R72). -/
  offTIrqst : Word := 0x04
  /-- OFF_T_CTL (R72). -/
  offTCtl : Word := 0x10
  /-- OFF_T_INTV (R72). -/
  offTIntv : Word := 0x14
  /-- OFF_T_CNT (R72). -/
  offTCnt : Word := 0x18
  /-- The size of the controller window in bytes: 0x60 at the defaults (R71). -/
  intcWindow : Nat := 0x60
  /-- The size of the timer window in bytes: 0x1C at the defaults (R72). -/
  tmrWindow : Nat := 0x1C
  /-- `Arb` (R25, D7) as data: the candidate sets (ascending lists of line numbers) for which the
  hardware's choice is NOT the default, each with the line chosen. `[]` is the spec's default,
  lowest line number first. -/
  arbTable : List (List Line × Line) := []
  /-- `Alloc` (R155, D13) as data: identifiers to hand out first, in order, passing over 0 and any in
  use. `[]` is the spec's default, LOGICAL_BASE + nmapped. -/
  idPool : List Word := []
  /-- `Mappable` (R73, D30) as data: closed ranges of base addresses the platform can map. -/
  mappedRanges : List (Word × Word) := [(0x00000000, 0xFFFFFFFF)]
  deriving DecidableEq, Repr

/-- The offsets of the controller's registers, by bank where banked (R71). -/
def Params.intcOffsets (p : Params) : List Word :=
  [p.offVector, p.offProtect, p.offNmiType,
   p.offPending, p.offPending + 4, p.offPending + 8,
   p.offEnable, p.offEnable + 4, p.offEnable + 8,
   p.offMask, p.offMask + 4, p.offMask + 8]

/-- The offsets of the timer's registers (R72). -/
def Params.tmrOffsets (p : Params) : List Word :=
  [p.offTIrqst, p.offTCtl, p.offTIntv, p.offTCnt]

/-- Where the controller's registers end, counted from the base without wrapping: one word after a global
register, three after the first of a kind (R71). -/
def Params.intcEnds (p : Params) : List Nat :=
  [p.offVector.toNat + 4, p.offProtect.toNat + 4, p.offNmiType.toNat + 4,
   p.offPending.toNat + 12, p.offEnable.toNat + 12, p.offMask.toNat + 12]

/-- Where the timer's registers end, counted from the base without wrapping (R72). -/
def Params.tmrEnds (p : Params) : List Nat :=
  [p.offTIrqst.toNat + 4, p.offTCtl.toNat + 4, p.offTIntv.toNat + 4, p.offTCnt.toNat + 4]

/-- What the spec requires of the parameters: R9, R185 and D24 of the rates, R71 to R73 of the offsets,
and that the registers of a window lie inside it and the window inside the address space (R47, R73). -/
abbrev Params.Admissible (p : Params) : Prop :=
  0 < p.refRate ∧ 0 < p.prescale ∧ 0 < p.hz ∧
  p.prescale * p.hz ≤ p.refRate ∧ p.refRate < 2 ^ 32 ∧
  p.prescale * 10 ^ 9 ≤ 2 ^ 32 * p.refRate ∧ p.refRate < p.prescale * 10 ^ 9 ∧
  p.intcOffsets.Nodup ∧ p.tmrOffsets.Nodup ∧
  (∀ o ∈ p.intcOffsets, o.toNat % 4 = 0) ∧ (∀ o ∈ p.tmrOffsets, o.toNat % 4 = 0) ∧
  (∀ e ∈ p.intcEnds, e ≤ p.intcWindow) ∧ (∀ e ∈ p.tmrEnds, e ≤ p.tmrWindow) ∧
  p.intcWindow ≤ 2 ^ 32 ∧ p.tmrWindow ≤ 2 ^ 32

/-- The spec's default configuration. -/
def Params.default : Params := {}

end Sys2Proof
end

