-- ==== Sys2Proof/Syntax.lean ====
section
/-!
DEFINITION. The 24 commands (R100) as syntax: one constructor per row of spec/opcode_table.json.
The pseudo-commands DISABLE, ENABLE, RDV and SHUTDOWN are spellings of these words (R121).
-/
namespace Sys2Proof

/-- The kind of a banked register (R20, R105). -/
inductive Kind where
  | pending | enable | mask
  deriving DecidableEq, Repr

/-- The bank of a banked register (R20, R105). -/
inductive Bank where
  | b0 | b1 | b2
  deriving DecidableEq, Repr

/-- A global register of the controller (R106). -/
inductive GReg where
  | vector | protect | nmiType
  deriving DecidableEq, Repr

/-- The mode request of SET_MODE (R107). -/
inductive ModeReq where
  | disabled | periodic | oneshot | unused
  deriving DecidableEq, Repr

/-- A command with its operands (R100, R103 to R109). A line operand and a delta operand are whole
32-bit values: every value decodes (R109). -/
inductive Instr where
  /-- `RD kind, bank` (R130). -/
  | rd (k : Kind) (b : Bank)
  /-- `WR kind, bank, value` (R131). -/
  | wr (k : Kind) (b : Bank) (value : Word)
  /-- `RDG greg` (R132). -/
  | rdg (g : GReg)
  /-- `WRG greg, value` (R133). -/
  | wrg (g : GReg) (value : Word)
  /-- `ACK n` (R140). -/
  | ack (n : Word)
  /-- `MASK n` (R141); `DISABLE n` (R121). -/
  | mask (n : Word)
  /-- `UNMASK n` (R142); `ENABLE n` (R121). -/
  | unmask (n : Word)
  /-- `LACK id` (R144). -/
  | lack (id : Word)
  /-- `LMASK id` (R145). -/
  | lmask (id : Word)
  /-- `LUNMASK id` (R146). -/
  | lunmask (id : Word)
  /-- `INIT base` (R150). -/
  | init (base : Word)
  /-- `RESOLVE n` (R151). -/
  | resolve (n : Word)
  /-- `INSTALL id` (R152). -/
  | install (id : Word)
  /-- `IRQ_ENTRY` (R153). -/
  | irqEntry
  /-- `DISPATCH_RET` (R154). -/
  | dispatchRet
  /-- `TINIT line, base` (R165). -/
  | tinit (line : BitVec 8) (base : Word)
  /-- `SET_MODE mode` (R166); `SHUTDOWN` (R121). -/
  | setMode (m : ModeReq)
  /-- `SET_NEXT_EVENT delta` (R175). -/
  | setNextEvent (delta : Word)
  /-- `TIMER_IRQ` (R177). -/
  | timerIrq
  /-- `TICK_RET` (R178). -/
  | tickRet
  /-- `NS2T ns` (R187). -/
  | ns2t (ns : Word)
  /-- `T2NS ticks` (R188). -/
  | t2ns (ticks : Word)
  /-- `GETMIN` (R189). -/
  | getmin
  /-- `GETMAX` (R190). -/
  | getmax
  deriving DecidableEq, Repr

end Sys2Proof
end

