-- ==== Sys2Proof/WellFormed.lean ====
section
/-!
DEFINITION. Which commands are well formed. The operand types leave ONE term the encoding does not
admit: a write of VECTOR, which is read-only (R106: "For WRG, r = 0 is also reserved").
-/
namespace Sys2Proof

/-- A command some word encodes. -/
def Instr.wellFormed : Instr → Bool
  | .wrg g _ => g != .vector
  | .rd _ _ | .wr _ _ _ | .rdg _ | .ack _ | .mask _ | .unmask _ | .lack _ | .lmask _
  | .lunmask _ | .init _ | .resolve _ | .install _ | .irqEntry | .dispatchRet | .tinit _ _
  | .setMode _ | .setNextEvent _ | .timerIrq | .tickRet | .ns2t _ | .t2ns _ | .getmin
  | .getmax => true

end Sys2Proof
end

