-- ==== Sys2Proof/Decode.lean ====
section
/-!
DEFINITION. The command word: its fields (R102), the opcode map (R110), the decoder (R111), total on
all 2^64 words, and the encoder written from the same tables.
-/
namespace Sys2Proof

/-- `op`, bits 63:56 (R102). -/
def CmdWord.op (w : CmdWord) : BitVec 8 := w.extractLsb' 56 8
/-- `z`, bits 55:40, must be zero (R102). -/
def CmdWord.z (w : CmdWord) : BitVec 16 := w.extractLsb' 40 16
/-- `a`, bits 39:32, the small operand (R102). -/
def CmdWord.a (w : CmdWord) : BitVec 8 := w.extractLsb' 32 8
/-- `d`, bits 31:0, the data operand (R102). -/
def CmdWord.d (w : CmdWord) : Word := w.extractLsb' 0 32

/-- The word with the given fields, `op` highest (R102). -/
def CmdWord.pack (op : BitVec 8) (z : BitVec 16) (a : BitVec 8) (d : Word) : CmdWord :=
  op ++ z ++ a ++ d

/-- The rows of the opcode map (R110). -/
inductive Op where
  | rd | wr | rdg | wrg
  | ack | mask | unmask | lack | lmask | lunmask
  | init | resolve | install | irqEntry | dispatchRet
  | tinit | setMode
  | setNextEvent | timerIrq | tickRet
  | ns2t | t2ns | getmin | getmax
  deriving DecidableEq, Repr

/-- All rows, in the table's order (R110). -/
def Op.all : List Op :=
  [.rd, .wr, .rdg, .wrg, .ack, .mask, .unmask, .lack, .lmask, .lunmask,
   .init, .resolve, .install, .irqEntry, .dispatchRet, .tinit, .setMode,
   .setNextEvent, .timerIrq, .tickRet, .ns2t, .t2ns, .getmin, .getmax]

/-- The `op` value of a row (R110). -/
def Op.code : Op → BitVec 8
  | .rd => 0x10 | .wr => 0x11 | .rdg => 0x12 | .wrg => 0x13
  | .ack => 0x20 | .mask => 0x21 | .unmask => 0x22
  | .lack => 0x24 | .lmask => 0x25 | .lunmask => 0x26
  | .init => 0x30 | .resolve => 0x31 | .install => 0x32 | .irqEntry => 0x33
  | .dispatchRet => 0x34
  | .tinit => 0x40 | .setMode => 0x41 | .setNextEvent => 0x42 | .timerIrq => 0x43
  | .tickRet => 0x44
  | .ns2t => 0x50 | .t2ns => 0x51 | .getmin => 0x52 | .getmax => 0x53

/-- The four formats: which of `a` and `d` carry an operand (R103). -/
inductive Format where
  | n | a | d | ad
  deriving DecidableEq, Repr

/-- The format of a row (R103, R110). -/
def Op.format : Op → Format
  | .irqEntry | .dispatchRet | .timerIrq | .tickRet | .getmin | .getmax => .n
  | .rd | .rdg | .setMode => .a
  | .ack | .mask | .unmask | .lack | .lmask | .lunmask | .init | .resolve | .install
  | .setNextEvent | .ns2t | .t2ns => .d
  | .wr | .wrg | .tinit => .ad

/-- The bits of `a` that must be zero (R105 to R108, R110): all of them where `a` carries no operand. -/
def Op.aMask : Op → BitVec 8
  | .rd | .wr => 0xF0
  | .rdg | .wrg | .setMode => 0xFC
  | .tinit => 0x00
  | .ack | .mask | .unmask | .lack | .lmask | .lunmask | .init | .resolve | .install
  | .irqEntry | .dispatchRet | .setNextEvent | .timerIrq | .tickRet | .ns2t | .t2ns
  | .getmin | .getmax => 0xFF

/-- The bits of `d` that must be zero (R103, R110): none or all. -/
def Op.dMask (o : Op) : Word :=
  match o.format with
  | .n | .a => 0xFFFFFFFF
  | .d | .ad => 0x00000000

/-- The `mask` column of R110. -/
def Op.maskWord (o : Op) : CmdWord := CmdWord.pack 0xFF 0xFFFF o.aMask o.dMask
/-- The `match` column of R110: the word with every operand field zero. -/
def Op.matchWord (o : Op) : CmdWord := CmdWord.pack o.code 0 0 0

/-- The row whose `op` is the given value, if there is one (R111). -/
def Op.ofCode (c : BitVec 8) : Option Op := Op.all.find? (fun o => o.code == c)

/-- `kind` of RD and WR: 3 is reserved (R105). -/
def Kind.ofCode (c : BitVec 2) : Option Kind :=
  if c = 0 then some .pending else if c = 1 then some .enable
  else if c = 2 then some .mask else none

/-- `bank` of RD and WR: 3 is reserved (R105). -/
def Bank.ofCode (c : BitVec 2) : Option Bank :=
  if c = 0 then some .b0 else if c = 1 then some .b1 else if c = 2 then some .b2 else none

/-- The global register selector of RDG and WRG: 3 is reserved (R106). -/
def GReg.ofCode (c : BitVec 2) : Option GReg :=
  if c = 0 then some .vector else if c = 1 then some .protect
  else if c = 2 then some .nmiType else none

/-- The mode request of SET_MODE: all four values are legal (R107). -/
def ModeReq.ofCode (c : BitVec 2) : ModeReq :=
  if c = 0 then .disabled else if c = 1 then .periodic
  else if c = 2 then .oneshot else .unused

/-- `kind` and `bank` from the `a` field of RD and WR (R105). -/
def kindBankOf (a : BitVec 8) : Option (Kind × Bank) :=
  match Kind.ofCode (a.extractLsb' 2 2), Bank.ofCode (a.extractLsb' 0 2) with
  | some k, some b => some (k, b)
  | _, _ => none

/-- The command of a row whose word met its mask, from `a` and `d` (R104 to R109, R111). -/
def Op.build (o : Op) (a : BitVec 8) (d : Word) : Option Instr :=
  match o with
  | .rd => (kindBankOf a).map fun kb => .rd kb.1 kb.2
  | .wr => (kindBankOf a).map fun kb => .wr kb.1 kb.2 d
  | .rdg => (GReg.ofCode (a.extractLsb' 0 2)).map .rdg
  | .wrg =>
    match GReg.ofCode (a.extractLsb' 0 2) with
    | some .protect => some (.wrg .protect d)
    | some .nmiType => some (.wrg .nmiType d)
    | some .vector => none
    | none => none
  | .ack => some (.ack d)
  | .mask => some (.mask d)
  | .unmask => some (.unmask d)
  | .lack => some (.lack d)
  | .lmask => some (.lmask d)
  | .lunmask => some (.lunmask d)
  | .init => some (.init d)
  | .resolve => some (.resolve d)
  | .install => some (.install d)
  | .irqEntry => some .irqEntry
  | .dispatchRet => some .dispatchRet
  | .tinit => some (.tinit a d)
  | .setMode => some (.setMode (ModeReq.ofCode (a.extractLsb' 0 2)))
  | .setNextEvent => some (.setNextEvent d)
  | .timerIrq => some .timerIrq
  | .tickRet => some .tickRet
  | .ns2t => some (.ns2t d)
  | .t2ns => some (.t2ns d)
  | .getmin => some .getmin
  | .getmax => some .getmax

/-- The decoding algorithm of R111; `none` is ILLEGAL (R118). -/
def decode (w : CmdWord) : Option Instr :=
  if w.z ≠ 0 then none
  else
    match Op.ofCode w.op with
    | none => none
    | some o => if w &&& o.maskWord = o.matchWord then o.build w.a w.d else none

/-- The row of a command (R100, R110). -/
def Instr.op : Instr → Op
  | .rd _ _ => .rd | .wr _ _ _ => .wr | .rdg _ => .rdg | .wrg _ _ => .wrg
  | .ack _ => .ack | .mask _ => .mask | .unmask _ => .unmask
  | .lack _ => .lack | .lmask _ => .lmask | .lunmask _ => .lunmask
  | .init _ => .init | .resolve _ => .resolve | .install _ => .install
  | .irqEntry => .irqEntry | .dispatchRet => .dispatchRet
  | .tinit _ _ => .tinit | .setMode _ => .setMode
  | .setNextEvent _ => .setNextEvent | .timerIrq => .timerIrq | .tickRet => .tickRet
  | .ns2t _ => .ns2t | .t2ns _ => .t2ns | .getmin => .getmin | .getmax => .getmax

/-- The code of a kind (R105). -/
def Kind.code : Kind → BitVec 2
  | .pending => 0 | .enable => 1 | .mask => 2
/-- The code of a bank (R105). -/
def Bank.code : Bank → BitVec 2
  | .b0 => 0 | .b1 => 1 | .b2 => 2
/-- The selector of a global register (R106). -/
def GReg.code : GReg → BitVec 2
  | .vector => 0 | .protect => 1 | .nmiType => 2
/-- The code of a mode request (R107). -/
def ModeReq.code : ModeReq → BitVec 2
  | .disabled => 0 | .periodic => 1 | .oneshot => 2 | .unused => 3

/-- The `a` field of a command (R103, R105 to R108). -/
def Instr.aField : Instr → BitVec 8
  | .rd k b | .wr k b _ => (0 : BitVec 4) ++ k.code ++ b.code
  | .rdg g | .wrg g _ => (0 : BitVec 6) ++ g.code
  | .setMode m => (0 : BitVec 6) ++ m.code
  | .tinit line _ => line
  | .ack _ | .mask _ | .unmask _ | .lack _ | .lmask _ | .lunmask _ | .init _ | .resolve _
  | .install _ | .irqEntry | .dispatchRet | .setNextEvent _ | .timerIrq | .tickRet
  | .ns2t _ | .t2ns _ | .getmin | .getmax => 0

/-- The `d` field of a command (R103, R109). -/
def Instr.dField : Instr → Word
  | .wr _ _ v | .wrg _ v => v
  | .ack n | .mask n | .unmask n | .resolve n => n
  | .lack id | .lmask id | .lunmask id | .install id => id
  | .init base | .tinit _ base => base
  | .setNextEvent delta => delta
  | .ns2t ns => ns
  | .t2ns ticks => ticks
  | .rd _ _ | .rdg _ | .irqEntry | .dispatchRet | .setMode _ | .timerIrq | .tickRet
  | .getmin | .getmax => 0

/-- The one word of a well-formed command (R102, R103, R110, R111). -/
def encode (i : Instr) : CmdWord := CmdWord.pack i.op.code 0 i.aField i.dField

/-- The command the decoder reads from a word numbered as spec/opcode_table.json numbers it: a
command is one 64-bit word (R101), the bits above `nbits` are 0, and a value that needs more than 64
bits is no command word. -/
def decodeTableWord (nbits w : Nat) : Option Instr :=
  if w % 2 ^ nbits < 2 ^ 64 then decode (BitVec.ofNat 64 (w % 2 ^ nbits)) else none

end Sys2Proof
end

