-- ==== Sys2Proof/Machine/State.lean ====
section
/-!
DEFINITION. The state of the block (10_state.md) as plain data, the reasons a step can stop, and the
state after hardware reset (R50, R240).

`State.mmio` are the memory-mapped registers (R20 to R31), `State.internal` the state inside the core
(R32 to R42), `res` and `st` the response side of the command port (R43). The last six fields are the
model's own: the inputs still to come, the record of what the platform saw and of the moments at which the
environment could act, the count of free values drawn, and the configuration.
-/
namespace Sys2Proof.Machine

/-- The three registers of one kind, by bank (R20). -/
structure Banks where
  b0 : Word
  b1 : Word
  b2 : Word
  deriving DecidableEq, Repr

/-- The memory-mapped registers of the two windows. VECTOR is computed and has no storage (R25). -/
structure MmioRegs where
  /-- PENDING0..2 (R21). -/
  pending : Banks
  /-- ENABLE0..2 (R22). -/
  enable : Banks
  /-- MASK0..2, the controller-global mask (R23). -/
  mask : Banks
  /-- PROTECT (R26). -/
  protect : Word
  /-- NMI_TYPE (R27). -/
  nmiType : Word
  /-- T_CTL (R28). -/
  tCtl : Word
  /-- T_INTV (R29). -/
  tIntv : Word
  /-- T_CNT (R30). -/
  tCnt : Word
  /-- TPEND, bit 0 of T_IRQST, its only stored bit (R31). -/
  tpend : Bool
  deriving DecidableEq, Repr

/-- "Current mode" of the timer (R40, R170). -/
inductive TimerMode where
  | disabled | periodic | oneShot
  deriving DecidableEq, Repr

/-- An outstanding callback (R41). -/
inductive Ctx where
  | dispatch | tick
  deriving DecidableEq, Repr

/-- The state inside the core (R32 to R42). -/
structure InternalRegs where
  /-- `intc_ready` (R33). -/
  intcReady : Bool
  /-- INTC_BASE (R34). -/
  intcBase : Word
  /-- `nmapped`, 7 bits (R35). -/
  nmapped : BitVec 7
  /-- `map[0..95]` (R36). -/
  map : Vector (Option Word) 96
  /-- `bound[0..95]` (R37). -/
  bound : BitVec 96
  /-- `tmr_ready` (R39). -/
  tmrReady : Bool
  /-- TMR_BASE (R40). -/
  tmrBase : Word
  /-- TIMER_LINE, 7 bits (R40). -/
  timerLine : BitVec 7
  /-- `mode` (R40). -/
  mode : TimerMode
  /-- MULT (R40, R185). -/
  mult : Word
  /-- MIN_NS (R40). -/
  minNs : Word
  /-- MAX_NS (R40). -/
  maxNs : Word
  /-- `ctx`, the context stack; the top is the LAST entry, as R41 writes it. -/
  ctx : List Ctx
  /-- `halt`: 0, or the code of the fatal error that stopped the core (R42). -/
  halt : BitVec 4
  deriving DecidableEq, Repr

/-- A step of the line environment or of the timer hardware (R205). -/
inductive EnvStep where
  /-- `LineRaise(n)` (R206). -/
  | lineRaise (n : Line)
  /-- `TimerTick` (R212). -/
  | timerTick
  /-- `TimerExpire` (R213). -/
  | timerExpire
  deriving DecidableEq, Repr

/-- A moment at which the environment and the timer may act (R205): the registers then, and the step
taken, if any. -/
structure Moment where
  regs : MmioRegs
  taken : Option EnvStep
  deriving DecidableEq, Repr

/-- What the platform sees of the block, in order: the bus accesses (R85) and the output events (R49). -/
inductive Obs where
  /-- A 32-bit bus read at an address, and the value returned (R76). -/
  | busRead (addr value : Word)
  /-- A 32-bit bus write of a value at an address (R77). -/
  | busWrite (addr value : Word)
  /-- The event `Dispatch(id)` (R153). -/
  | dispatch (id : Word)
  /-- The event `TickCallback(handle)` (R177). -/
  | tickCallback (handle : Nat)
  /-- The event `Log(code)` of a soft error (R201). -/
  | log (code : BitVec 4)
  deriving DecidableEq, Repr

/-- The whole state. -/
structure State where
  /-- The memory-mapped registers. -/
  mmio : MmioRegs
  /-- The state inside the core. -/
  internal : InternalRegs
  /-- RES, the result of the last command (R43). -/
  res : Word
  /-- ST, the status of the last command (R43, R200). -/
  st : BitVec 4
  /-- The model's own: the command words presented and not yet taken, oldest first (log entry 1). -/
  port : List CmdWord
  /-- The model's own: the environment steps to come, one list for each slot (log entry 4). -/
  env : List (List EnvStep)
  /-- The model's own: what the platform has seen, oldest first (log entry 15). -/
  trace : List Obs
  /-- The model's own: every moment so far at which the environment could act, oldest first. No command
  reads it; fairness (R215) is said of it (log entries 6 and 30). -/
  history : List Moment
  /-- The model's own: how many free values have been drawn (log entry 12). -/
  freeCount : Nat
  /-- The model's own: the configuration, which no step writes (log entry 7). -/
  cfg : Params
  deriving DecidableEq, Repr

/-- The commands whose operand contract can be violated (R204). -/
inductive ContractCommand where
  | ack | mask | unmask | resolve | setNextEvent
  deriving DecidableEq, Repr

/-- Why the machine stops. -/
inductive Fault where
  /-- The fault CONTRACT(command, operand) of R204: a line operand of 96 or more (ACK, MASK, UNMASK,
  RESOLVE) or a delta outside 1..255 (SET_NEXT_EVENT). Raised by those five commands only. Safe: the
  spec calls the behaviour undefined and names this fault, and no value is assumed after it. -/
  | contract (cmd : ContractCommand) (operand : Word)
  deriving DecidableEq, Repr

/-- Why the model declines. -/
inductive Refusal where
  /-- A command with no meaning yet, by its mnemonic. Raised by no arm of `exec`. Safe: nothing can be
  proved of such a step. -/
  | notModelled (mnemonic : String)
  deriving DecidableEq, Repr

/-- The outcome of one command. -/
abbrev Out := Host.Outcome State Fault Refusal

/-- Zeros in every memory-mapped register: the DESIGN CHOICE of log entry 2. -/
def MmioRegs.zero : MmioRegs where
  pending := ⟨0, 0, 0⟩
  enable := ⟨0, 0, 0⟩
  mask := ⟨0, 0, 0⟩
  protect := 0
  nmiType := 0
  tCtl := 0
  tIntv := 0
  tCnt := 0
  tpend := false

/-- The state inside the core after reset (R50): defined where R50 defines it, and the given values in
the six registers R50 leaves unspecified. -/
def InternalRegs.resetWith (intcBase tmrBase : Word) (timerLine : BitVec 7)
    (mult minNs maxNs : Word) : InternalRegs where
  intcReady := false
  intcBase := intcBase
  nmapped := 0
  map := Vector.replicate 96 none
  bound := 0
  tmrReady := false
  tmrBase := tmrBase
  timerLine := timerLine
  mode := .disabled
  mult := mult
  minNs := minNs
  maxNs := maxNs
  ctx := []
  halt := 0

/-- A state after hardware reset of a machine of configuration `cfg`, for ANY values `mmio` of the
memory-mapped registers and any values of the core's unspecified registers (R50, R240). -/
def State.resetWith (cfg : Params) (mmio : MmioRegs) (intcBase tmrBase : Word)
    (timerLine : BitVec 7) (mult minNs maxNs : Word) : State where
  mmio := mmio
  internal := InternalRegs.resetWith intcBase tmrBase timerLine mult minNs maxNs
  res := 0
  st := 0
  port := []
  env := []
  trace := []
  history := []
  freeCount := 0
  cfg := cfg

/-- The state after hardware reset of the default machine, zero where R50 says "unspecified"
(log entries 2 and 3). -/
def State.reset : State := State.resetWith Params.default MmioRegs.zero 0 0 0 0 0 0

end Sys2Proof.Machine
end

