-- ==== Sys2Proof/Machine/Flags.lean ====
section
/-!
DEFINITION. The block has no flags or condition codes (R45). What stands in their place: the status
codes of ST and `halt` (R200), the control bits of T_CTL (R28) and TPEND (R31), and the signals
computed from the line registers (R25, R49, R208).
-/
namespace Sys2Proof.Machine

/-- The statuses a command ends with (R200). -/
inductive Status where
  | ok
  /-- Soft: a vector read whose value names no line. -/
  | eSpurious
  /-- Soft, reserved: "a malformed device description"; no command of the block raises it. -/
  | eBadDesc
  /-- Fatal: the base address cannot be mapped. -/
  | fNoBase
  /-- Fatal: the timer's line cannot be resolved. -/
  | fNoIrq
  /-- Fatal: the mapping table is full. -/
  | fDomainFull
  | xIllegal | xContext | xUnbound | xHalted
  deriving DecidableEq, Repr

/-- The 4-bit code of a status (R200). -/
def Status.code : Status → BitVec 4
  | .ok => 0
  | .eSpurious => 1
  | .eBadDesc => 2
  | .fNoBase => 8
  | .fNoIrq => 9
  | .fDomainFull => 10
  | .xIllegal => 12
  | .xContext => 13
  | .xUnbound => 14
  | .xHalted => 15

/-- EN, bit 0 of T_CTL (R28). -/
def ctlEn : Word := 0x00000001
/-- RELOAD, bit 1 of T_CTL (R28). -/
def ctlReload : Word := 0x00000002
/-- SINGLE, bit 7 of T_CTL (R28). -/
def ctlSingle : Word := 0x00000080

/-- T_CTL.EN: the timer is armed and counting (R28). -/
def MmioRegs.en (m : MmioRegs) : Bool := m.tCtl.getLsbD 0
/-- T_CTL.RELOAD: stored, no modelled effect (R28, D20). -/
def MmioRegs.reload (m : MmioRegs) : Bool := m.tCtl.getLsbD 1
/-- T_CTL.SINGLE: one-shot (R28). -/
def MmioRegs.single (m : MmioRegs) : Bool := m.tCtl.getLsbD 7
/-- PROTECT.PROT_EN (R26); no rule reads it (D10). -/
def MmioRegs.protEn (m : MmioRegs) : Bool := m.protect.getLsbD 0
/-- T_IRQST as a word: 31 zeros and TPEND (R31, R76). -/
def MmioRegs.tIrqst (m : MmioRegs) : Word := if m.tpend then 1 else 0

/-- The 2-bit code of `mode` (R40). -/
def TimerMode.code : TimerMode → BitVec 2
  | .disabled => 0 | .periodic => 1 | .oneShot => 2

/-- The bank of a line, chosen by comparing against 32 and 64 (R13, R143). -/
def bankOf (n : Line) : Bank := if n.val < 32 then .b0 else if n.val < 64 then .b1 else .b2
/-- The bit of a line in its bank (R13). -/
def bitOf (n : Line) : Nat := n.val % 32
/-- The word with only that bit set (R13). -/
def onehot (n : Line) : Word := 1#32 <<< bitOf n

/-- `x[k][b]` (R12). -/
def Banks.get (r : Banks) : Bank → Word
  | .b0 => r.b0 | .b1 => r.b1 | .b2 => r.b2
/-- `x[k][b] <- v` as plain storage (R12). -/
def Banks.set (r : Banks) (b : Bank) (v : Word) : Banks :=
  match b with
  | .b0 => { r with b0 := v }
  | .b1 => { r with b1 := v }
  | .b2 => { r with b2 := v }
/-- `K96[n]`, the bit of line `n` in the 96-bit view of a kind (R20). -/
def Banks.line (r : Banks) (n : Line) : Bool := (r.get (bankOf n)).getLsbD (bitOf n)

/-- PENDING96[n] = 1 and ENABLE96[n] = 1 and MASK96[n] = 0: the line is in `Cand` (R25, D6). -/
def MmioRegs.isCand (m : MmioRegs) (n : Line) : Bool :=
  m.pending.line n && m.enable.line n && !m.mask.line n
/-- The candidate set `Cand`, ascending (R25). -/
def MmioRegs.cand (m : MmioRegs) : List Line := (List.finRange 96).filter m.isCand
/-- `irq_out`: some line is a candidate (R49, R208). -/
def State.irqOut (s : State) : Bool := !s.mmio.cand.isEmpty

/-- `Arb` (R25, R209, D7): a member of a non-empty candidate set, and nothing for the empty one. The
table's choice stands where it is a member; the default is the lowest line. -/
def arbitrate (table : List (List Line × Line)) (cand : List Line) : Option Line :=
  match table.lookup cand with
  | some n => if n ∈ cand then some n else cand.head?
  | none => cand.head?

/-- What a read of VECTOR returns now (R25, D8): the arbitrated line shifted left by 2, or a free value
when no line is a candidate. -/
def State.vectorValue (s : State) : Word :=
  match arbitrate s.cfg.arbTable s.mmio.cand with
  | some n => BitVec.ofNat 32 n.val <<< Config.vecShift
  | none => Config.freeValue s.freeCount

end Sys2Proof.Machine
end

