-- ==== Sys2Proof/Machine/Operands.lean ====
section
/-!
DEFINITION. Operands and the functions of them: line and delta contracts (R143, R176, R204), the
inverse lookup (R38), the allocator (R155), `Mappable` (R73), register names and addresses (R14, R71,
R72, R129), the periodic interval (R171) and the nanosecond arithmetic (R185, R186, R188).
-/
namespace Sys2Proof.Machine

/-- The line a `d` operand names, or nothing when it is 96 or more (R143). -/
def line? (n : Word) : Option Line :=
  if h : n.toNat < 96 then some ⟨n.toNat, h⟩ else none

/-- "valid delta range is [1, 255] ticks" (R176). -/
def deltaOk (delta : Word) : Bool :=
  decide (Config.minDelta ≤ delta.toNat) && decide (delta.toNat ≤ Config.maxDelta)

/-- `line_of(id)`: the line whose entry is `id`, or nothing (R38). -/
def InternalRegs.lineOf (r : InternalRegs) (id : Word) : Option Line :=
  (List.finRange 96).find? fun n => r.map[n] == some id

/-- `bound[n] = 1` (R37). -/
def InternalRegs.isBound (r : InternalRegs) (n : Line) : Bool := r.bound.getLsbD n.val

/-- The line to which a chip operation by identifier goes: the identifier has a line and its operations
were installed (R144). -/
def InternalRegs.boundLine (r : InternalRegs) (id : Word) : Option Line :=
  match r.lineOf id with
  | some n => if r.isBound n then some n else none
  | none => none

/-- `id` is the identifier of some line. -/
def InternalRegs.inUse (r : InternalRegs) (id : Word) : Bool := r.map.toList.contains (some id)

/-- The identifiers the default numbering tries: LOGICAL_BASE + nmapped, and the 96 after it, of which
one is always free (R155, log entry 9). -/
def InternalRegs.defaultIds (r : InternalRegs) : List Word :=
  (List.range 97).map fun k => BitVec.ofNat 32 (Config.logicalBase + r.nmapped.toNat + k)

/-- `Alloc(map)` (R155, D13): a non-zero identifier not in use; first those of the configured pool,
then the default numbering. -/
def InternalRegs.alloc (r : InternalRegs) (pool : List Word) : Word :=
  ((pool ++ r.defaultIds).find? fun id => id != Config.noIrq && !r.inUse id).getD
    (BitVec.ofNat 32 (Config.logicalBase + r.nmapped.toNat))

/-- One of the two register windows (R47, R70). -/
inductive Window where
  | intc | tmr
  deriving DecidableEq, Repr

/-- The window that is not this one. -/
def Window.other : Window → Window
  | .intc => .tmr | .tmr => .intc

/-- Where the registers of a window end (R71, R72). -/
def windowEnds (p : Params) : Window → List Nat
  | .intc => p.intcEnds
  | .tmr => p.tmrEnds

/-- The size a configuration gives a window: 0x60 and 0x1C bytes at the defaults (R71, R72). -/
def configuredSize (p : Params) : Window → Nat
  | .intc => p.intcWindow
  | .tmr => p.tmrWindow

/-- The size of a window in bytes: the configured one, or up to the end of its last register where a
configuration puts one beyond it, so that a window always holds its registers (log entry 10). -/
def windowSize (p : Params) (w : Window) : Nat := (windowEnds p w).foldl max (configuredSize p w)

/-- What `Mappable` requires of one address (R73, D30): aligned, the window not wrapping past 2^32, and
in a range the platform can map. -/
def mappableAlone (p : Params) (w : Window) (base : Word) : Bool :=
  decide (base.toNat % 4 = 0) && decide (base.toNat + windowSize p w ≤ 2 ^ 32) &&
    p.mappedRanges.any fun r => decide (r.1 ≤ base) && decide (base ≤ r.2)

/-- A window has a base once its bring-up command has latched one (R34, R40, R47). -/
def InternalRegs.windowReady (r : InternalRegs) : Window → Bool
  | .intc => r.intcReady
  | .tmr => r.tmrReady

/-- INTC_BASE or TMR_BASE (R70). -/
def InternalRegs.windowBase (r : InternalRegs) : Window → Word
  | .intc => r.intcBase
  | .tmr => r.tmrBase

/-- Two byte ranges, each a start and a size, have no byte in common. -/
def apart (a m b n : Nat) : Bool := decide (a + m ≤ b) || decide (b + n ≤ a)

/-- Window `w` at `base` does not overlap the other window, where that one has a base (R73). -/
def windowFree (p : Params) (r : InternalRegs) (w : Window) (base : Word) : Bool :=
  !r.windowReady w.other ||
    apart base.toNat (windowSize p w) (r.windowBase w.other).toNat (windowSize p w.other)

/-- `Mappable(base)` for a window (R73, D30, log entries 10 and 11): what R73 requires of the address
alone, and that the two windows do not overlap. -/
def mappable (s : State) (w : Window) (base : Word) : Bool :=
  mappableAlone s.cfg w base && windowFree s.cfg s.internal w base

/-- The names of the memory-mapped registers (R20 to R31). -/
inductive Reg where
  | banked (k : Kind) (b : Bank)
  | vector | protect | nmiType
  | tIrqst | tCtl | tIntv | tCnt
  deriving DecidableEq, Repr

/-- The registers of the controller window (R71). -/
def Reg.intcAll : List Reg :=
  [.vector, .protect, .nmiType,
   .banked .pending .b0, .banked .pending .b1, .banked .pending .b2,
   .banked .enable .b0, .banked .enable .b1, .banked .enable .b2,
   .banked .mask .b0, .banked .mask .b1, .banked .mask .b2]

/-- The registers of the timer window (R72). -/
def Reg.tmrAll : List Reg := [.tIrqst, .tCtl, .tIntv, .tCnt]

/-- The window a register lies in (R71, R72). -/
def Reg.window : Reg → Window
  | .banked _ _ | .vector | .protect | .nmiType => .intc
  | .tIrqst | .tCtl | .tIntv | .tCnt => .tmr

/-- The register a global selector names (R106). -/
def regOf : GReg → Reg
  | .vector => .vector | .protect => .protect | .nmiType => .nmiType

/-- `OFF_k(0) + 4*b` (R71, R129). -/
def bankedOffset (off : Word) : Bank → Word
  | .b0 => off | .b1 => off + 4 | .b2 => off + 8

/-- The offset of a register in its window (R71, R72). -/
def offsetOf (p : Params) : Reg → Word
  | .banked .pending b => bankedOffset p.offPending b
  | .banked .enable b => bankedOffset p.offEnable b
  | .banked .mask b => bankedOffset p.offMask b
  | .vector => p.offVector
  | .protect => p.offProtect
  | .nmiType => p.offNmiType
  | .tIrqst => p.offTIrqst
  | .tCtl => p.offTCtl
  | .tIntv => p.offTIntv
  | .tCnt => p.offTCnt

/-- `INTC(off)` or `TMR(off)`, base plus offset modulo 2^32 (R14, R129). -/
def State.addrOf (s : State) (r : Reg) : Word :=
  s.internal.windowBase r.window + offsetOf s.cfg r

/-- The interval of one period, `REF_RATE / (PRESCALE * HZ)` (R171). -/
def interval (p : Params) : Nat := p.refRate / (p.prescale * p.hz)

/-- MULT, `(2^32 * REF_RATE) / (PRESCALE * 10^9)` (R185). -/
def multiplier (p : Params) : Nat := 2 ^ Config.shift * p.refRate / (p.prescale * 10 ^ 9)

/-- `ns2t(x)`: nanoseconds to ticks, rounded down; the product of 64 bits cannot overflow (R186). -/
def ns2t (mult x : Word) : Word := ((x.setWidth 64 * mult.setWidth 64) >>> Config.shift).setWidth 32

/-- `t2ns(t)`: ticks to nanoseconds, rounded up, as a mathematical integer (R186). -/
def t2ns (mult t : Nat) : Nat := (t * 2 ^ Config.shift + mult - 1) / mult

/-- T2NS saturates at 2^32 - 1 (R188). -/
def saturate (r : Nat) : Word := if r < 2 ^ 32 then BitVec.ofNat 32 r else 0xFFFFFFFF

end Sys2Proof.Machine
end

