-- ==== Sys2Proof/Machine/Ops.lean ====
section
/-!
DEFINITION. The shared operations: environment and timer steps (R205, R206, R212 to R214), the bus
(R76, R77, R85), ending a command (R200), fatal errors (R210), the prologue (R202, R203), entering and
leaving a callback (R41, R220, R223), and the domain lookup (R155).
-/
namespace Sys2Proof.Machine

/-! ### Environment and timer steps -/

/-- TimerTick is enabled (R212). -/
def MmioRegs.canTick (m : MmioRegs) : Bool := m.en && m.tCnt != 0

/-- TimerExpire is enabled (R213). -/
def MmioRegs.canExpire (m : MmioRegs) : Bool := m.en && m.tCnt == 0

/-- When a step of the environment or of the timer can be taken (R205, R206, R212, R213, R214): the
timer's own line is raised only while TPEND = 1, once TINIT has said which line that is. -/
def envEnabled (r : InternalRegs) (m : MmioRegs) : EnvStep → Bool
  | .lineRaise n => !(r.tmrReady && n.val == r.timerLine.toNat) || m.tpend
  | .timerTick => m.canTick
  | .timerExpire => m.canExpire

/-- `PENDING96[n] <- 1` (R206). -/
def MmioRegs.raise (m : MmioRegs) (n : Line) : MmioRegs :=
  { m with pending := m.pending.set (bankOf n) (m.pending.get (bankOf n) ||| onehot n) }

/-- The effect of an enabled step (R206, R212, R213). -/
def envEffect (m : MmioRegs) : EnvStep → MmioRegs
  | .lineRaise n => m.raise n
  | .timerTick => { m with tCnt := m.tCnt - 1 }
  | .timerExpire =>
    if m.single then { m with tpend := true, tCtl := m.tCtl &&& ~~~ctlEn }
    else { m with tpend := true, tCnt := m.tIntv }

/-- One scheduled step; a step that is not enabled when its turn comes is not taken (log entry 5). -/
def envApply (r : InternalRegs) (m : MmioRegs) (e : EnvStep) : MmioRegs :=
  if envEnabled r m e then envEffect m e else m

/-- The scheduled steps of one slot, in order. -/
def envRun (r : InternalRegs) (m : MmioRegs) (es : List EnvStep) : MmioRegs :=
  es.foldl (envApply r) m

/-- The step a turn of the schedule takes: the scheduled one, if it is enabled (log entry 5). -/
def envTaken (r : InternalRegs) (m : MmioRegs) (e : EnvStep) : Option EnvStep :=
  if envEnabled r m e then some e else none

/-- The moments of one slot: the registers at the turn of each scheduled step and the step taken, then the
registers the block goes on with (log entry 30). -/
def slotMoments (r : InternalRegs) : MmioRegs → List EnvStep → List Moment
  | m, [] => [⟨m, none⟩]
  | m, e :: es => ⟨m, envTaken r m e⟩ :: slotMoments r (envApply r m e) es

/-- One slot of the schedule: a point at which the environment and the timer may act (R205). -/
def State.envSlot (s : State) : State :=
  { s with
    mmio := envRun s.internal s.mmio (s.env.headD [])
    env := s.env.tail
    history := s.history ++ slotMoments s.internal s.mmio (s.env.headD []) }

/-! ### The bus -/

/-- The banks of a kind. -/
def MmioRegs.kind (m : MmioRegs) : Kind → Banks
  | .pending => m.pending | .enable => m.enable | .mask => m.mask

/-- What a bus read of a register returns now (R76). -/
def State.regValue (s : State) : Reg → Word
  | .banked k b => (s.mmio.kind k).get b
  | .vector => s.vectorValue
  | .protect => s.mmio.protect
  | .nmiType => s.mmio.nmiType
  | .tIrqst => s.mmio.tIrqst
  | .tCtl => s.mmio.tCtl
  | .tIntv => s.mmio.tIntv
  | .tCnt => s.mmio.tCnt

/-- What a bus write of `v` does to the registers (R77): PENDING and T_IRQST are write-to-clear, VECTOR
takes no write, the others take the value. -/
def MmioRegs.write (m : MmioRegs) (r : Reg) (v : Word) : MmioRegs :=
  match r with
  | .banked .pending b => { m with pending := m.pending.set b (m.pending.get b &&& ~~~v) }
  | .banked .enable b => { m with enable := m.enable.set b v }
  | .banked .mask b => { m with mask := m.mask.set b v }
  | .vector => m
  | .protect => { m with protect := v }
  | .nmiType => { m with nmiType := v }
  | .tIrqst => { m with tpend := m.tpend && !v.getLsbD 0 }
  | .tCtl => { m with tCtl := v }
  | .tIntv => { m with tIntv := v }
  | .tCnt => { m with tCnt := v }

/-- How many free values a read of a register takes: one for VECTOR, whose idle value is a draw (R25). -/
def Reg.draws : Reg → Nat
  | .vector => 1
  | .banked _ _ | .protect | .nmiType | .tIrqst | .tCtl | .tIntv | .tCnt => 0

/-- The value a bus read returns: the environment's slot before the access, then the read (R85, R205). -/
def readValue (r : Reg) (s : State) : Word := s.envSlot.regValue r

/-- The state a bus read leaves: no register changes but by the environment (R76). -/
def afterRead (r : Reg) (s : State) : State :=
  { s.envSlot with
    trace := s.trace ++ [.busRead (s.addrOf r) (readValue r s)]
    freeCount := s.freeCount + r.draws }

/-- `MemWrite` of a register: the environment's slot before the access, then the write (R77, R85, R205). -/
def busWrite (r : Reg) (v : Word) (s : State) : State :=
  { s.envSlot with
    mmio := s.envSlot.mmio.write r v
    trace := s.trace ++ [.busWrite (s.addrOf r) v] }

/-- Writes one after another (R85). -/
def busWrites (ws : List (Reg × Word)) (s : State) : State :=
  ws.foldl (fun s w => busWrite w.1 w.2 s) s

/-- A read-modify-write: two accesses, an environment slot before each (R87, R251). -/
def readModifyWrite (r : Reg) (f : Word → Word) (s : State) : State :=
  busWrite r (f (readValue r s)) (afterRead r s)

/-! ### Ending a command -/

/-- ST and RES of the response (R43, R200). -/
def State.respond (s : State) (st : Status) (res : Word) : State :=
  { s with st := st.code, res := res }

/-- The command ends with a status and a result. -/
def finish (st : Status) (res : Word) (s : State) : Out := .next (s.respond st res)

/-- A fatal error (R210): the halt latch, ST and RES take its code and information, and the command ends
here. -/
def raiseFatal (st : Status) (info : Word) (s : State) : Out :=
  finish st info { s with internal := { s.internal with halt := st.code } }

/-- The fault CONTRACT (R204). -/
def contractFault (cmd : ContractCommand) (operand : Word) : Out := .fault (.contract cmd operand)

/-- An output event (R12, R49). -/
def State.emit (s : State) (o : Obs) : State := { s with trace := s.trace ++ [o] }

/-- An illegal command: nothing but ST and RES (R118, R202). -/
def illegalCommand (s : State) : Out := finish .xIllegal 0 s

/-! ### The prologue -/

/-- `permitted(c)`: the readiness and the context each command needs (R203). -/
def permitted (i : Instr) (s : State) : Bool :=
  match i with
  | .init _ => !s.internal.intcReady && s.internal.ctx.isEmpty
  | .tinit _ _ => !s.internal.tmrReady && s.internal.ctx.isEmpty
  | .rd _ _ | .wr _ _ _ | .rdg _ | .wrg _ _ | .ack _ | .mask _ | .unmask _
  | .lack _ | .lmask _ | .lunmask _ | .resolve _ | .install _ => s.internal.intcReady
  | .irqEntry => s.internal.intcReady && s.internal.ctx.isEmpty
  | .dispatchRet => s.internal.ctx.getLast? == some .dispatch
  | .setMode _ | .setNextEvent _ | .ns2t _ | .t2ns _ | .getmin | .getmax => s.internal.tmrReady
  | .timerIrq => s.internal.tmrReady && !s.internal.ctx.contains .tick
  | .tickRet => s.internal.ctx.getLast? == some .tick

/-- The common prologue, after decoding (R202): the halt latch, then the permission, then the rule. -/
def prologue (i : Instr) (s : State) (rule : State → Out) : Out :=
  if s.internal.halt ≠ 0 then finish .xHalted (s.internal.halt.setWidth 32) s
  else if permitted i s then rule s
  else finish .xContext 0 s

/-! ### Callbacks: entry and return -/

/-- Entering a callback (R41, R153, R177, R220): push the context, then emit the event. The block saves
nothing else. -/
def enterCallback (c : Ctx) (event : Obs) (s : State) : State :=
  State.emit { s with internal := { s.internal with ctx := s.internal.ctx ++ [c] } } event

/-- Returning from a callback (R154, R178, R223): pop the context, and restore nothing else. -/
def leaveCallback (s : State) : State :=
  { s with internal := { s.internal with ctx := s.internal.ctx.dropLast } }

/-- The rule of the two return commands (R154, R178). -/
def returnRule (s : State) : Out := finish .ok 0 (leaveCallback s)

/-! ### The domain -/

/-- The entry of a line is made: `map[n] <- id`, `nmapped <- nmapped + 1` (R155). -/
def State.mapLine (s : State) (n : Line) (id : Word) : State :=
  { s with internal := { s.internal with
      map := s.internal.map.set n.val id
      nmapped := s.internal.nmapped + 1 } }

/-- What `resolve(n)` of R155 does: answer the identifier a line has, make it one, or find the table
full. -/
inductive Resolved where
  | found (id : Word)
  | allocated (id : Word)
  | full
  deriving DecidableEq, Repr

/-- The choice `resolve(n)` makes (R155). -/
def State.lookup (s : State) (n : Line) : Resolved :=
  match s.internal.map[n] with
  | some id => .found id
  | none =>
    if s.internal.nmapped.toNat = Config.capacity then .full
    else .allocated (s.internal.alloc s.cfg.idPool)

/-- `resolve(n)` (R155), going on with the identifier; a full table is the fatal F_DOMAIN_FULL. -/
def resolveThen (n : Line) (s : State) (go : Word → State → Out) : Out :=
  match s.lookup n with
  | .found id => go id s
  | .allocated id => go id (s.mapLine n id)
  | .full => raiseFatal .fDomainFull (BitVec.ofNat 32 n.val) s

/-- A nanosecond bound as TINIT latches it (R165): the value where 32 bits hold it, and otherwise a free
value (log entry 13). -/
def latchedBound (count : Nat) (r : Nat) : Word :=
  if r < 2 ^ 32 then BitVec.ofNat 32 r else Config.freeValue count

end Sys2Proof.Machine
end

