-- ==== Sys2Proof/Machine/Bus.lean ====
section
/-!
DEFINITION. The raw bus (R74, R76, R77, U21): an access by address and size, which takes no step where
no register of the block is addressed, and the little-endian byte view of the windows (R75). The
commands name their registers; here an address finds its register. No other agent uses the bus (R78).
-/
namespace Sys2Proof.Machine

/-- The registers that have an address now: a window exists once its base is latched (R34, R40, R47). -/
def State.mappedRegs (s : State) : List Reg :=
  (if s.internal.intcReady then Reg.intcAll else []) ++
    (if s.internal.tmrReady then Reg.tmrAll else [])

/-- The register at an address (R71, R72, R74). -/
def State.regAt (s : State) (addr : Word) : Option Reg :=
  s.mappedRegs.find? fun r => s.addrOf r == addr

/-- Only aligned accesses of four bytes exist (R76). -/
def busShapeOk (addr : Word) (size : Nat) : Bool :=
  decide (size = 4) && decide (addr.toNat % 4 = 0)

/-- `MemRead(addr, size)` (R76): the value and the state after, or no step. -/
def memRead (addr : Word) (size : Nat) (s : State) : Option (Word × State) :=
  if busShapeOk addr size then (s.regAt addr).map fun r => (readValue r s, afterRead r s)
  else none

/-- `MemWrite(addr, size, v)` (R77): the state after, or no step; VECTOR is read-only. -/
def memWrite (addr : Word) (size : Nat) (v : Word) (s : State) : Option State :=
  if busShapeOk addr size then
    match s.regAt addr with
    | none => none
    | some .vector => none
    | some r => some (busWrite r v s)
  else none

/-- The byte at an address of a window, little-endian: byte a of the word at a holds bits 7:0 (R75).
VECTOR has no storage and no byte here. -/
def State.byteAt (s : State) (addr : Word) : Option Byte :=
  match s.regAt (addr &&& ~~~3#32) with
  | none => none
  | some .vector => none
  | some r => some ((s.regValue r).extractLsb' (8 * (addr.toNat % 4)) 8)

end Sys2Proof.Machine
end

