-- ==== Sys2Proof/Machine/Domain.lean ====
section
/-!
DEFINITION. The interrupt domain and entry commands (42_domain.md): INIT, RESOLVE, INSTALL, IRQ_ENTRY,
DISPATCH_RET.
-/
namespace Sys2Proof.Machine

/-- The eleven writes of INIT, in order (R150): disable all lines, unmask all, acknowledge all,
protection mode on, NMI type level-triggered. -/
def initWrites : List (Reg × Word) :=
  [(.banked .enable .b0, 0x00000000), (.banked .enable .b1, 0x00000000),
   (.banked .enable .b2, 0x00000000),
   (.banked .mask .b0, 0x00000000), (.banked .mask .b1, 0x00000000),
   (.banked .mask .b2, 0x00000000),
   (.banked .pending .b0, 0xFFFFFFFF), (.banked .pending .b1, 0xFFFFFFFF),
   (.banked .pending .b2, 0xFFFFFFFF),
   (.protect, 0x00000001), (.nmiType, 0x00000000)]

/-- `INTC_BASE <- base` (R150). -/
def State.setIntcBase (s : State) (base : Word) : State :=
  { s with internal := { s.internal with intcBase := base } }

/-- `intc_ready <- 1` (R150). -/
def State.setIntcReady (s : State) : State :=
  { s with internal := { s.internal with intcReady := true } }

/-- The rule of INIT (R150). -/
def initRule (base : Word) (s : State) : Out :=
  if mappable s .intc base then
    finish .ok 0 (busWrites initWrites (s.setIntcBase base)).setIntcReady
  else raiseFatal .fNoBase base s

/-- `INIT base` (R150). -/
def execInit (base : Word) (s : State) : Out := prologue (.init base) s (initRule base)

/-- The rule of RESOLVE (R151). -/
def resolveRule (n : Word) (s : State) : Out :=
  match line? n with
  | none => contractFault .resolve n
  | some n => resolveThen n s (finish .ok)

/-- `RESOLVE n` (R151). -/
def execResolve (n : Word) (s : State) : Out := prologue (.resolve n) s (resolveRule n)

/-- `bound[n] <- 1` (R152). -/
def State.bindLine (s : State) (n : Line) : State :=
  { s with internal := { s.internal with bound := s.internal.bound ||| 1#96 <<< n.val } }

/-- The rule of INSTALL (R152). -/
def installRule (id : Word) (s : State) : Out :=
  match s.internal.lineOf id with
  | none => finish .xUnbound id s
  | some n => finish .ok (BitVec.ofNat 32 n.val) (s.bindLine n)

/-- `INSTALL id` (R152). -/
def execInstall (id : Word) (s : State) : Out := prologue (.install id) s (installRule id)

/-- A mapped vector value: push DISPATCH, dispatch the identifier (R153). -/
def dispatchId (id : Word) (s : State) : Out :=
  finish .ok id (enterCallback .dispatch (.dispatch id) s)

/-- What IRQ_ENTRY does once the vector read has returned `v` (R153): a value that names a line is
resolved and dispatched; any other is a spurious read, logged and dispatched as NO_IRQ. -/
def dispatchVector (v : Word) (s : State) : Out :=
  match line? (v >>> Config.vecShift) with
  | some n => resolveThen n s dispatchId
  | none =>
    finish .eSpurious Config.noIrq
      (enterCallback .dispatch (.dispatch Config.noIrq) (s.emit (.log Status.eSpurious.code)))

/-- The rule of IRQ_ENTRY: one read of VECTOR, then the dispatch (R153). -/
def irqEntryRule (s : State) : Out := dispatchVector (readValue .vector s) (afterRead .vector s)

/-- `IRQ_ENTRY` (R153, R220). -/
def execIrqEntry (s : State) : Out := prologue .irqEntry s irqEntryRule

/-- `DISPATCH_RET` (R154, R223). -/
def execDispatchRet (s : State) : Out := prologue .dispatchRet s returnRule

end Sys2Proof.Machine
end

