-- ==== Sys2Proof/Machine/LineControl.lean ====
section
/-!
DEFINITION. The line control commands (41_line_control.md): ACK, MASK, UNMASK by line number, and LACK,
LMASK, LUNMASK by logical identifier. The three bodies are written once, over a line.
-/
namespace Sys2Proof.Machine

/-- The body of ACK (R140): one write of the single bit, no read. -/
def ackLine (n : Line) (s : State) : State := busWrite (.banked .pending (bankOf n)) (onehot n) s

/-- The body of MASK (R141): clear the enable bit by read-modify-write. -/
def maskLine (n : Line) (s : State) : State :=
  readModifyWrite (.banked .enable (bankOf n)) (fun e => e &&& ~~~onehot n) s

/-- The enable half of UNMASK (R142). -/
def enableLine (n : Line) (s : State) : State :=
  readModifyWrite (.banked .enable (bankOf n)) (fun e => e ||| onehot n) s

/-- The body of UNMASK (R142): set the enable bit by read-modify-write, and for line 0 acknowledge it
right after. -/
def unmaskLine (n : Line) (s : State) : State :=
  if n = Config.nmiLine then busWrite (.banked .pending .b0) 0x00000001 (enableLine n s)
  else enableLine n s

/-- A line operation addressed by line number: CONTRACT for 96 and above (R143, R204). -/
def byLine (cmd : ContractCommand) (n : Word) (op : Line → State → State) (s : State) : Out :=
  match line? n with
  | none => contractFault cmd n
  | some n => finish .ok 0 (op n s)

/-- A line operation addressed by identifier: X_UNBOUND where the identifier has no line or its
operations were not installed, before any bus access (R144, R209). -/
def byId (id : Word) (op : Line → State → State) (s : State) : Out :=
  match s.internal.boundLine id with
  | none => finish .xUnbound id s
  | some n => finish .ok 0 (op n s)

/-- `ACK n` (R140). -/
def execAck (n : Word) (s : State) : Out := prologue (.ack n) s (byLine .ack n ackLine)

/-- `MASK n` (R141). -/
def execMask (n : Word) (s : State) : Out := prologue (.mask n) s (byLine .mask n maskLine)

/-- `UNMASK n` (R142). -/
def execUnmask (n : Word) (s : State) : Out :=
  prologue (.unmask n) s (byLine .unmask n unmaskLine)

/-- `LACK id` (R144). -/
def execLack (id : Word) (s : State) : Out := prologue (.lack id) s (byId id ackLine)

/-- `LMASK id` (R145). -/
def execLmask (id : Word) (s : State) : Out := prologue (.lmask id) s (byId id maskLine)

/-- `LUNMASK id` (R146). -/
def execLunmask (id : Word) (s : State) : Out := prologue (.lunmask id) s (byId id unmaskLine)

end Sys2Proof.Machine
end

