-- ==== Sys2Proof/Machine/NsConvert.lean ====
section
/-!
DEFINITION. The nanosecond converter (45_ns_convert.md): NS2T, T2NS, GETMIN, GETMAX.
-/
namespace Sys2Proof.Machine

/-- The rule of the converter's commands: a result computed from the latched state, no bus access and
no other change. -/
def computeRule (f : InternalRegs → Word) (s : State) : Out := finish .ok (f s.internal) s

/-- `NS2T ns` (R187). -/
def execNs2t (ns : Word) (s : State) : Out :=
  prologue (.ns2t ns) s (computeRule fun r => ns2t r.mult ns)

/-- `T2NS ticks` (R188): the result saturates. -/
def execT2ns (ticks : Word) (s : State) : Out :=
  prologue (.t2ns ticks) s (computeRule fun r => saturate (t2ns r.mult.toNat ticks.toNat))

/-- `GETMIN` (R189). -/
def execGetmin (s : State) : Out := prologue .getmin s (computeRule InternalRegs.minNs)

/-- `GETMAX` (R190). -/
def execGetmax (s : State) : Out := prologue .getmax s (computeRule InternalRegs.maxNs)

end Sys2Proof.Machine
end

