-- ==== Sys2Proof/Machine/RegisterAccess.lean ====
section
/-!
DEFINITION. The register access commands (40_register_access.md): RD, WR, RDG, WRG.
-/
namespace Sys2Proof.Machine

/-- The rule of the reading commands: one bus read, its value in RES (R130, R132). -/
def readRule (r : Reg) (s : State) : Out := finish .ok (readValue r s) (afterRead r s)

/-- The rule of the writing commands: one bus write (R131, R133). -/
def writeRule (r : Reg) (value : Word) (s : State) : Out := finish .ok 0 (busWrite r value s)

/-- `RD kind, bank` (R130). -/
def execRd (k : Kind) (b : Bank) (s : State) : Out :=
  prologue (.rd k b) s (readRule (.banked k b))

/-- `WR kind, bank, value` (R131). -/
def execWr (k : Kind) (b : Bank) (value : Word) (s : State) : Out :=
  prologue (.wr k b value) s (writeRule (.banked k b) value)

/-- `RDG greg` (R132). -/
def execRdg (g : GReg) (s : State) : Out :=
  prologue (.rdg g) s (readRule (regOf g))

/-- `WRG greg, value` (R133). The term that writes VECTOR is no command (R106, R118): it does what its
illegal word does (log entry 18). -/
def execWrg (g : GReg) (value : Word) (s : State) : Out :=
  match g with
  | .vector => illegalCommand s
  | .protect => prologue (.wrg .protect value) s (writeRule .protect value)
  | .nmiType => prologue (.wrg .nmiType value) s (writeRule .nmiType value)

end Sys2Proof.Machine
end

