-- ==== Sys2Proof/Machine/TimerEvent.lean ====
section
/-!
DEFINITION. The timer event commands (44_timer_event.md): SET_NEXT_EVENT, TIMER_IRQ, TICK_RET.
-/
namespace Sys2Proof.Machine

/-- The three accesses of SET_NEXT_EVENT (R175): the count, then one read-modify-write of T_CTL. -/
def programNextEvent (delta : Word) (s : State) : State :=
  readModifyWrite .tCtl (fun c => c ||| ctlReload ||| ctlEn) (busWrite .tCnt delta s)

/-- The rule of SET_NEXT_EVENT (R175, R176). -/
def setNextEventRule (delta : Word) (s : State) : Out :=
  if deltaOk delta then finish .ok 0 (programNextEvent delta s)
  else contractFault .setNextEvent delta

/-- `SET_NEXT_EVENT delta` (R175, R176). -/
def execSetNextEvent (delta : Word) (s : State) : Out :=
  prologue (.setNextEvent delta) s (setNextEventRule delta)

/-- The rule of TIMER_IRQ (R177): acknowledge at the timer, then the tick callback. -/
def timerIrqRule (s : State) : Out :=
  finish .ok 0
    (enterCallback .tick (.tickCallback Config.cpu) (busWrite .tIrqst 0x00000001 s))

/-- `TIMER_IRQ` (R177, R222). -/
def execTimerIrq (s : State) : Out := prologue .timerIrq s timerIrqRule

/-- `TICK_RET` (R178, R223). -/
def execTickRet (s : State) : Out := prologue .tickRet s returnRule

end Sys2Proof.Machine
end

