-- ==== Sys2Proof/Machine/TimerMode.lean ====
section
/-!
DEFINITION. The timer mode commands (43_timer_mode.md): TINIT and SET_MODE with its three transitions.
-/
namespace Sys2Proof.Machine

/-- The Timer Device State as TINIT leaves it (R165). A bound 32 bits cannot hold is a free value, and
the two draws are counted (log entry 13). -/
def State.registerTimer (s : State) (line : BitVec 8) (base : Word) : State :=
  { s with
    internal := { s.internal with
      tmrBase := base
      timerLine := line.setWidth 7
      mult := BitVec.ofNat 32 (multiplier s.cfg)
      minNs := latchedBound s.freeCount (t2ns (multiplier s.cfg) Config.minDelta)
      maxNs := latchedBound (s.freeCount + 1) (t2ns (multiplier s.cfg) Config.maxDelta)
      mode := .disabled
      tmrReady := true }
    freeCount := s.freeCount + 2 }

/-- The rule of TINIT (R165): the base is checked before the line; no bus access. -/
def tinitRule (line : BitVec 8) (base : Word) (s : State) : Out :=
  if mappable s .tmr base then
    if line.toNat ≤ 95 then
      finish .ok (BitVec.ofNat 32 (multiplier s.cfg)) (s.registerTimer line base)
    else raiseFatal .fNoIrq (line.setWidth 32) s
  else raiseFatal .fNoBase base s

/-- `TINIT line, base` (R165). -/
def execTinit (line : BitVec 8) (base : Word) (s : State) : Out :=
  prologue (.tinit line base) s (tinitRule line base)

/-- `mode <- m` (R170). -/
def State.setTimerMode (s : State) (m : TimerMode) : State :=
  { s with internal := { s.internal with mode := m } }

/-- The transition to Periodic (R167): T_INTV, then one read-modify-write of T_CTL. -/
def toPeriodic (s : State) : State :=
  (readModifyWrite .tCtl (fun c => (c &&& ~~~ctlSingle) ||| ctlEn)
    (busWrite .tIntv (BitVec.ofNat 32 (interval s.cfg)) s)).setTimerMode .periodic

/-- The transition to OneShot (R168). -/
def toOneShot (s : State) : State :=
  (readModifyWrite .tCtl (fun c => c ||| ctlSingle) s).setTimerMode .oneShot

/-- The transition to Disabled (R169): clear EN only. -/
def toDisabled (s : State) : State :=
  (readModifyWrite .tCtl (fun c => c &&& ~~~ctlEn) s).setTimerMode .disabled

/-- The transition a request selects, whatever the mode is (R166, R170, D26). -/
def modeTransition : ModeReq → State → State
  | .disabled => toDisabled
  | .periodic => toPeriodic
  | .oneshot => toOneShot
  | .unused => toDisabled

/-- The rule of SET_MODE (R166). -/
def setModeRule (m : ModeReq) (s : State) : Out := finish .ok 0 (modeTransition m s)

/-- `SET_MODE mode` (R166). -/
def execSetMode (m : ModeReq) (s : State) : Out := prologue (.setMode m) s (setModeRule m)

end Sys2Proof.Machine
end

