-- ==== Sys2Proof/Machine/Dispatch.lean ====
section
/-!
DEFINITION. The meaning of each command, one arm per constructor (R100).
-/
namespace Sys2Proof.Machine

def exec (i : Instr) (s : State) : Host.Outcome State Fault Refusal :=
  match i with
  | .rd k b => Sys2Proof.Machine.execRd k b s
  | .wr k b value => Sys2Proof.Machine.execWr k b value s
  | .rdg g => Sys2Proof.Machine.execRdg g s
  | .wrg g value => Sys2Proof.Machine.execWrg g value s
  | .ack n => Sys2Proof.Machine.execAck n s
  | .mask n => Sys2Proof.Machine.execMask n s
  | .unmask n => Sys2Proof.Machine.execUnmask n s
  | .lack id => Sys2Proof.Machine.execLack id s
  | .lmask id => Sys2Proof.Machine.execLmask id s
  | .lunmask id => Sys2Proof.Machine.execLunmask id s
  | .init base => Sys2Proof.Machine.execInit base s
  | .resolve n => Sys2Proof.Machine.execResolve n s
  | .install id => Sys2Proof.Machine.execInstall id s
  | .irqEntry => Sys2Proof.Machine.execIrqEntry s
  | .dispatchRet => Sys2Proof.Machine.execDispatchRet s
  | .tinit line base => Sys2Proof.Machine.execTinit line base s
  | .setMode m => Sys2Proof.Machine.execSetMode m s
  | .setNextEvent delta => Sys2Proof.Machine.execSetNextEvent delta s
  | .timerIrq => Sys2Proof.Machine.execTimerIrq s
  | .tickRet => Sys2Proof.Machine.execTickRet s
  | .ns2t ns => Sys2Proof.Machine.execNs2t ns s
  | .t2ns ticks => Sys2Proof.Machine.execT2ns ticks s
  | .getmin => Sys2Proof.Machine.execGetmin s
  | .getmax => Sys2Proof.Machine.execGetmax s

end Sys2Proof.Machine
end

