-- ==== Sys2Proof/Machine/Port.lean ====
section
/-!
DEFINITION. The command port (R44, R101): presenting a command word and taking the next one.
-/
namespace Sys2Proof.Machine

/-- The next command word, if one is presented (R44). -/
def State.nextWord (s : State) : Option CmdWord := s.port.head?

/-- The word at the head of the port is taken. -/
def State.takeWord (s : State) : State := { s with port := s.port.tail }

/-- A word presented so that it is taken next. -/
def State.present (s : State) (w : CmdWord) : State := { s with port := w :: s.port }

/-- The command word of a table word: the bits above `nbits` are 0 (R101). -/
def wordOfTable (nbits w : Nat) : CmdWord := BitVec.ofNat 64 (w % 2 ^ nbits)

end Sys2Proof.Machine
end

