-- ==== Sys2Proof/Machine/Step.lean ====
section
/-!
DEFINITION. One step of the machine (R202, R205): the environment's slot before the command, then the
next command word is taken, decoded and run whole. With no word presented the slot is all that happens
(log entry 16).
-/
namespace Sys2Proof.Machine

/-- One step. -/
def step (s : State) : Host.Outcome State Fault Refusal :=
  match s.nextWord with
  | none => .next s.envSlot
  | some w =>
    match decode w with
    | none => illegalCommand s.envSlot.takeWord
    | some i => exec i s.envSlot.takeWord

/-- `s` with a table word presented so that the very next step takes it (log entry 1). -/
def State.withFetchWord (s : State) (nbits w : Nat) : State := s.present (wordOfTable nbits w)

end Sys2Proof.Machine
end

