-- ==== Sys2Proof/Safety.lean ====
section
/-!
DEFINITION. What a reader may rely on in every state a run reaches, in the terms the statements use:
the invariant of the core's state (R35 to R42, R203), environment slots taken in a row (R205), and the
infinite runs of the machine that are fair to the timer (R215).
-/
namespace Sys2Proof.Machine

/-- `k` slots of the schedule with nothing between them. -/
def State.envSlots : Nat → State → State
  | 0, s => s
  | k + 1, s => State.envSlots k s.envSlot

/-- A step of the timer hardware, not of a line. -/
def EnvStep.isTimer : EnvStep → Bool
  | .lineRaise _ => false
  | .timerTick => true
  | .timerExpire => true

/-- The number of lines that have an identifier (R35, R36). -/
def InternalRegs.mappedCount (r : InternalRegs) : Nat :=
  (List.finRange 96).countP fun n => r.map[n].isSome

/-- The four possible context stacks (R41). -/
def legalContexts : List (List Ctx) := [[], [.dispatch], [.tick], [.dispatch, .tick]]

/-- The status codes a command of this block can end with: R200 without the reserved E_BAD_DESC and the
unreachable F_DOMAIN_FULL (R156). -/
def reachableCodes : List (BitVec 4) := [0, 1, 8, 9, 12, 13, 14, 15]

/-- The invariant of the core's state, in a machine of an admissible configuration. -/
structure Inv (s : State) : Prop where
  /-- The parameters meet their constraints (R9, R71, R73, R185). -/
  admissible : s.cfg.Admissible
  /-- The defined entries of `map` are pairwise distinct (R36 a). -/
  mapDistinct : ∀ (m n : Line) (id : Word),
    s.internal.map[m] = some id → s.internal.map[n] = some id → m = n
  /-- No entry of `map` is NO_IRQ (R36 b). -/
  mapNonzero : ∀ n : Line, s.internal.map[n] ≠ some 0
  /-- `nmapped` counts the defined entries (R36 c). -/
  mapCount : s.internal.nmapped.toNat = s.internal.mappedCount
  /-- A bound line has an identifier (R37). -/
  boundMapped : ∀ n : Line, s.internal.isBound n = true → s.internal.map[n].isSome = true
  /-- The context stack is one of the four (R41). -/
  ctxLegal : s.internal.ctx ∈ legalContexts
  /-- DISPATCH is pushed only after INIT (R203). -/
  ctxDispatch : Ctx.dispatch ∈ s.internal.ctx → s.internal.intcReady = true
  /-- TICK is pushed only after TINIT (R203). -/
  ctxTick : Ctx.tick ∈ s.internal.ctx → s.internal.tmrReady = true
  /-- `halt` is 0 or a fatal code that can occur (R42, R156). -/
  haltLegal : s.internal.halt = 0 ∨ s.internal.halt = 8 ∨ s.internal.halt = 9
  /-- ST is a code a command can end with (R200). -/
  stLegal : s.st ∈ reachableCodes
  /-- After INIT the controller's base is one the platform can map (R73, R150). -/
  intcMapped : s.internal.intcReady = true →
    mappableAlone s.cfg .intc s.internal.intcBase = true
  /-- After TINIT the timer's base is one the platform can map (R73, R165). -/
  tmrMapped : s.internal.tmrReady = true → mappableAlone s.cfg .tmr s.internal.tmrBase = true
  /-- The two windows do not overlap (R73). -/
  windowsApart : s.internal.intcReady = true → s.internal.tmrReady = true →
    apart s.internal.intcBase.toNat (windowSize s.cfg .intc)
      s.internal.tmrBase.toNat (windowSize s.cfg .tmr) = true
  /-- After TINIT the timer's line is a line (R165). -/
  timerLineOk : s.internal.tmrReady = true → s.internal.timerLine.toNat ≤ 95
  /-- After TINIT MULT is the multiplier of R185. -/
  multOk : s.internal.tmrReady = true → s.internal.mult.toNat = multiplier s.cfg
  /-- After TINIT MIN_NS is the least delta in nanoseconds, where 32 bits hold it (R165, R191). -/
  minNsOk : s.internal.tmrReady = true → t2ns (multiplier s.cfg) 1 < 2 ^ 32 →
    s.internal.minNs.toNat = t2ns (multiplier s.cfg) 1
  /-- After TINIT MAX_NS is the greatest delta in nanoseconds, where 32 bits hold it (R165, R191). -/
  maxNsOk : s.internal.tmrReady = true → t2ns (multiplier s.cfg) 255 < 2 ^ 32 →
    s.internal.maxNs.toNat = t2ns (multiplier s.cfg) 255
  /-- The mode is Disabled until TINIT (R170). -/
  modeBeforeTinit : s.internal.tmrReady = false → s.internal.mode = .disabled

/-! ### Infinite runs and fairness (R215) -/

/-- `s` with the environment's schedule for the coming step and the command words that arrive before it
(R205, R230). -/
def State.feed (s : State) (slots : List (List EnvStep)) (words : List CmdWord) : State :=
  { s with env := slots, port := s.port ++ words }

/-- An infinite run of the machine, its inputs supplied step by step: commands execute, callbacks and
refusals included, and the environment acts before and inside them as each step's schedule says (R205). -/
def Run (s : Nat → State) (slots : Nat → List (List EnvStep)) (words : Nat → List CmdWord) : Prop :=
  ∀ k, step ((s k).feed (slots k) (words k)) = .next (s (k + 1))

/-- `mo` is the `i`-th moment of the run, at whatever step it lies. -/
def MomentAt (s : Nat → State) (i : Nat) (mo : Moment) : Prop := ∃ k, (s k).history[i]? = some mo

/-- Weak fairness of one step: if it is enabled at every moment from some moment on, it is taken at or
after that moment (R215). -/
def WeaklyFair (s : Nat → State) (enabled : MmioRegs → Bool) (e : EnvStep) : Prop :=
  ∀ i, (∀ j mo, i ≤ j → MomentAt s j mo → enabled mo.regs = true) →
    ∃ j mo, i ≤ j ∧ MomentAt s j mo ∧ mo.taken = some e

/-- The fairness of R215: TimerTick and TimerExpire are weakly fair; nothing is assumed of LineRaise. -/
structure TimerFair (s : Nat → State) : Prop where
  tick : WeaklyFair s MmioRegs.canTick .timerTick
  expire : WeaklyFair s MmioRegs.canExpire .timerExpire

end Sys2Proof.Machine
end

