-- ==== Sys2Proof/Certificates/Slice0/Obligations.lean ====
section
/-!
DEFINITION. The statements for the provers.

Every statement holds for every schedule of environment steps (R205) unless it says otherwise:
`s.envSlot` is the state after the environment's slot before an access, `s.envSlots k` after `k` slots.
A statement over every state holds for every configuration too, since a state carries its own.
-/
namespace Sys2Proof.Machine

/-- The core is running and INIT has succeeded: what R202 and R203 ask of the controller's commands. -/
abbrev IntcRunning (s : State) : Prop := s.internal.halt = 0 ∧ s.internal.intcReady = true

/-- The core is running and TINIT has succeeded: what R202 and R203 ask of the timer's commands. -/
abbrev TmrRunning (s : State) : Prop := s.internal.halt = 0 ∧ s.internal.tmrReady = true

/-- `t` is `s` with the inputs of `k` slots used and the response `(ST, RES)`; configuration, command
port and the count of free values are as they were. -/
def Responded (s : State) (k : Nat) (st : BitVec 4) (res : Word) (t : State) : Prop :=
  t.st = st ∧ t.res = res ∧ t.env = s.env.drop k ∧ t.port = s.port ∧ t.cfg = s.cfg ∧
    t.freeCount = s.freeCount

/-- The effect of ACK on line `n` (R140): exactly its pending bit is cleared, by one write and no read;
every other register and all of the core's own state is as before. -/
def AckEffect (n : Line) (s t : State) : Prop :=
  (∀ m : Line, t.mmio.pending.line m = (s.envSlot.mmio.pending.line m && decide (m ≠ n))) ∧
  t.mmio = { s.envSlot.mmio with pending := t.mmio.pending } ∧
  t.internal = s.internal ∧
  t.trace = s.trace ++
    [.busWrite (s.addrOf (.banked .pending (bankOf n))) (1#32 <<< (n.val % 32))] ∧
  Responded s 1 0 0 t

/-- The effect of MASK on line `n` (R141): exactly its enable bit is cleared, by a read and a write. -/
def MaskEffect (n : Line) (s t : State) : Prop :=
  (∀ m : Line, t.mmio.enable.line m = (s.mmio.enable.line m && decide (m ≠ n))) ∧
  t.mmio = { (s.envSlots 2).mmio with enable := t.mmio.enable } ∧
  t.internal = s.internal ∧
  t.trace = s.trace ++
    [.busRead (s.addrOf (.banked .enable (bankOf n))) (s.mmio.enable.get (bankOf n)),
     .busWrite (s.addrOf (.banked .enable (bankOf n)))
       (s.mmio.enable.get (bankOf n) &&& ~~~(1#32 <<< (n.val % 32)))] ∧
  Responded s 2 0 0 t

/-- The effect of UNMASK on line `n` (R142): exactly its enable bit is set, by a read and a write; for
line 0 its pending bit is then cleared by one more write. -/
def UnmaskEffect (n : Line) (s t : State) : Prop :=
  (∀ m : Line, t.mmio.enable.line m = (s.mmio.enable.line m || decide (m = n))) ∧
  t.internal = s.internal ∧
  (n.val ≠ 0 →
    t.mmio = { (s.envSlots 2).mmio with enable := t.mmio.enable } ∧
    t.trace = s.trace ++
      [.busRead (s.addrOf (.banked .enable (bankOf n))) (s.mmio.enable.get (bankOf n)),
       .busWrite (s.addrOf (.banked .enable (bankOf n)))
         (s.mmio.enable.get (bankOf n) ||| (1#32 <<< (n.val % 32)))] ∧
    Responded s 2 0 0 t) ∧
  (n.val = 0 →
    (∀ m : Line, t.mmio.pending.line m =
      ((s.envSlots 3).mmio.pending.line m && decide (m.val ≠ 0))) ∧
    t.mmio = { (s.envSlots 3).mmio with
      enable := t.mmio.enable, pending := t.mmio.pending } ∧
    t.trace = s.trace ++
      [.busRead (s.addrOf (.banked .enable .b0)) s.mmio.enable.b0,
       .busWrite (s.addrOf (.banked .enable .b0)) (s.mmio.enable.b0 ||| 1#32),
       .busWrite (s.addrOf (.banked .pending .b0)) 1#32] ∧
    Responded s 3 0 0 t)

/-- `id` is the identifier `resolve(n)` gives in `r`, and `r'` is the core's state with the entry made
(R155): the existing one, or a new one that is not 0 and belongs to no line. -/
def ResolvesTo (r : InternalRegs) (n : Line) (id : Word) (r' : InternalRegs) : Prop :=
  (r.map[n] = some id ∧ r' = r) ∨
  (r.map[n] = none ∧ id ≠ 0 ∧ (∀ m : Line, r.map[m] ≠ some id) ∧
    r' = { r with map := r.map.set n.val (some id), nmapped := r.nmapped + 1 })

end Sys2Proof.Machine

open Sys2Proof Sys2Proof.Machine

/-! ### The command word -/

/-- R122: the eleven worked encodings. -/
def Obligations.WorkedEncodingsDecode : Prop :=
  decode 0x1000000500000000 = some (.rd .enable .b1) ∧
  decode 0x1100000200000020 = some (.wr .pending .b2 0x00000020) ∧
  decode 0x1200000000000000 = some (.rdg .vector) ∧
  decode 0x1300000200000000 = some (.wrg .nmiType 0) ∧
  decode 0x2000000000000025 = some (.ack 37) ∧
  decode 0x2200000000000000 = some (.unmask 0) ∧
  decode 0x3000000001C20400 = some (.init 0x01C20400) ∧
  decode 0x4000001601C20C00 = some (.tinit 22 0x01C20C00) ∧
  decode 0x4100000200000000 = some (.setMode .oneshot) ∧
  decode 0x42000000000000FF = some (.setNextEvent 255) ∧
  decode 0x5100000000000001 = some (.t2ns 1)

/-- Every well-formed command is what the decoder reads from its word, with every operand value. -/
def Obligations.DecodeOfEncodeIsTheCommand : Prop :=
  ∀ i : Instr, i.wellFormed = true → decode (encode i) = some i

/-- R111: "every legal command has exactly one word". -/
def Obligations.EveryLegalWordIsItsCommandsEncoding : Prop :=
  ∀ (w : CmdWord) (i : Instr), decode w = some i → i.wellFormed = true ∧ encode i = w

/-- R118: which words are illegal, and that an illegal word changes nothing but ST and RES (the word is
taken from the port after the environment's slot). -/
def Obligations.IllegalWordsAreThoseOfR118 : Prop :=
  (∀ w : CmdWord, decode w = none ↔
    (w.extractLsb' 40 16 ≠ 0 ∨
    w.extractLsb' 56 8 ∉ ([0x10, 0x11, 0x12, 0x13, 0x20, 0x21, 0x22, 0x24, 0x25, 0x26,
      0x30, 0x31, 0x32, 0x33, 0x34, 0x40, 0x41, 0x42, 0x43, 0x44, 0x50, 0x51, 0x52, 0x53] :
      List (BitVec 8)) ∨
    (w.extractLsb' 56 8 ∈ ([0x33, 0x34, 0x43, 0x44, 0x52, 0x53] : List (BitVec 8)) ∧
      w.extractLsb' 0 40 ≠ 0) ∨
    (w.extractLsb' 56 8 ∈ ([0x20, 0x21, 0x22, 0x24, 0x25, 0x26, 0x30, 0x31, 0x32, 0x42,
      0x50, 0x51] : List (BitVec 8)) ∧ w.extractLsb' 32 8 ≠ 0) ∨
    (w.extractLsb' 56 8 ∈ ([0x10, 0x12, 0x41] : List (BitVec 8)) ∧ w.extractLsb' 0 32 ≠ 0) ∨
    (w.extractLsb' 56 8 ∈ ([0x10, 0x11] : List (BitVec 8)) ∧
      (w.extractLsb' 36 4 ≠ 0 ∨ w.extractLsb' 34 2 = 3 ∨ w.extractLsb' 32 2 = 3)) ∨
    (w.extractLsb' 56 8 = 0x12 ∧ 3 ≤ (w.extractLsb' 32 8).toNat) ∨
    (w.extractLsb' 56 8 = 0x13 ∧
      ((w.extractLsb' 32 8).toNat = 0 ∨ 3 ≤ (w.extractLsb' 32 8).toNat)) ∨
    (w.extractLsb' 56 8 = 0x41 ∧ 4 ≤ (w.extractLsb' 32 8).toNat))) ∧
  (∀ (s : State) (w : CmdWord) (rest : List CmdWord), s.port = w :: rest → decode w = none →
    step s = .next { s.envSlot with port := rest, st := 12, res := 0 })

/-! ### The step and the prologue -/

/-- A step runs the command the next word decodes to (R202, R205; the port and the slot before the
command are the model's, log entries 1, 4 and 16). -/
def Obligations.StepRunsTheDecodedCommand : Prop :=
  (∀ (s : State) (w : CmdWord) (rest : List CmdWord) (i : Instr),
    s.port = w :: rest → decode w = some i → step s = exec i { s.envSlot with port := rest }) ∧
  (∀ s : State, s.port = [] → step s = .next s.envSlot)

/-- R202: the checks of the prologue in their order, for every command word: illegal, halted, not
permitted; each changes nothing but ST and RES. -/
def Obligations.PrologueChecksInOrder : Prop :=
  ∀ (s : State) (w : CmdWord) (rest : List CmdWord), s.port = w :: rest →
    (decode w = none →
      step s = .next { s.envSlot with port := rest, st := 12, res := 0 }) ∧
    (∀ i, decode w = some i →
      (s.internal.halt ≠ 0 →
        step s = .next { s.envSlot with
          port := rest, st := 15, res := s.internal.halt.setWidth 32 }) ∧
      (s.internal.halt = 0 → permitted i s = false →
        step s = .next { s.envSlot with port := rest, st := 13, res := 0 }))

/-- R203: what each command needs of `intc_ready`, `tmr_ready` and `ctx`. -/
def Obligations.PermittedIsTheTableOfR203 : Prop :=
  ∀ s : State,
    (∀ b, permitted (.init b) s = true ↔ s.internal.intcReady = false ∧ s.internal.ctx = []) ∧
    (∀ l b, permitted (.tinit l b) s = true ↔
      s.internal.tmrReady = false ∧ s.internal.ctx = []) ∧
    (∀ i : Instr, i ∈ [Instr.rdg .vector, .rdg .protect, .rdg .nmiType] ∨
        (∃ k b, i = .rd k b ∨ ∃ v, i = .wr k b v) ∨ (∃ g v, i = .wrg g v) ∨
        (∃ n, i = .ack n ∨ i = .mask n ∨ i = .unmask n ∨ i = .lack n ∨ i = .lmask n ∨
          i = .lunmask n ∨ i = .resolve n ∨ i = .install n) →
      (permitted i s = true ↔ s.internal.intcReady = true)) ∧
    (permitted .irqEntry s = true ↔ s.internal.intcReady = true ∧ s.internal.ctx = []) ∧
    (permitted .dispatchRet s = true ↔ s.internal.ctx.getLast? = some .dispatch) ∧
    (∀ i : Instr, i ∈ [Instr.getmin, .getmax] ∨
        (∃ n, i = .setNextEvent n ∨ i = .ns2t n ∨ i = .t2ns n) ∨ (∃ m, i = .setMode m) →
      (permitted i s = true ↔ s.internal.tmrReady = true)) ∧
    (permitted .timerIrq s = true ↔
      s.internal.tmrReady = true ∧ Ctx.tick ∉ s.internal.ctx) ∧
    (permitted .tickRet s = true ↔ s.internal.ctx.getLast? = some .tick)

/-- R204: the contract violations are faults, where the prologue lets the command through. -/
def Obligations.ContractViolationsFault : Prop :=
  (∀ (s : State) (n : Word), IntcRunning s → 96 ≤ n.toNat →
    exec (.ack n) s = .fault (.contract .ack n) ∧
    exec (.mask n) s = .fault (.contract .mask n) ∧
    exec (.unmask n) s = .fault (.contract .unmask n) ∧
    exec (.resolve n) s = .fault (.contract .resolve n)) ∧
  (∀ (s : State) (d : Word), TmrRunning s → d.toNat = 0 ∨ 256 ≤ d.toNat →
    exec (.setNextEvent d) s = .fault (.contract .setNextEvent d))

/-- R204: a contract violation is the only way a command stops. -/
def Obligations.OnlyContractViolationsStop : Prop :=
  ∀ (i : Instr) (s : State),
    (∀ r, exec i s ≠ .refused r) ∧
    (∀ f, exec i s = .fault f → ∃ v : Word,
      (96 ≤ v.toNat ∧
        (i = .ack v ∧ f = .contract .ack v ∨ i = .mask v ∧ f = .contract .mask v ∨
         i = .unmask v ∧ f = .contract .unmask v ∨ i = .resolve v ∧ f = .contract .resolve v)) ∨
      ((v.toNat = 0 ∨ 256 ≤ v.toNat) ∧ i = .setNextEvent v ∧ f = .contract .setNextEvent v))

/-! ### Register access -/

/-- R14, R129: base plus fixed offset, modulo 2^32; from a mappable base (R73) the sum does not wrap. -/
def Obligations.RegisterAddressesAreBasePlusOffset : Prop :=
  ∀ s : State,
    s.addrOf .vector = s.internal.intcBase + s.cfg.offVector ∧
    s.addrOf .protect = s.internal.intcBase + s.cfg.offProtect ∧
    s.addrOf .nmiType = s.internal.intcBase + s.cfg.offNmiType ∧
    s.addrOf .tIrqst = s.internal.tmrBase + s.cfg.offTIrqst ∧
    s.addrOf .tCtl = s.internal.tmrBase + s.cfg.offTCtl ∧
    s.addrOf .tIntv = s.internal.tmrBase + s.cfg.offTIntv ∧
    s.addrOf .tCnt = s.internal.tmrBase + s.cfg.offTCnt ∧
    (∀ b : Bank, ∀ k : Nat, (b = .b0 ∧ k = 0) ∨ (b = .b1 ∧ k = 1) ∨ (b = .b2 ∧ k = 2) →
      s.addrOf (.banked .pending b) =
        s.internal.intcBase + s.cfg.offPending + BitVec.ofNat 32 (4 * k) ∧
      s.addrOf (.banked .enable b) =
        s.internal.intcBase + s.cfg.offEnable + BitVec.ofNat 32 (4 * k) ∧
      s.addrOf (.banked .mask b) =
        s.internal.intcBase + s.cfg.offMask + BitVec.ofNat 32 (4 * k)) ∧
    (mappable s .intc s.internal.intcBase = true →
      (s.addrOf .vector).toNat = s.internal.intcBase.toNat + s.cfg.offVector.toNat ∧
      (s.addrOf .protect).toNat = s.internal.intcBase.toNat + s.cfg.offProtect.toNat ∧
      (s.addrOf .nmiType).toNat = s.internal.intcBase.toNat + s.cfg.offNmiType.toNat ∧
      ∀ b : Bank, ∀ k : Nat, (b = .b0 ∧ k = 0) ∨ (b = .b1 ∧ k = 1) ∨ (b = .b2 ∧ k = 2) →
        (s.addrOf (.banked .pending b)).toNat =
          s.internal.intcBase.toNat + s.cfg.offPending.toNat + 4 * k ∧
        (s.addrOf (.banked .enable b)).toNat =
          s.internal.intcBase.toNat + s.cfg.offEnable.toNat + 4 * k ∧
        (s.addrOf (.banked .mask b)).toNat =
          s.internal.intcBase.toNat + s.cfg.offMask.toNat + 4 * k) ∧
    (mappable s .tmr s.internal.tmrBase = true →
      (s.addrOf .tIrqst).toNat = s.internal.tmrBase.toNat + s.cfg.offTIrqst.toNat ∧
      (s.addrOf .tCtl).toNat = s.internal.tmrBase.toNat + s.cfg.offTCtl.toNat ∧
      (s.addrOf .tIntv).toNat = s.internal.tmrBase.toNat + s.cfg.offTIntv.toNat ∧
      (s.addrOf .tCnt).toNat = s.internal.tmrBase.toNat + s.cfg.offTCnt.toNat)

/-- R130: RD returns the register and changes no register. -/
def Obligations.RdReturnsTheRegister : Prop :=
  ∀ (s : State) (k : Kind) (b : Bank), IntcRunning s →
    ∃ v : Word,
      (k = .pending → v = s.envSlot.mmio.pending.get b) ∧
      (k = .enable → v = s.mmio.enable.get b) ∧
      (k = .mask → v = s.mmio.mask.get b) ∧
      exec (.rd k b) s = .next { s.envSlot with
        res := v, st := 0, trace := s.trace ++ [.busRead (s.addrOf (.banked k b)) v] }

/-- R131: WR stores in ENABLE and MASK and clears in PENDING, in one bank of one kind. -/
def Obligations.WrFollowsTheWriteRuleOfItsKind : Prop :=
  ∀ (s : State) (b : Bank) (v : Word), IntcRunning s →
    exec (.wr .pending b v) s = .next { s.envSlot with
      mmio := { s.envSlot.mmio with
        pending := s.envSlot.mmio.pending.set b (s.envSlot.mmio.pending.get b &&& ~~~v) }
      res := 0, st := 0
      trace := s.trace ++ [.busWrite (s.addrOf (.banked .pending b)) v] } ∧
    exec (.wr .enable b v) s = .next { s.envSlot with
      mmio := { s.envSlot.mmio with enable := s.mmio.enable.set b v }
      res := 0, st := 0
      trace := s.trace ++ [.busWrite (s.addrOf (.banked .enable b)) v] } ∧
    exec (.wr .mask b v) s = .next { s.envSlot with
      mmio := { s.envSlot.mmio with mask := s.mmio.mask.set b v }
      res := 0, st := 0
      trace := s.trace ++ [.busWrite (s.addrOf (.banked .mask b)) v] }

/-- The frame of WR and WRG by byte: every byte of the two windows outside the four bytes of the
register written is what it was (R75's little-endian byte view, R77, R131, R133). -/
def Obligations.WritesChangeNoOtherByte : Prop :=
  ∀ (s t : State) (i : Instr) (r : Reg) (v : Word),
    ((∃ k b, i = .wr k b v ∧ r = .banked k b) ∨ (i = .wrg .protect v ∧ r = .protect) ∨
      (i = .wrg .nmiType v ∧ r = .nmiType)) →
    IntcRunning s → exec i s = .next t →
    ∀ a : Word, 4 ≤ (a - s.addrOf r).toNat → t.byteAt a = s.envSlot.byteAt a

/-- R132: RDG returns the register; VECTOR with a candidate is a candidate line times 4, with none a free
value (log entry 12; the draw counter is the model's own, log entry 25); a read acknowledges nothing. -/
def Obligations.RdgReturnsTheGlobalRegister : Prop :=
  ∀ s : State, IntcRunning s →
    exec (.rdg .protect) s = .next { s.envSlot with
      res := s.mmio.protect, st := 0
      trace := s.trace ++ [.busRead (s.addrOf .protect) s.mmio.protect] } ∧
    exec (.rdg .nmiType) s = .next { s.envSlot with
      res := s.mmio.nmiType, st := 0
      trace := s.trace ++ [.busRead (s.addrOf .nmiType) s.mmio.nmiType] } ∧
    ∃ v : Word,
      exec (.rdg .vector) s = .next { s.envSlot with
        res := v, st := 0, freeCount := s.freeCount + 1
        trace := s.trace ++ [.busRead (s.addrOf .vector) v] } ∧
      ((∃ n : Line, s.envSlot.mmio.pending.line n = true ∧ s.mmio.enable.line n = true ∧
          s.mmio.mask.line n = false) →
        ∃ n : Line, s.envSlot.mmio.pending.line n = true ∧ s.mmio.enable.line n = true ∧
          s.mmio.mask.line n = false ∧ v.toNat = 4 * n.val)

/-- R25 and D7 with the default `Arb` (`arbTable = []`, log entry 8): VECTOR names the lowest candidate
line. -/
def Obligations.DefaultArbitrationIsLowestLineFirst : Prop :=
  ∀ (s : State) (n : Line), s.cfg.arbTable = [] → s.mmio.isCand n = true →
    (∀ m : Line, s.mmio.isCand m = true → n ≤ m) → s.vectorValue.toNat = 4 * n.val

/-- R133: WRG stores the value; the term that writes VECTOR is no command and does what an illegal word
does (log entry 18). -/
def Obligations.WrgStoresTheValue : Prop :=
  (∀ (s : State) (v : Word), IntcRunning s →
    exec (.wrg .protect v) s = .next { s.envSlot with
      mmio := { s.envSlot.mmio with protect := v }
      res := 0, st := 0, trace := s.trace ++ [.busWrite (s.addrOf .protect) v] } ∧
    exec (.wrg .nmiType v) s = .next { s.envSlot with
      mmio := { s.envSlot.mmio with nmiType := v }
      res := 0, st := 0, trace := s.trace ++ [.busWrite (s.addrOf .nmiType) v] }) ∧
  (∀ (s : State) (v : Word), exec (.wrg .vector v) s = .next { s with st := 12, res := 0 })

/-- R74, R76, R77: the raw bus reaches each register of the controller at its address, takes no step at
another address, another size or a misaligned address, and writes no VECTOR. Where the windows overlap,
which R73 forbids, that the controller's register is found is the model's choice (log entry 11). -/
def Obligations.RawBusReachesExactlyTheRegisters : Prop :=
  ∀ s : State, s.cfg.Admissible → s.internal.intcReady = true →
    s.internal.intcBase.toNat % 4 = 0 →
    (∀ r ∈ Reg.intcAll, memRead (s.addrOf r) 4 s = some (readValue r s, afterRead r s)) ∧
    (∀ r ∈ Reg.intcAll, r ≠ .vector → ∀ v,
      memWrite (s.addrOf r) 4 v s = some (busWrite r v s)) ∧
    (∀ v, memWrite (s.addrOf .vector) 4 v s = none) ∧
    (∀ a n v, n ≠ 4 ∨ a.toNat % 4 ≠ 0 → memRead a n s = none ∧ memWrite a n v s = none) ∧
    (∀ a n v, (∀ r ∈ s.mappedRegs, s.addrOf r ≠ a) →
      memRead a n s = none ∧ memWrite a n v s = none)

/-- R31, R76, R77: the raw bus reaches each register of the timer at its address (where the windows do
not overlap, R73): T_IRQST reads TPEND below zeros and a write clears TPEND exactly when its bit 0 is 1;
T_CTL, T_INTV and T_CNT are plain storage. -/
def Obligations.RawBusReachesTheTimersRegisters : Prop :=
  ∀ s : State, s.cfg.Admissible → s.internal.tmrReady = true →
    s.internal.tmrBase.toNat % 4 = 0 →
    (s.internal.intcReady = true →
      ∀ q ∈ Reg.intcAll, ∀ r ∈ Reg.tmrAll, s.addrOf q ≠ s.addrOf r) →
    (∀ r ∈ Reg.tmrAll, ∃ v : Word,
      memRead (s.addrOf r) 4 s =
        some (v, { s.envSlot with trace := s.trace ++ [.busRead (s.addrOf r) v] }) ∧
      (r = .tIrqst → v.toNat = if s.envSlot.mmio.tpend then 1 else 0) ∧
      (r = .tCtl → v = s.envSlot.mmio.tCtl) ∧ (r = .tIntv → v = s.envSlot.mmio.tIntv) ∧
      (r = .tCnt → v = s.envSlot.mmio.tCnt)) ∧
    (∀ v : Word,
      memWrite (s.addrOf .tIrqst) 4 v s = some { s.envSlot with
        mmio := { s.envSlot.mmio with tpend := s.envSlot.mmio.tpend && decide (v.toNat % 2 = 0) }
        trace := s.trace ++ [.busWrite (s.addrOf .tIrqst) v] } ∧
      memWrite (s.addrOf .tCtl) 4 v s = some { s.envSlot with
        mmio := { s.envSlot.mmio with tCtl := v }
        trace := s.trace ++ [.busWrite (s.addrOf .tCtl) v] } ∧
      memWrite (s.addrOf .tIntv) 4 v s = some { s.envSlot with
        mmio := { s.envSlot.mmio with tIntv := v }
        trace := s.trace ++ [.busWrite (s.addrOf .tIntv) v] } ∧
      memWrite (s.addrOf .tCnt) 4 v s = some { s.envSlot with
        mmio := { s.envSlot.mmio with tCnt := v }
        trace := s.trace ++ [.busWrite (s.addrOf .tCnt) v] })

/-! ### Line control -/

/-- R140, with the contract of R143: a line below 96 completes, any other operand is the fault. -/
def Obligations.AckClearsExactlyItsPendingBit : Prop :=
  ∀ (s : State) (w : Word), IntcRunning s →
    (∀ n : Line, w.toNat = n.val → ∃ t, exec (.ack w) s = .next t ∧ AckEffect n s t) ∧
    (96 ≤ w.toNat → exec (.ack w) s = .fault (.contract .ack w))

/-- R141, with the contract of R143: a line below 96 completes, any other operand is the fault. -/
def Obligations.MaskClearsExactlyItsEnableBit : Prop :=
  ∀ (s : State) (w : Word), IntcRunning s →
    (∀ n : Line, w.toNat = n.val → ∃ t, exec (.mask w) s = .next t ∧ MaskEffect n s t) ∧
    (96 ≤ w.toNat → exec (.mask w) s = .fault (.contract .mask w))

/-- R142, with the contract of R143: a line below 96 completes, any other operand is the fault. -/
def Obligations.UnmaskSetsItsEnableBitAndAcknowledgesLineZero : Prop :=
  ∀ (s : State) (w : Word), IntcRunning s →
    (∀ n : Line, w.toNat = n.val → ∃ t, exec (.unmask w) s = .next t ∧ UnmaskEffect n s t) ∧
    (96 ≤ w.toNat → exec (.unmask w) s = .fault (.contract .unmask w))

/-- R144 to R146: the commands by identifier do what the commands by line do. -/
def Obligations.IdentifierCommandsActOnTheirLine : Prop :=
  ∀ (s : State) (id : Word) (n : Line), Inv s → IntcRunning s →
    s.internal.map[n] = some id → s.internal.isBound n = true →
    (∃ t, exec (.lack id) s = .next t ∧ AckEffect n s t) ∧
    (∃ t, exec (.lmask id) s = .next t ∧ MaskEffect n s t) ∧
    (∃ t, exec (.lunmask id) s = .next t ∧ UnmaskEffect n s t)

/-- R144 to R146, R152: an identifier with no line, or (but for INSTALL) with no operations installed,
answers X_UNBOUND with no bus access and no other change. -/
def Obligations.UnboundIdentifiersAreRefused : Prop :=
  ∀ (s : State) (id : Word), IntcRunning s →
    ((∀ n : Line, s.internal.map[n] = some id → s.internal.isBound n = false) →
      exec (.lack id) s = .next { s with st := 14, res := id } ∧
      exec (.lmask id) s = .next { s with st := 14, res := id } ∧
      exec (.lunmask id) s = .next { s with st := 14, res := id }) ∧
    ((∀ n : Line, s.internal.map[n] ≠ some id) →
      exec (.install id) s = .next { s with st := 14, res := id })

/-- R147: bit isolation of MASK n ; UNMASK n. -/
def Obligations.MaskThenUnmaskIsolatesTheLine : Prop :=
  ∀ (s : State) (w : Word) (n : Line), IntcRunning s → w.toNat = n.val →
    ∃ s' t, exec (.mask w) s = .next s' ∧ exec (.unmask w) s' = .next t ∧
      t.mmio.enable.line n = true ∧
      (∀ m : Line, m ≠ n → t.mmio.enable.line m = s.mmio.enable.line m) ∧
      t.mmio.mask = s.mmio.mask ∧
      (n.val ≠ 0 → t.mmio.pending = (s.envSlots 4).mmio.pending) ∧
      (n.val = 0 → ∀ m : Line, t.mmio.pending.line m =
        ((s.envSlots 5).mmio.pending.line m && decide (m.val ≠ 0)))

/-! ### The domain and the entry handler -/

/-- R150: the controller reset sequence. A line pending afterwards was raised after its bank's clearing
write (the 7th, 8th or 9th of the eleven). -/
def Obligations.InitResetsTheController : Prop :=
  ∀ (s : State) (base : Word), s.internal.halt = 0 → s.internal.intcReady = false →
    s.internal.ctx = [] → mappable s .intc base = true →
    ∃ t, exec (.init base) s = .next t ∧
      t.mmio.enable = ⟨0, 0, 0⟩ ∧ t.mmio.mask = ⟨0, 0, 0⟩ ∧
      t.mmio.protect = 1 ∧ t.mmio.nmiType = 0 ∧
      (∀ n : Line, t.mmio.pending.line n = true →
        ∃ slot ∈ (s.env.take 11).drop (7 + n.val / 32), EnvStep.lineRaise n ∈ slot) ∧
      t.mmio.tCtl = (s.envSlots 11).mmio.tCtl ∧ t.mmio.tIntv = s.mmio.tIntv ∧
      t.mmio.tCnt = (s.envSlots 11).mmio.tCnt ∧ t.mmio.tpend = (s.envSlots 11).mmio.tpend ∧
      t.internal = { s.internal with intcBase := base, intcReady := true } ∧
      t.trace = s.trace ++
        [.busWrite (base + s.cfg.offEnable) 0, .busWrite (base + (s.cfg.offEnable + 4)) 0,
         .busWrite (base + (s.cfg.offEnable + 8)) 0,
         .busWrite (base + s.cfg.offMask) 0, .busWrite (base + (s.cfg.offMask + 4)) 0,
         .busWrite (base + (s.cfg.offMask + 8)) 0,
         .busWrite (base + s.cfg.offPending) 0xFFFFFFFF,
         .busWrite (base + (s.cfg.offPending + 4)) 0xFFFFFFFF,
         .busWrite (base + (s.cfg.offPending + 8)) 0xFFFFFFFF,
         .busWrite (base + s.cfg.offProtect) 1, .busWrite (base + s.cfg.offNmiType) 0] ∧
      Responded s 11 0 0 t

/-- R150, R165, R209, R210: an unmappable base, and for TINIT then a line above 95, latches the halt
code and changes nothing else but ST and RES. R71 to R73: a base is unmappable where it is misaligned or
its window, of 0x60 or 0x1C bytes at the defaults, wraps past 2^32; that one whose window has an address
of the other window is unmappable too is the model's choice (log entry 11). -/
def Obligations.FatalBringUpErrorsLatchHalt : Prop :=
  (∀ (s : State) (base : Word), s.internal.halt = 0 → s.internal.intcReady = false →
    s.internal.ctx = [] → mappable s .intc base = false →
    exec (.init base) s = .next { s with
      internal := { s.internal with halt := 8 }, st := 8, res := base }) ∧
  (∀ (s : State) (line : BitVec 8) (base : Word), s.internal.halt = 0 →
    s.internal.tmrReady = false → s.internal.ctx = [] →
    (mappable s .tmr base = false →
      exec (.tinit line base) s = .next { s with
        internal := { s.internal with halt := 8 }, st := 8, res := base }) ∧
    (mappable s .tmr base = true → 96 ≤ line.toNat →
      exec (.tinit line base) s = .next { s with
        internal := { s.internal with halt := 9 }, st := 9, res := line.setWidth 32 })) ∧
  (∀ (s : State) (w : Window) (base : Word),
    base.toNat % 4 ≠ 0 ∨ 2 ^ 32 < base.toNat + windowSize s.cfg w → mappable s w base = false) ∧
  (∀ (s : State) (base : Word) (a : Nat), s.internal.tmrReady = true →
    base.toNat ≤ a → a < base.toNat + windowSize s.cfg .intc →
    s.internal.tmrBase.toNat ≤ a → a < s.internal.tmrBase.toNat + windowSize s.cfg .tmr →
    mappable s .intc base = false) ∧
  (∀ (s : State) (base : Word) (a : Nat), s.internal.intcReady = true →
    base.toNat ≤ a → a < base.toNat + windowSize s.cfg .tmr →
    s.internal.intcBase.toNat ≤ a → a < s.internal.intcBase.toNat + windowSize s.cfg .intc →
    mappable s .tmr base = false) ∧
  windowSize Params.default .intc = 0x60 ∧ windowSize Params.default .tmr = 0x1C

/-- R151, R155, R157: RESOLVE answers the identifier of the line, making one that is not 0 and belongs
to no line; a second RESOLVE answers the same and changes nothing. -/
def Obligations.ResolveGivesEachLineOneIdentifier : Prop :=
  ∀ (s : State) (w : Word) (n : Line), IntcRunning s → w.toNat = n.val →
    (s.internal.map[n].isSome = true ∨ s.internal.nmapped.toNat ≠ 96 →
      ∃ id t, exec (.resolve w) s = .next t ∧
        ResolvesTo s.internal n id t.internal ∧
        t = { s with internal := t.internal, res := id, st := 0 } ∧
        exec (.resolve w) t = .next t) ∧
    (s.internal.map[n] = none → s.internal.nmapped.toNat = 96 →
      exec (.resolve w) s = .next { s with
        internal := { s.internal with halt := 10 }, st := 10, res := BitVec.ofNat 32 n.val })

/-- R156: F_DOMAIN_FULL cannot happen: a line without identifier finds at most 95 entries in the table,
and no command answers the code or latches it. -/
def Obligations.NoCommandFindsTheTableFull : Prop :=
  (∀ (s : State) (n : Line), Inv s → s.internal.map[n] = none → s.internal.nmapped.toNat ≤ 95) ∧
  (∀ (i : Instr) (s t : State), Inv s → exec i s = .next t → t.st ≠ 10 ∧ t.internal.halt ≠ 10)

/-- R152: INSTALL binds the line of the identifier and no other, and answers the line. -/
def Obligations.InstallBindsTheLineOfTheIdentifier : Prop :=
  ∀ (s : State) (id : Word) (n : Line), Inv s → IntcRunning s → s.internal.map[n] = some id →
    ∃ t, exec (.install id) s = .next t ∧
      (∀ m : Line, t.internal.isBound m = (s.internal.isBound m || decide (m = n))) ∧
      t = { s with
        internal := { s.internal with bound := t.internal.bound }
        res := BitVec.ofNat 32 n.val, st := 0 }

/-- R153, for every value the vector read may return: a value that names a line (v >> 2 <= 95) is
resolved and dispatched, any other is logged and dispatched as NO_IRQ. -/
def Obligations.EveryVectorValueIsDispatchedOnce : Prop :=
  ∀ (s : State) (v : Word),
    (∀ n : Line, v.toNat / 4 = n.val →
      s.internal.map[n].isSome = true ∨ s.internal.nmapped.toNat ≠ 96 →
      ∃ id r, ResolvesTo s.internal n id r ∧
        dispatchVector v s = .next { s with
          internal := { r with ctx := s.internal.ctx ++ [.dispatch] }
          trace := s.trace ++ [.dispatch id], res := id, st := 0 }) ∧
    (96 ≤ v.toNat / 4 →
      dispatchVector v s = .next { s with
        internal := { s.internal with ctx := s.internal.ctx ++ [.dispatch] }
        trace := s.trace ++ [.log 1, .dispatch 0], res := 0, st := 1 })

/-- R153: IRQ_ENTRY reads VECTOR once, acknowledges and masks nothing, pushes DISPATCH and dispatches
exactly once: with a candidate, the identifier of a candidate line; with none, whatever line the value
read names, or NO_IRQ with E_SPURIOUS. -/
def Obligations.IrqEntryDispatchesExactlyOnce : Prop :=
  ∀ s : State, Inv s → IntcRunning s → s.internal.ctx = [] →
    ∃ v id t, exec .irqEntry s = .next t ∧
      t.mmio = s.envSlot.mmio ∧ t.internal.ctx = [.dispatch] ∧ t.res = id ∧
      t.env = s.env.drop 1 ∧ t.port = s.port ∧ t.cfg = s.cfg ∧
      ((∃ n : Line, v.toNat / 4 = n.val ∧ t.st = 0 ∧
          t.trace = s.trace ++ [.busRead (s.addrOf .vector) v, .dispatch id] ∧
          ResolvesTo s.internal n id { t.internal with ctx := [] } ∧
          ((∃ m : Line, s.envSlot.mmio.isCand m = true) → s.envSlot.mmio.isCand n = true)) ∨
       (96 ≤ v.toNat / 4 ∧ id = 0 ∧ t.st = 1 ∧
          t.trace = s.trace ++ [.busRead (s.addrOf .vector) v, .log 1, .dispatch 0] ∧
          t.internal = { s.internal with ctx := [.dispatch] } ∧
          ∀ m : Line, s.envSlot.mmio.isCand m = false))

/-- R154, R178, R223: the returns pop the context and change nothing else but ST and RES. -/
def Obligations.ReturnsPopTheContextOnly : Prop :=
  ∀ (s : State) (below : List Ctx), s.internal.halt = 0 →
    (s.internal.ctx = below ++ [.dispatch] →
      exec .dispatchRet s = .next { s with
        internal := { s.internal with ctx := below }, st := 0, res := 0 }) ∧
    (s.internal.ctx = below ++ [.tick] →
      exec .tickRet s = .next { s with
        internal := { s.internal with ctx := below }, st := 0, res := 0 })

/-! ### The timer commands -/

/-- R165: what TINIT latches; no bus access and no change of any register of the windows. A bound 32 bits
cannot hold is a free value (log entry 13), and nothing is said of it. -/
def Obligations.TinitLatchesTheTimerState : Prop :=
  ∀ (s : State) (line : BitVec 8) (base : Word), s.cfg.Admissible → s.internal.halt = 0 →
    s.internal.tmrReady = false → s.internal.ctx = [] → mappable s .tmr base = true →
    line.toNat ≤ 95 →
    ∃ (t : State) (mult : Nat), exec (.tinit line base) s = .next t ∧
      mult = 2 ^ 32 * s.cfg.refRate / (s.cfg.prescale * 10 ^ 9) ∧
      t.internal.tmrBase = base ∧ t.internal.timerLine.toNat = line.toNat ∧
      t.internal.mult.toNat = mult ∧
      ((1 * 2 ^ 32 + mult - 1) / mult < 2 ^ 32 →
        t.internal.minNs.toNat = (1 * 2 ^ 32 + mult - 1) / mult) ∧
      ((255 * 2 ^ 32 + mult - 1) / mult < 2 ^ 32 →
        t.internal.maxNs.toNat = (255 * 2 ^ 32 + mult - 1) / mult) ∧
      t.internal.mode = .disabled ∧ t.internal.tmrReady = true ∧
      t.internal = { s.internal with
        tmrBase := t.internal.tmrBase, timerLine := t.internal.timerLine
        mult := t.internal.mult, minNs := t.internal.minNs, maxNs := t.internal.maxNs
        mode := t.internal.mode, tmrReady := t.internal.tmrReady } ∧
      t.res.toNat = mult ∧ t.st = 0 ∧
      t.mmio = s.mmio ∧ t.trace = s.trace ∧ t.env = s.env ∧ t.port = s.port ∧ t.cfg = s.cfg

/-- R166 to R169: the three transitions, whatever `mode` is, and the accesses of each in order. -/
def Obligations.SetModeRunsTheRequestedTransition : Prop :=
  ∀ s : State, TmrRunning s →
    (∃ t, exec (.setMode .periodic) s = .next t ∧
      t.internal = { s.internal with mode := .periodic } ∧ Responded s 3 0 0 t ∧
      ∀ iv : Word, iv = BitVec.ofNat 32 (s.cfg.refRate / (s.cfg.prescale * s.cfg.hz)) →
      ∀ s2 : State, s2 = State.envSlot
        { s.envSlot with mmio := { s.envSlot.mmio with tIntv := iv } } →
        t.mmio = { s2.envSlot.mmio with tCtl := (s2.mmio.tCtl &&& ~~~0x80#32) ||| 0x01#32 } ∧
        t.trace = s.trace ++ [.busWrite (s.addrOf .tIntv) iv,
          .busRead (s.addrOf .tCtl) s2.mmio.tCtl,
          .busWrite (s.addrOf .tCtl) ((s2.mmio.tCtl &&& ~~~0x80#32) ||| 0x01#32)]) ∧
    (∃ t, exec (.setMode .oneshot) s = .next t ∧
      t.internal = { s.internal with mode := .oneShot } ∧ Responded s 2 0 0 t ∧
      t.mmio = { (s.envSlots 2).mmio with tCtl := s.envSlot.mmio.tCtl ||| 0x80#32 } ∧
      t.trace = s.trace ++ [.busRead (s.addrOf .tCtl) s.envSlot.mmio.tCtl,
        .busWrite (s.addrOf .tCtl) (s.envSlot.mmio.tCtl ||| 0x80#32)]) ∧
    (∀ m : ModeReq, m = .disabled ∨ m = .unused →
      ∃ t, exec (.setMode m) s = .next t ∧
        t.internal = { s.internal with mode := .disabled } ∧ Responded s 2 0 0 t ∧
        t.mmio = { (s.envSlots 2).mmio with tCtl := s.envSlot.mmio.tCtl &&& ~~~0x01#32 } ∧
        t.trace = s.trace ++ [.busRead (s.addrOf .tCtl) s.envSlot.mmio.tCtl,
          .busWrite (s.addrOf .tCtl) (s.envSlot.mmio.tCtl &&& ~~~0x01#32)])

/-- R171, R185: under the constraints of R9 and D24 the interval is at least 1 and fits T_INTV, and
the multiplier is at least 1 and fits MULT. -/
def Obligations.AdmissibleRatesFitTheirRegisters : Prop :=
  ∀ p : Params, p.Admissible →
    1 ≤ p.refRate / (p.prescale * p.hz) ∧ p.refRate / (p.prescale * p.hz) < 2 ^ 32 ∧
    1 ≤ 2 ^ 32 * p.refRate / (p.prescale * 10 ^ 9) ∧
    2 ^ 32 * p.refRate / (p.prescale * 10 ^ 9) < 2 ^ 32

/-- R251 (b): an expiry inside the window of SET_MODE ONESHOT is undone in the register; the requests
that force EN are not affected by any schedule. -/
def Obligations.ReadModifyWriteWindowsOfTCtl : Prop :=
  (∀ (s : State) (rest : List (List EnvStep)), TmrRunning s →
    s.env = [] :: [.timerExpire] :: rest →
    s.mmio.en = true → s.mmio.single = true → s.mmio.tCnt = 0 →
    ∃ t, exec (.setMode .oneshot) s = .next t ∧
      t.mmio.en = true ∧ t.mmio.tpend = true ∧ t.mmio.tCnt = 0 ∧
      envEnabled t.internal t.mmio .timerExpire = true) ∧
  (∀ (s t : State), TmrRunning s → exec (.setMode .periodic) s = .next t →
    t.mmio.en = true ∧ t.mmio.single = false) ∧
  (∀ (s t : State) (d : Word), TmrRunning s → exec (.setNextEvent d) s = .next t →
    t.mmio.en = true ∧ t.mmio.reload = true) ∧
  (∀ (s t : State), TmrRunning s → exec (.setMode .disabled) s = .next t → t.mmio.en = false)

/-- R175: SET_NEXT_EVENT writes the count, then reads T_CTL and writes it with RELOAD and EN set, in
every mode; `mode` and all of the core's own state are unchanged. -/
def Obligations.SetNextEventArmsTheTimer : Prop :=
  ∀ (s : State) (d : Word), TmrRunning s →
    (1 ≤ d.toNat → d.toNat ≤ 255 →
      ∃ t, exec (.setNextEvent d) s = .next t ∧ t.internal = s.internal ∧ Responded s 3 0 0 t ∧
        ∀ s2 : State, s2 = State.envSlot
          { s.envSlot with mmio := { s.envSlot.mmio with tCnt := d } } →
          t.mmio = { s2.envSlot.mmio with tCtl := s2.mmio.tCtl ||| 0x03#32 } ∧
          t.trace = s.trace ++ [.busWrite (s.addrOf .tCnt) d,
            .busRead (s.addrOf .tCtl) s2.mmio.tCtl,
            .busWrite (s.addrOf .tCtl) (s2.mmio.tCtl ||| 0x03#32)]) ∧
    (d.toNat = 0 ∨ 256 ≤ d.toNat →
      exec (.setNextEvent d) s = .fault (.contract .setNextEvent d))

/-- R180: no accumulation. After two requests with no timer step scheduled after the last write of
T_CNT (the 4th access), the count is the second request's. -/
def Obligations.SecondEventOverwritesTheFirst : Prop :=
  ∀ (s : State) (d1 d2 : Word), TmrRunning s → 1 ≤ d1.toNat → d1.toNat ≤ 255 →
    1 ≤ d2.toNat → d2.toNat ≤ 255 →
    (∀ slot ∈ s.env.drop 4, ∀ e ∈ slot, e.isTimer = false) →
    ∃ s' t, exec (.setNextEvent d1) s = .next s' ∧ exec (.setNextEvent d2) s' = .next t ∧
      t.mmio.tCnt = d2 ∧ t.mmio.en = true

/-- R177: TIMER_IRQ writes 1 to T_IRQST, which clears TPEND, then pushes TICK and invokes the callback
of the timer instance of CPU 0; it acknowledges nothing at the controller. -/
def Obligations.TimerIrqAcknowledgesThenCallsBack : Prop :=
  ∀ s : State, TmrRunning s → Ctx.tick ∉ s.internal.ctx →
    exec .timerIrq s = .next { s.envSlot with
      mmio := { s.envSlot.mmio with tpend := false }
      internal := { s.internal with ctx := s.internal.ctx ++ [.tick] }
      trace := s.trace ++ [.busWrite (s.addrOf .tIrqst) 1, .tickCallback 0]
      st := 0, res := 0 }

/-! ### The nanosecond converter -/

/-- R186, R187: NS2T is the 64-bit product shifted right by 32. -/
def Obligations.Ns2tMultipliesAndShifts : Prop :=
  ∀ (s : State) (x : Word), TmrRunning s →
    ∃ r : Word, r.toNat = x.toNat * s.internal.mult.toNat / 2 ^ 32 ∧
      exec (.ns2t x) s = .next { s with res := r, st := 0 }

/-- R186, R188: T2NS is the ceiling of (ticks * 2^32) / MULT, saturated to 32 bits. -/
def Obligations.T2nsRoundsUpAndSaturates : Prop :=
  ∀ (s : State) (ticks : Word), TmrRunning s → s.internal.mult ≠ 0 →
    ∃ r : Word,
      r.toNat = min ((ticks.toNat * 2 ^ 32 + s.internal.mult.toNat - 1) / s.internal.mult.toNat)
        (2 ^ 32 - 1) ∧
      exec (.t2ns ticks) s = .next { s with res := r, st := 0 }

/-- R189, R190: the bounds as TINIT latched them. -/
def Obligations.BoundsAreReadBack : Prop :=
  ∀ s : State, TmrRunning s →
    exec .getmin s = .next { s with res := s.internal.minNs, st := 0 } ∧
    exec .getmax s = .next { s with res := s.internal.maxNs, st := 0 }

/-- R191: the conversions are monotone and the round trip is exact, for every multiplier. -/
def Obligations.TickRoundTripIsExact : Prop :=
  ∀ mult : Word, mult ≠ 0 →
    (∀ x y : Word, x ≤ y → Machine.ns2t mult x ≤ Machine.ns2t mult y) ∧
    (∀ a b : Nat, a ≤ b → Machine.t2ns mult.toNat a ≤ Machine.t2ns mult.toNat b) ∧
    (∀ t : Word, Machine.t2ns mult.toNat t.toNat < 2 ^ 32 →
      Machine.ns2t mult (BitVec.ofNat 32 (Machine.t2ns mult.toNat t.toNat)) = t ∧
      (1 ≤ t.toNat →
        Machine.ns2t mult (BitVec.ofNat 32 (Machine.t2ns mult.toNat t.toNat - 1)) = t - 1))

/-- R191, R176: a consumer that validates a delta in nanoseconds against GETMIN and GETMAX, converts it
with NS2T and programs the result never violates the contract of SET_NEXT_EVENT (where the greatest
bound fits 32 bits). -/
def Obligations.ValidatedDeltasAreAlwaysAccepted : Prop :=
  ∀ (s : State) (x : Word), Inv s → TmrRunning s →
    Machine.t2ns s.internal.mult.toNat 255 < 2 ^ 32 →
    ∃ smin smax, exec .getmin s = .next smin ∧ exec .getmax s = .next smax ∧
      (smin.res ≤ x → x ≤ smax.res →
        ∃ s' t, exec (.ns2t x) s = .next s' ∧ 1 ≤ s'.res.toNat ∧ s'.res.toNat ≤ 255 ∧
          exec (.setNextEvent s'.res) s' = .next t ∧ t.st = 0)

/-! ### The environment and the timer hardware -/

/-- R206, R214: LineRaise sets the pending bit of its line and changes nothing else, enabled or not;
the timer's own line is raised only while TPEND = 1. -/
def Obligations.LineRaiseLatchesItsLine : Prop :=
  ∀ (r : InternalRegs) (m : MmioRegs) (n : Line),
    (r.tmrReady = true → r.timerLine.toNat = n.val → m.tpend = true) →
    envEnabled r m (.lineRaise n) = true ∧
    (∀ k : Line, (envApply r m (.lineRaise n)).pending.line k =
      (m.pending.line k || decide (k = n))) ∧
    envApply r m (.lineRaise n) =
      { m with pending := (envApply r m (.lineRaise n)).pending }

/-- R214: with TPEND = 0 the timer's line is not raised (a scheduled raise is skipped: the model's choice,
log entry 5). -/
def Obligations.TimerLineWaitsForExpiry : Prop :=
  ∀ (r : InternalRegs) (m : MmioRegs) (n : Line), r.tmrReady = true →
    r.timerLine.toNat = n.val → m.tpend = false →
    envEnabled r m (.lineRaise n) = false ∧ envApply r m (.lineRaise n) = m

/-- R212, R213: when the timer hardware ticks and expires, and what each changes. -/
def Obligations.TimerTicksAndExpires : Prop :=
  ∀ (r : InternalRegs) (m : MmioRegs),
    (envEnabled r m .timerTick = true ↔ m.tCtl.getLsbD 0 = true ∧ m.tCnt ≠ 0) ∧
    (envEnabled r m .timerExpire = true ↔ m.tCtl.getLsbD 0 = true ∧ m.tCnt = 0) ∧
    (m.tCtl.getLsbD 0 = true → m.tCnt ≠ 0 →
      envApply r m .timerTick = { m with tCnt := m.tCnt - 1 }) ∧
    (m.tCtl.getLsbD 0 = true → m.tCnt = 0 →
      (m.tCtl.getLsbD 7 = true →
        envApply r m .timerExpire =
          { m with tpend := true, tCtl := m.tCtl &&& ~~~0x01#32 }) ∧
      (m.tCtl.getLsbD 7 = false →
        envApply r m .timerExpire = { m with tpend := true, tCnt := m.tIntv }))

/-- R212, R213: an armed timer fires after as many ticks as its count, and then either disarms itself
or loads the next period. -/
def Obligations.ArmedTimerFiresAfterItsCount : Prop :=
  ∀ (r : InternalRegs) (m : MmioRegs), m.en = true →
    ∀ m' : MmioRegs,
      m' = envRun r m (List.replicate m.tCnt.toNat .timerTick ++ [.timerExpire]) →
      m'.tpend = true ∧ m'.pending = m.pending ∧
      (m.single = true → m'.en = false ∧ m'.tCnt = 0) ∧
      (m.single = false → m'.en = true ∧ m'.tCnt = m.tIntv)

/-- R215, over infinite runs in which commands execute and their inputs are supplied step by step (the
model's form of a run, log entries 6 and 30): while EN = 1 at every moment, one of the timer's steps is
taken, whatever the commands are; and an armed timer expires where no SET_MODE and no SET_NEXT_EVENT is
taken any more. -/
def Obligations.FairArmedTimerExpires : Prop :=
  ∀ (s : Nat → State) (slots : Nat → List (List EnvStep)) (words : Nat → List CmdWord) (k : Nat),
    Run s slots words → TimerFair s →
    ((∀ i mo, (s k).history.length ≤ i → MomentAt s i mo → mo.regs.en = true) →
      ∃ i mo, (s k).history.length ≤ i ∧ MomentAt s i mo ∧
        (mo.taken = some .timerTick ∨ mo.taken = some .timerExpire)) ∧
    ((s k).mmio.en = true →
      (∀ j w, k ≤ j → ((s j).feed (slots j) (words j)).port.head? = some w →
        (∀ m, decode w ≠ some (.setMode m)) ∧ ∀ d, decode w ≠ some (.setNextEvent d)) →
      ∃ i mo mo', (s k).history.length ≤ i ∧ MomentAt s i mo ∧ mo.taken = some .timerExpire ∧
        MomentAt s (i + 1) mo' ∧ mo'.regs.tpend = true)

/-- R25, R49, R208: `irq_out` is 1 exactly when some line is pending, enabled and not masked. -/
def Obligations.IrqOutIffSomeCandidate : Prop :=
  ∀ s : State, s.irqOut = true ↔
    ∃ n : Line, s.mmio.pending.line n = true ∧ s.mmio.enable.line n = true ∧
      s.mmio.mask.line n = false

/-! ### The whole machine -/

/-- R50: the core's own state after hardware reset, for any values of the registers R50 leaves
unspecified. -/
def Obligations.ResetLeavesTheValuesOfR50 : Prop :=
  ∀ (cfg : Params) (m : MmioRegs) (b1 b2 : Word) (l : BitVec 7) (x y z : Word) (s : State),
    s = State.resetWith cfg m b1 b2 l x y z →
    s.mmio = m ∧ s.internal.intcBase = b1 ∧ s.internal.tmrBase = b2 ∧ s.internal.timerLine = l ∧
    s.internal.mult = x ∧ s.internal.minNs = y ∧ s.internal.maxNs = z ∧
    s.internal.intcReady = false ∧ s.internal.nmapped = 0 ∧
    (∀ n : Line, s.internal.map[n] = none ∧ s.internal.isBound n = false) ∧
    s.internal.tmrReady = false ∧ s.internal.mode = .disabled ∧ s.internal.ctx = [] ∧
    s.internal.halt = 0 ∧ s.res = 0 ∧ s.st = 0

/-- The invariant holds after hardware reset, for any values of the unspecified registers. -/
def Obligations.InvariantHoldsAfterReset : Prop :=
  (∀ (cfg : Params) (m : MmioRegs) (b1 b2 : Word) (l : BitVec 7) (x y z : Word),
    cfg.Admissible → Inv (State.resetWith cfg m b1 b2 l x y z)) ∧
  Inv State.reset

/-- Every step keeps the invariant: the table's bijection and count (R36), the bindings (R37), the
legal contexts (R41), the legal halt and status codes (R42, R200), the latched timer state (R165), and
windows that are mapped and do not overlap (R73). -/
def Obligations.EveryStepKeepsTheInvariant : Prop :=
  ∀ s t : State, Inv s → step s = .next t → Inv t

/-- R33, R36 (d), R37, R39: a mapping, a binding, a readiness bit, once made, stays; and no step changes
the configuration. -/
def Obligations.MappingsAndBindingsArePermanent : Prop :=
  ∀ s t : State, step s = .next t →
    (∀ (n : Line) (id : Word), s.internal.map[n] = some id → t.internal.map[n] = some id) ∧
    (∀ n : Line, s.internal.isBound n = true → t.internal.isBound n = true) ∧
    (s.internal.intcReady = true →
      t.internal.intcReady = true ∧ t.internal.intcBase = s.internal.intcBase) ∧
    (s.internal.tmrReady = true →
      t.internal.tmrReady = true ∧ t.internal.tmrBase = s.internal.tmrBase ∧
      t.internal.timerLine = s.internal.timerLine ∧ t.internal.mult = s.internal.mult ∧
      t.internal.minNs = s.internal.minNs ∧ t.internal.maxNs = s.internal.maxNs) ∧
    t.cfg = s.cfg

/-- R42, R210: a halted core stays halted; a step changes no state of the core and makes no bus access
and no event, and only the environment changes registers. -/
def Obligations.HaltedCoreStaysHalted : Prop :=
  ∀ s : State, s.internal.halt ≠ 0 →
    ∃ t, step s = .next t ∧ t.internal = s.internal ∧ t.trace = s.trace ∧
      t.mmio = s.envSlot.mmio

/-- R21: a pending bit is set by its line and never by a bus write: a line pending after a step was
pending before it, or is raised by the environment in a slot the step may take: one before the command
and at most eleven in it (the model's slots, log entry 4). -/
def Obligations.OnlyLineRaisesSetPendingBits : Prop :=
  ∀ (s t : State) (n : Line), step s = .next t → t.mmio.pending.line n = true →
    s.mmio.pending.line n = true ∨ ∃ slot ∈ s.env.take 12, EnvStep.lineRaise n ∈ slot

/-- R22, R23, R26, R27, R29: the only commands that write each of these registers; the environment
writes none of them. -/
def Obligations.RegistersAreWrittenByTheirCommandsOnly : Prop :=
  ∀ (i : Instr) (s t : State), exec i s = .next t →
    (t.mmio.enable ≠ s.mmio.enable →
      (∃ b v, i = .wr .enable b v) ∨ (∃ b, i = .init b) ∨
      ∃ v, i = .mask v ∨ i = .unmask v ∨ i = .lmask v ∨ i = .lunmask v) ∧
    (t.mmio.mask ≠ s.mmio.mask → (∃ b v, i = .wr .mask b v) ∨ ∃ b, i = .init b) ∧
    (t.mmio.protect ≠ s.mmio.protect → (∃ v, i = .wrg .protect v) ∨ ∃ b, i = .init b) ∧
    (t.mmio.nmiType ≠ s.mmio.nmiType → (∃ v, i = .wrg .nmiType v) ∨ ∃ b, i = .init b) ∧
    (t.mmio.tIntv ≠ s.mmio.tIntv → i = .setMode .periodic)

/-- R28, R30, R31: no command but SET_MODE, SET_NEXT_EVENT and TIMER_IRQ changes a timer register: what
happens to the timer under any other is what happens in that many slots without it. -/
def Obligations.OtherCommandsLeaveTheTimerAlone : Prop :=
  ∀ (i : Instr) (s t : State), exec i s = .next t →
    (∀ m, i ≠ .setMode m) → (∀ d, i ≠ .setNextEvent d) → i ≠ .timerIrq →
    ∃ k, k ≤ 11 ∧ t.mmio.tCtl = (s.envSlots k).mmio.tCtl ∧
      t.mmio.tIntv = (s.envSlots k).mmio.tIntv ∧ t.mmio.tCnt = (s.envSlots k).mmio.tCnt ∧
      t.mmio.tpend = (s.envSlots k).mmio.tpend

/-- R254, R168, R169, R213: a disarmed timer stays disarmed until SET_NEXT_EVENT or SET_MODE PERIODIC. -/
def Obligations.OnlyArmingCommandsArmTheTimer : Prop :=
  ∀ s t : State, step s = .next t → s.mmio.en = false → t.mmio.en = true →
    ∃ w rest, s.port = w :: rest ∧
      (decode w = some (.setMode .periodic) ∨ ∃ d, decode w = some (.setNextEvent d))

/-- R36, R170: `map` and `nmapped` are written by RESOLVE and IRQ_ENTRY only, `mode` by TINIT and
SET_MODE only. -/
def Obligations.TableAndModeAreWrittenByTheirCommandsOnly : Prop :=
  ∀ (i : Instr) (s t : State), exec i s = .next t →
    ((t.internal.map ≠ s.internal.map ∨ t.internal.nmapped ≠ s.internal.nmapped) →
      (∃ n, i = .resolve n) ∨ i = .irqEntry) ∧
    (t.internal.bound ≠ s.internal.bound → ∃ id, i = .install id) ∧
    (t.internal.mode ≠ s.internal.mode →
      (∃ l b, i = .tinit l b) ∨ ∃ m, i = .setMode m) ∧
    (t.internal.ctx ≠ s.internal.ctx →
      i = .irqEntry ∨ i = .dispatchRet ∨ i = .timerIrq ∨ i = .tickRet)
end

