-- ==== Sys2Proof/Laws/State.lean ====
section
/-!
SUPPORT. One lemma for each field of State (and, where an update writes the core's own state, of
InternalRegs) under each named update, so that no proof unfolds a record update.
-/
namespace Sys2Proof.Machine

/-! ### envSlot -/

@[simp] theorem envSlot_internal (s : State) :
    s.envSlot.internal = s.internal := rfl
@[simp] theorem envSlot_res (s : State) :
    s.envSlot.res = s.res := rfl
@[simp] theorem envSlot_st (s : State) :
    s.envSlot.st = s.st := rfl
@[simp] theorem envSlot_port (s : State) :
    s.envSlot.port = s.port := rfl
@[simp] theorem envSlot_env (s : State) :
    s.envSlot.env = s.env.tail := rfl
@[simp] theorem envSlot_trace (s : State) :
    s.envSlot.trace = s.trace := rfl
@[simp] theorem envSlot_freeCount (s : State) :
    s.envSlot.freeCount = s.freeCount := rfl
theorem envSlot_history (s : State) :
    s.envSlot.history =
      s.history ++ slotMoments s.internal s.mmio (s.env.headD []) := rfl
@[simp] theorem envSlot_cfg (s : State) :
    s.envSlot.cfg = s.cfg := rfl

/-! ### respond -/

@[simp] theorem respond_mmio (s : State) (e : Status) (v : Word) :
    (s.respond e v).mmio = s.mmio := rfl
@[simp] theorem respond_internal (s : State) (e : Status) (v : Word) :
    (s.respond e v).internal = s.internal := rfl
@[simp] theorem respond_res (s : State) (e : Status) (v : Word) :
    (s.respond e v).res = v := rfl
@[simp] theorem respond_st (s : State) (e : Status) (v : Word) :
    (s.respond e v).st = e.code := rfl
@[simp] theorem respond_port (s : State) (e : Status) (v : Word) :
    (s.respond e v).port = s.port := rfl
@[simp] theorem respond_env (s : State) (e : Status) (v : Word) :
    (s.respond e v).env = s.env := rfl
@[simp] theorem respond_trace (s : State) (e : Status) (v : Word) :
    (s.respond e v).trace = s.trace := rfl
@[simp] theorem respond_freeCount (s : State) (e : Status) (v : Word) :
    (s.respond e v).freeCount = s.freeCount := rfl
@[simp] theorem respond_history (s : State) (e : Status) (v : Word) :
    (s.respond e v).history = s.history := rfl
@[simp] theorem respond_cfg (s : State) (e : Status) (v : Word) :
    (s.respond e v).cfg = s.cfg := rfl

/-! ### emit -/

@[simp] theorem emit_mmio (s : State) (o : Obs) :
    (s.emit o).mmio = s.mmio := rfl
@[simp] theorem emit_internal (s : State) (o : Obs) :
    (s.emit o).internal = s.internal := rfl
@[simp] theorem emit_res (s : State) (o : Obs) :
    (s.emit o).res = s.res := rfl
@[simp] theorem emit_st (s : State) (o : Obs) :
    (s.emit o).st = s.st := rfl
@[simp] theorem emit_port (s : State) (o : Obs) :
    (s.emit o).port = s.port := rfl
@[simp] theorem emit_env (s : State) (o : Obs) :
    (s.emit o).env = s.env := rfl
@[simp] theorem emit_trace (s : State) (o : Obs) :
    (s.emit o).trace = s.trace ++ [o] := rfl
@[simp] theorem emit_freeCount (s : State) (o : Obs) :
    (s.emit o).freeCount = s.freeCount := rfl
@[simp] theorem emit_history (s : State) (o : Obs) :
    (s.emit o).history = s.history := rfl
@[simp] theorem emit_cfg (s : State) (o : Obs) :
    (s.emit o).cfg = s.cfg := rfl

/-! ### afterRead -/

@[simp] theorem afterRead_mmio (r : Reg) (s : State) :
    (afterRead r s).mmio = s.envSlot.mmio := rfl
@[simp] theorem afterRead_internal (r : Reg) (s : State) :
    (afterRead r s).internal = s.internal := rfl
@[simp] theorem afterRead_res (r : Reg) (s : State) :
    (afterRead r s).res = s.res := rfl
@[simp] theorem afterRead_st (r : Reg) (s : State) :
    (afterRead r s).st = s.st := rfl
@[simp] theorem afterRead_port (r : Reg) (s : State) :
    (afterRead r s).port = s.port := rfl
@[simp] theorem afterRead_env (r : Reg) (s : State) :
    (afterRead r s).env = s.env.tail := rfl
@[simp] theorem afterRead_trace (r : Reg) (s : State) :
    (afterRead r s).trace = s.trace ++ [.busRead (s.addrOf r) (readValue r s)] := rfl
@[simp] theorem afterRead_freeCount (r : Reg) (s : State) :
    (afterRead r s).freeCount = s.freeCount + r.draws := rfl
@[simp] theorem afterRead_history (r : Reg) (s : State) :
    (afterRead r s).history = s.envSlot.history := rfl
@[simp] theorem afterRead_cfg (r : Reg) (s : State) :
    (afterRead r s).cfg = s.cfg := rfl

/-! ### busWrite -/

@[simp] theorem busWrite_mmio (r : Reg) (v : Word) (s : State) :
    (busWrite r v s).mmio = s.envSlot.mmio.write r v := rfl
@[simp] theorem busWrite_internal (r : Reg) (v : Word) (s : State) :
    (busWrite r v s).internal = s.internal := rfl
@[simp] theorem busWrite_res (r : Reg) (v : Word) (s : State) :
    (busWrite r v s).res = s.res := rfl
@[simp] theorem busWrite_st (r : Reg) (v : Word) (s : State) :
    (busWrite r v s).st = s.st := rfl
@[simp] theorem busWrite_port (r : Reg) (v : Word) (s : State) :
    (busWrite r v s).port = s.port := rfl
@[simp] theorem busWrite_env (r : Reg) (v : Word) (s : State) :
    (busWrite r v s).env = s.env.tail := rfl
@[simp] theorem busWrite_trace (r : Reg) (v : Word) (s : State) :
    (busWrite r v s).trace = s.trace ++ [.busWrite (s.addrOf r) v] := rfl
@[simp] theorem busWrite_freeCount (r : Reg) (v : Word) (s : State) :
    (busWrite r v s).freeCount = s.freeCount := rfl
@[simp] theorem busWrite_history (r : Reg) (v : Word) (s : State) :
    (busWrite r v s).history = s.envSlot.history := rfl
@[simp] theorem busWrite_cfg (r : Reg) (v : Word) (s : State) :
    (busWrite r v s).cfg = s.cfg := rfl

/-! ### mapLine -/

@[simp] theorem mapLine_mmio (s : State) (n : Line) (id : Word) :
    (s.mapLine n id).mmio = s.mmio := rfl
@[simp] theorem mapLine_res (s : State) (n : Line) (id : Word) :
    (s.mapLine n id).res = s.res := rfl
@[simp] theorem mapLine_st (s : State) (n : Line) (id : Word) :
    (s.mapLine n id).st = s.st := rfl
@[simp] theorem mapLine_port (s : State) (n : Line) (id : Word) :
    (s.mapLine n id).port = s.port := rfl
@[simp] theorem mapLine_env (s : State) (n : Line) (id : Word) :
    (s.mapLine n id).env = s.env := rfl
@[simp] theorem mapLine_trace (s : State) (n : Line) (id : Word) :
    (s.mapLine n id).trace = s.trace := rfl
@[simp] theorem mapLine_freeCount (s : State) (n : Line) (id : Word) :
    (s.mapLine n id).freeCount = s.freeCount := rfl
@[simp] theorem mapLine_history (s : State) (n : Line) (id : Word) :
    (s.mapLine n id).history = s.history := rfl
@[simp] theorem mapLine_cfg (s : State) (n : Line) (id : Word) :
    (s.mapLine n id).cfg = s.cfg := rfl
@[simp] theorem mapLine_internal_intcReady (s : State) (n : Line) (id : Word) :
    (s.mapLine n id).internal.intcReady = s.internal.intcReady := rfl
@[simp] theorem mapLine_internal_intcBase (s : State) (n : Line) (id : Word) :
    (s.mapLine n id).internal.intcBase = s.internal.intcBase := rfl
@[simp] theorem mapLine_internal_nmapped (s : State) (n : Line) (id : Word) :
    (s.mapLine n id).internal.nmapped = s.internal.nmapped + 1 := rfl
@[simp] theorem mapLine_internal_map (s : State) (n : Line) (id : Word) :
    (s.mapLine n id).internal.map = s.internal.map.set n.val id := rfl
@[simp] theorem mapLine_internal_bound (s : State) (n : Line) (id : Word) :
    (s.mapLine n id).internal.bound = s.internal.bound := rfl
@[simp] theorem mapLine_internal_tmrReady (s : State) (n : Line) (id : Word) :
    (s.mapLine n id).internal.tmrReady = s.internal.tmrReady := rfl
@[simp] theorem mapLine_internal_tmrBase (s : State) (n : Line) (id : Word) :
    (s.mapLine n id).internal.tmrBase = s.internal.tmrBase := rfl
@[simp] theorem mapLine_internal_timerLine (s : State) (n : Line) (id : Word) :
    (s.mapLine n id).internal.timerLine = s.internal.timerLine := rfl
@[simp] theorem mapLine_internal_mode (s : State) (n : Line) (id : Word) :
    (s.mapLine n id).internal.mode = s.internal.mode := rfl
@[simp] theorem mapLine_internal_mult (s : State) (n : Line) (id : Word) :
    (s.mapLine n id).internal.mult = s.internal.mult := rfl
@[simp] theorem mapLine_internal_minNs (s : State) (n : Line) (id : Word) :
    (s.mapLine n id).internal.minNs = s.internal.minNs := rfl
@[simp] theorem mapLine_internal_maxNs (s : State) (n : Line) (id : Word) :
    (s.mapLine n id).internal.maxNs = s.internal.maxNs := rfl
@[simp] theorem mapLine_internal_ctx (s : State) (n : Line) (id : Word) :
    (s.mapLine n id).internal.ctx = s.internal.ctx := rfl
@[simp] theorem mapLine_internal_halt (s : State) (n : Line) (id : Word) :
    (s.mapLine n id).internal.halt = s.internal.halt := rfl

/-! ### bindLine -/

@[simp] theorem bindLine_mmio (s : State) (n : Line) :
    (s.bindLine n).mmio = s.mmio := rfl
@[simp] theorem bindLine_res (s : State) (n : Line) :
    (s.bindLine n).res = s.res := rfl
@[simp] theorem bindLine_st (s : State) (n : Line) :
    (s.bindLine n).st = s.st := rfl
@[simp] theorem bindLine_port (s : State) (n : Line) :
    (s.bindLine n).port = s.port := rfl
@[simp] theorem bindLine_env (s : State) (n : Line) :
    (s.bindLine n).env = s.env := rfl
@[simp] theorem bindLine_trace (s : State) (n : Line) :
    (s.bindLine n).trace = s.trace := rfl
@[simp] theorem bindLine_freeCount (s : State) (n : Line) :
    (s.bindLine n).freeCount = s.freeCount := rfl
@[simp] theorem bindLine_history (s : State) (n : Line) :
    (s.bindLine n).history = s.history := rfl
@[simp] theorem bindLine_cfg (s : State) (n : Line) :
    (s.bindLine n).cfg = s.cfg := rfl
@[simp] theorem bindLine_internal_intcReady (s : State) (n : Line) :
    (s.bindLine n).internal.intcReady = s.internal.intcReady := rfl
@[simp] theorem bindLine_internal_intcBase (s : State) (n : Line) :
    (s.bindLine n).internal.intcBase = s.internal.intcBase := rfl
@[simp] theorem bindLine_internal_nmapped (s : State) (n : Line) :
    (s.bindLine n).internal.nmapped = s.internal.nmapped := rfl
@[simp] theorem bindLine_internal_map (s : State) (n : Line) :
    (s.bindLine n).internal.map = s.internal.map := rfl
@[simp] theorem bindLine_internal_bound (s : State) (n : Line) :
    (s.bindLine n).internal.bound = s.internal.bound ||| 1#96 <<< n.val := rfl
@[simp] theorem bindLine_internal_tmrReady (s : State) (n : Line) :
    (s.bindLine n).internal.tmrReady = s.internal.tmrReady := rfl
@[simp] theorem bindLine_internal_tmrBase (s : State) (n : Line) :
    (s.bindLine n).internal.tmrBase = s.internal.tmrBase := rfl
@[simp] theorem bindLine_internal_timerLine (s : State) (n : Line) :
    (s.bindLine n).internal.timerLine = s.internal.timerLine := rfl
@[simp] theorem bindLine_internal_mode (s : State) (n : Line) :
    (s.bindLine n).internal.mode = s.internal.mode := rfl
@[simp] theorem bindLine_internal_mult (s : State) (n : Line) :
    (s.bindLine n).internal.mult = s.internal.mult := rfl
@[simp] theorem bindLine_internal_minNs (s : State) (n : Line) :
    (s.bindLine n).internal.minNs = s.internal.minNs := rfl
@[simp] theorem bindLine_internal_maxNs (s : State) (n : Line) :
    (s.bindLine n).internal.maxNs = s.internal.maxNs := rfl
@[simp] theorem bindLine_internal_ctx (s : State) (n : Line) :
    (s.bindLine n).internal.ctx = s.internal.ctx := rfl
@[simp] theorem bindLine_internal_halt (s : State) (n : Line) :
    (s.bindLine n).internal.halt = s.internal.halt := rfl

/-! ### setIntcBase -/

@[simp] theorem setIntcBase_mmio (s : State) (b : Word) :
    (s.setIntcBase b).mmio = s.mmio := rfl
@[simp] theorem setIntcBase_res (s : State) (b : Word) :
    (s.setIntcBase b).res = s.res := rfl
@[simp] theorem setIntcBase_st (s : State) (b : Word) :
    (s.setIntcBase b).st = s.st := rfl
@[simp] theorem setIntcBase_port (s : State) (b : Word) :
    (s.setIntcBase b).port = s.port := rfl
@[simp] theorem setIntcBase_env (s : State) (b : Word) :
    (s.setIntcBase b).env = s.env := rfl
@[simp] theorem setIntcBase_trace (s : State) (b : Word) :
    (s.setIntcBase b).trace = s.trace := rfl
@[simp] theorem setIntcBase_freeCount (s : State) (b : Word) :
    (s.setIntcBase b).freeCount = s.freeCount := rfl
@[simp] theorem setIntcBase_history (s : State) (b : Word) :
    (s.setIntcBase b).history = s.history := rfl
@[simp] theorem setIntcBase_cfg (s : State) (b : Word) :
    (s.setIntcBase b).cfg = s.cfg := rfl
@[simp] theorem setIntcBase_internal_intcReady (s : State) (b : Word) :
    (s.setIntcBase b).internal.intcReady = s.internal.intcReady := rfl
@[simp] theorem setIntcBase_internal_intcBase (s : State) (b : Word) :
    (s.setIntcBase b).internal.intcBase = b := rfl
@[simp] theorem setIntcBase_internal_nmapped (s : State) (b : Word) :
    (s.setIntcBase b).internal.nmapped = s.internal.nmapped := rfl
@[simp] theorem setIntcBase_internal_map (s : State) (b : Word) :
    (s.setIntcBase b).internal.map = s.internal.map := rfl
@[simp] theorem setIntcBase_internal_bound (s : State) (b : Word) :
    (s.setIntcBase b).internal.bound = s.internal.bound := rfl
@[simp] theorem setIntcBase_internal_tmrReady (s : State) (b : Word) :
    (s.setIntcBase b).internal.tmrReady = s.internal.tmrReady := rfl
@[simp] theorem setIntcBase_internal_tmrBase (s : State) (b : Word) :
    (s.setIntcBase b).internal.tmrBase = s.internal.tmrBase := rfl
@[simp] theorem setIntcBase_internal_timerLine (s : State) (b : Word) :
    (s.setIntcBase b).internal.timerLine = s.internal.timerLine := rfl
@[simp] theorem setIntcBase_internal_mode (s : State) (b : Word) :
    (s.setIntcBase b).internal.mode = s.internal.mode := rfl
@[simp] theorem setIntcBase_internal_mult (s : State) (b : Word) :
    (s.setIntcBase b).internal.mult = s.internal.mult := rfl
@[simp] theorem setIntcBase_internal_minNs (s : State) (b : Word) :
    (s.setIntcBase b).internal.minNs = s.internal.minNs := rfl
@[simp] theorem setIntcBase_internal_maxNs (s : State) (b : Word) :
    (s.setIntcBase b).internal.maxNs = s.internal.maxNs := rfl
@[simp] theorem setIntcBase_internal_ctx (s : State) (b : Word) :
    (s.setIntcBase b).internal.ctx = s.internal.ctx := rfl
@[simp] theorem setIntcBase_internal_halt (s : State) (b : Word) :
    (s.setIntcBase b).internal.halt = s.internal.halt := rfl

/-! ### setIntcReady -/

@[simp] theorem setIntcReady_mmio (s : State) :
    s.setIntcReady.mmio = s.mmio := rfl
@[simp] theorem setIntcReady_res (s : State) :
    s.setIntcReady.res = s.res := rfl
@[simp] theorem setIntcReady_st (s : State) :
    s.setIntcReady.st = s.st := rfl
@[simp] theorem setIntcReady_port (s : State) :
    s.setIntcReady.port = s.port := rfl
@[simp] theorem setIntcReady_env (s : State) :
    s.setIntcReady.env = s.env := rfl
@[simp] theorem setIntcReady_trace (s : State) :
    s.setIntcReady.trace = s.trace := rfl
@[simp] theorem setIntcReady_freeCount (s : State) :
    s.setIntcReady.freeCount = s.freeCount := rfl
@[simp] theorem setIntcReady_history (s : State) :
    s.setIntcReady.history = s.history := rfl
@[simp] theorem setIntcReady_cfg (s : State) :
    s.setIntcReady.cfg = s.cfg := rfl
@[simp] theorem setIntcReady_internal_intcReady (s : State) :
    s.setIntcReady.internal.intcReady = true := rfl
@[simp] theorem setIntcReady_internal_intcBase (s : State) :
    s.setIntcReady.internal.intcBase = s.internal.intcBase := rfl
@[simp] theorem setIntcReady_internal_nmapped (s : State) :
    s.setIntcReady.internal.nmapped = s.internal.nmapped := rfl
@[simp] theorem setIntcReady_internal_map (s : State) :
    s.setIntcReady.internal.map = s.internal.map := rfl
@[simp] theorem setIntcReady_internal_bound (s : State) :
    s.setIntcReady.internal.bound = s.internal.bound := rfl
@[simp] theorem setIntcReady_internal_tmrReady (s : State) :
    s.setIntcReady.internal.tmrReady = s.internal.tmrReady := rfl
@[simp] theorem setIntcReady_internal_tmrBase (s : State) :
    s.setIntcReady.internal.tmrBase = s.internal.tmrBase := rfl
@[simp] theorem setIntcReady_internal_timerLine (s : State) :
    s.setIntcReady.internal.timerLine = s.internal.timerLine := rfl
@[simp] theorem setIntcReady_internal_mode (s : State) :
    s.setIntcReady.internal.mode = s.internal.mode := rfl
@[simp] theorem setIntcReady_internal_mult (s : State) :
    s.setIntcReady.internal.mult = s.internal.mult := rfl
@[simp] theorem setIntcReady_internal_minNs (s : State) :
    s.setIntcReady.internal.minNs = s.internal.minNs := rfl
@[simp] theorem setIntcReady_internal_maxNs (s : State) :
    s.setIntcReady.internal.maxNs = s.internal.maxNs := rfl
@[simp] theorem setIntcReady_internal_ctx (s : State) :
    s.setIntcReady.internal.ctx = s.internal.ctx := rfl
@[simp] theorem setIntcReady_internal_halt (s : State) :
    s.setIntcReady.internal.halt = s.internal.halt := rfl

/-! ### setTimerMode -/

@[simp] theorem setTimerMode_mmio (s : State) (m : TimerMode) :
    (s.setTimerMode m).mmio = s.mmio := rfl
@[simp] theorem setTimerMode_res (s : State) (m : TimerMode) :
    (s.setTimerMode m).res = s.res := rfl
@[simp] theorem setTimerMode_st (s : State) (m : TimerMode) :
    (s.setTimerMode m).st = s.st := rfl
@[simp] theorem setTimerMode_port (s : State) (m : TimerMode) :
    (s.setTimerMode m).port = s.port := rfl
@[simp] theorem setTimerMode_env (s : State) (m : TimerMode) :
    (s.setTimerMode m).env = s.env := rfl
@[simp] theorem setTimerMode_trace (s : State) (m : TimerMode) :
    (s.setTimerMode m).trace = s.trace := rfl
@[simp] theorem setTimerMode_freeCount (s : State) (m : TimerMode) :
    (s.setTimerMode m).freeCount = s.freeCount := rfl
@[simp] theorem setTimerMode_history (s : State) (m : TimerMode) :
    (s.setTimerMode m).history = s.history := rfl
@[simp] theorem setTimerMode_cfg (s : State) (m : TimerMode) :
    (s.setTimerMode m).cfg = s.cfg := rfl
@[simp] theorem setTimerMode_internal_intcReady (s : State) (m : TimerMode) :
    (s.setTimerMode m).internal.intcReady = s.internal.intcReady := rfl
@[simp] theorem setTimerMode_internal_intcBase (s : State) (m : TimerMode) :
    (s.setTimerMode m).internal.intcBase = s.internal.intcBase := rfl
@[simp] theorem setTimerMode_internal_nmapped (s : State) (m : TimerMode) :
    (s.setTimerMode m).internal.nmapped = s.internal.nmapped := rfl
@[simp] theorem setTimerMode_internal_map (s : State) (m : TimerMode) :
    (s.setTimerMode m).internal.map = s.internal.map := rfl
@[simp] theorem setTimerMode_internal_bound (s : State) (m : TimerMode) :
    (s.setTimerMode m).internal.bound = s.internal.bound := rfl
@[simp] theorem setTimerMode_internal_tmrReady (s : State) (m : TimerMode) :
    (s.setTimerMode m).internal.tmrReady = s.internal.tmrReady := rfl
@[simp] theorem setTimerMode_internal_tmrBase (s : State) (m : TimerMode) :
    (s.setTimerMode m).internal.tmrBase = s.internal.tmrBase := rfl
@[simp] theorem setTimerMode_internal_timerLine (s : State) (m : TimerMode) :
    (s.setTimerMode m).internal.timerLine = s.internal.timerLine := rfl
@[simp] theorem setTimerMode_internal_mode (s : State) (m : TimerMode) :
    (s.setTimerMode m).internal.mode = m := rfl
@[simp] theorem setTimerMode_internal_mult (s : State) (m : TimerMode) :
    (s.setTimerMode m).internal.mult = s.internal.mult := rfl
@[simp] theorem setTimerMode_internal_minNs (s : State) (m : TimerMode) :
    (s.setTimerMode m).internal.minNs = s.internal.minNs := rfl
@[simp] theorem setTimerMode_internal_maxNs (s : State) (m : TimerMode) :
    (s.setTimerMode m).internal.maxNs = s.internal.maxNs := rfl
@[simp] theorem setTimerMode_internal_ctx (s : State) (m : TimerMode) :
    (s.setTimerMode m).internal.ctx = s.internal.ctx := rfl
@[simp] theorem setTimerMode_internal_halt (s : State) (m : TimerMode) :
    (s.setTimerMode m).internal.halt = s.internal.halt := rfl

/-! ### registerTimer -/

@[simp] theorem registerTimer_mmio (s : State) (l : BitVec 8) (b : Word) :
    (s.registerTimer l b).mmio = s.mmio := rfl
@[simp] theorem registerTimer_res (s : State) (l : BitVec 8) (b : Word) :
    (s.registerTimer l b).res = s.res := rfl
@[simp] theorem registerTimer_st (s : State) (l : BitVec 8) (b : Word) :
    (s.registerTimer l b).st = s.st := rfl
@[simp] theorem registerTimer_port (s : State) (l : BitVec 8) (b : Word) :
    (s.registerTimer l b).port = s.port := rfl
@[simp] theorem registerTimer_env (s : State) (l : BitVec 8) (b : Word) :
    (s.registerTimer l b).env = s.env := rfl
@[simp] theorem registerTimer_trace (s : State) (l : BitVec 8) (b : Word) :
    (s.registerTimer l b).trace = s.trace := rfl
@[simp] theorem registerTimer_freeCount (s : State) (l : BitVec 8) (b : Word) :
    (s.registerTimer l b).freeCount = s.freeCount + 2 := rfl
@[simp] theorem registerTimer_history (s : State) (l : BitVec 8) (b : Word) :
    (s.registerTimer l b).history = s.history := rfl
@[simp] theorem registerTimer_cfg (s : State) (l : BitVec 8) (b : Word) :
    (s.registerTimer l b).cfg = s.cfg := rfl
@[simp] theorem registerTimer_internal_intcReady (s : State) (l : BitVec 8) (b : Word) :
    (s.registerTimer l b).internal.intcReady = s.internal.intcReady := rfl
@[simp] theorem registerTimer_internal_intcBase (s : State) (l : BitVec 8) (b : Word) :
    (s.registerTimer l b).internal.intcBase = s.internal.intcBase := rfl
@[simp] theorem registerTimer_internal_nmapped (s : State) (l : BitVec 8) (b : Word) :
    (s.registerTimer l b).internal.nmapped = s.internal.nmapped := rfl
@[simp] theorem registerTimer_internal_map (s : State) (l : BitVec 8) (b : Word) :
    (s.registerTimer l b).internal.map = s.internal.map := rfl
@[simp] theorem registerTimer_internal_bound (s : State) (l : BitVec 8) (b : Word) :
    (s.registerTimer l b).internal.bound = s.internal.bound := rfl
@[simp] theorem registerTimer_internal_tmrReady (s : State) (l : BitVec 8) (b : Word) :
    (s.registerTimer l b).internal.tmrReady = true := rfl
@[simp] theorem registerTimer_internal_tmrBase (s : State) (l : BitVec 8) (b : Word) :
    (s.registerTimer l b).internal.tmrBase = b := rfl
@[simp] theorem registerTimer_internal_timerLine (s : State) (l : BitVec 8) (b : Word) :
    (s.registerTimer l b).internal.timerLine = l.setWidth 7 := rfl
@[simp] theorem registerTimer_internal_mode (s : State) (l : BitVec 8) (b : Word) :
    (s.registerTimer l b).internal.mode = .disabled := rfl
@[simp] theorem registerTimer_internal_mult (s : State) (l : BitVec 8) (b : Word) :
    (s.registerTimer l b).internal.mult = BitVec.ofNat 32 (multiplier s.cfg) := rfl
@[simp] theorem registerTimer_internal_minNs (s : State) (l : BitVec 8) (b : Word) :
    (s.registerTimer l b).internal.minNs = latchedBound s.freeCount (t2ns (multiplier s.cfg) Config.minDelta) := rfl
@[simp] theorem registerTimer_internal_maxNs (s : State) (l : BitVec 8) (b : Word) :
    (s.registerTimer l b).internal.maxNs = latchedBound (s.freeCount + 1) (t2ns (multiplier s.cfg) Config.maxDelta) := rfl
@[simp] theorem registerTimer_internal_ctx (s : State) (l : BitVec 8) (b : Word) :
    (s.registerTimer l b).internal.ctx = s.internal.ctx := rfl
@[simp] theorem registerTimer_internal_halt (s : State) (l : BitVec 8) (b : Word) :
    (s.registerTimer l b).internal.halt = s.internal.halt := rfl

/-! ### enterCallback -/

@[simp] theorem enterCallback_mmio (c : Ctx) (o : Obs) (s : State) :
    (enterCallback c o s).mmio = s.mmio := rfl
@[simp] theorem enterCallback_res (c : Ctx) (o : Obs) (s : State) :
    (enterCallback c o s).res = s.res := rfl
@[simp] theorem enterCallback_st (c : Ctx) (o : Obs) (s : State) :
    (enterCallback c o s).st = s.st := rfl
@[simp] theorem enterCallback_port (c : Ctx) (o : Obs) (s : State) :
    (enterCallback c o s).port = s.port := rfl
@[simp] theorem enterCallback_env (c : Ctx) (o : Obs) (s : State) :
    (enterCallback c o s).env = s.env := rfl
@[simp] theorem enterCallback_trace (c : Ctx) (o : Obs) (s : State) :
    (enterCallback c o s).trace = s.trace ++ [o] := rfl
@[simp] theorem enterCallback_freeCount (c : Ctx) (o : Obs) (s : State) :
    (enterCallback c o s).freeCount = s.freeCount := rfl
@[simp] theorem enterCallback_history (c : Ctx) (o : Obs) (s : State) :
    (enterCallback c o s).history = s.history := rfl
@[simp] theorem enterCallback_cfg (c : Ctx) (o : Obs) (s : State) :
    (enterCallback c o s).cfg = s.cfg := rfl
@[simp] theorem enterCallback_internal_intcReady (c : Ctx) (o : Obs) (s : State) :
    (enterCallback c o s).internal.intcReady = s.internal.intcReady := rfl
@[simp] theorem enterCallback_internal_intcBase (c : Ctx) (o : Obs) (s : State) :
    (enterCallback c o s).internal.intcBase = s.internal.intcBase := rfl
@[simp] theorem enterCallback_internal_nmapped (c : Ctx) (o : Obs) (s : State) :
    (enterCallback c o s).internal.nmapped = s.internal.nmapped := rfl
@[simp] theorem enterCallback_internal_map (c : Ctx) (o : Obs) (s : State) :
    (enterCallback c o s).internal.map = s.internal.map := rfl
@[simp] theorem enterCallback_internal_bound (c : Ctx) (o : Obs) (s : State) :
    (enterCallback c o s).internal.bound = s.internal.bound := rfl
@[simp] theorem enterCallback_internal_tmrReady (c : Ctx) (o : Obs) (s : State) :
    (enterCallback c o s).internal.tmrReady = s.internal.tmrReady := rfl
@[simp] theorem enterCallback_internal_tmrBase (c : Ctx) (o : Obs) (s : State) :
    (enterCallback c o s).internal.tmrBase = s.internal.tmrBase := rfl
@[simp] theorem enterCallback_internal_timerLine (c : Ctx) (o : Obs) (s : State) :
    (enterCallback c o s).internal.timerLine = s.internal.timerLine := rfl
@[simp] theorem enterCallback_internal_mode (c : Ctx) (o : Obs) (s : State) :
    (enterCallback c o s).internal.mode = s.internal.mode := rfl
@[simp] theorem enterCallback_internal_mult (c : Ctx) (o : Obs) (s : State) :
    (enterCallback c o s).internal.mult = s.internal.mult := rfl
@[simp] theorem enterCallback_internal_minNs (c : Ctx) (o : Obs) (s : State) :
    (enterCallback c o s).internal.minNs = s.internal.minNs := rfl
@[simp] theorem enterCallback_internal_maxNs (c : Ctx) (o : Obs) (s : State) :
    (enterCallback c o s).internal.maxNs = s.internal.maxNs := rfl
@[simp] theorem enterCallback_internal_ctx (c : Ctx) (o : Obs) (s : State) :
    (enterCallback c o s).internal.ctx = s.internal.ctx ++ [c] := rfl
@[simp] theorem enterCallback_internal_halt (c : Ctx) (o : Obs) (s : State) :
    (enterCallback c o s).internal.halt = s.internal.halt := rfl

/-! ### leaveCallback -/

@[simp] theorem leaveCallback_mmio (s : State) :
    (leaveCallback s).mmio = s.mmio := rfl
@[simp] theorem leaveCallback_res (s : State) :
    (leaveCallback s).res = s.res := rfl
@[simp] theorem leaveCallback_st (s : State) :
    (leaveCallback s).st = s.st := rfl
@[simp] theorem leaveCallback_port (s : State) :
    (leaveCallback s).port = s.port := rfl
@[simp] theorem leaveCallback_env (s : State) :
    (leaveCallback s).env = s.env := rfl
@[simp] theorem leaveCallback_trace (s : State) :
    (leaveCallback s).trace = s.trace := rfl
@[simp] theorem leaveCallback_freeCount (s : State) :
    (leaveCallback s).freeCount = s.freeCount := rfl
@[simp] theorem leaveCallback_history (s : State) :
    (leaveCallback s).history = s.history := rfl
@[simp] theorem leaveCallback_cfg (s : State) :
    (leaveCallback s).cfg = s.cfg := rfl
@[simp] theorem leaveCallback_internal_intcReady (s : State) :
    (leaveCallback s).internal.intcReady = s.internal.intcReady := rfl
@[simp] theorem leaveCallback_internal_intcBase (s : State) :
    (leaveCallback s).internal.intcBase = s.internal.intcBase := rfl
@[simp] theorem leaveCallback_internal_nmapped (s : State) :
    (leaveCallback s).internal.nmapped = s.internal.nmapped := rfl
@[simp] theorem leaveCallback_internal_map (s : State) :
    (leaveCallback s).internal.map = s.internal.map := rfl
@[simp] theorem leaveCallback_internal_bound (s : State) :
    (leaveCallback s).internal.bound = s.internal.bound := rfl
@[simp] theorem leaveCallback_internal_tmrReady (s : State) :
    (leaveCallback s).internal.tmrReady = s.internal.tmrReady := rfl
@[simp] theorem leaveCallback_internal_tmrBase (s : State) :
    (leaveCallback s).internal.tmrBase = s.internal.tmrBase := rfl
@[simp] theorem leaveCallback_internal_timerLine (s : State) :
    (leaveCallback s).internal.timerLine = s.internal.timerLine := rfl
@[simp] theorem leaveCallback_internal_mode (s : State) :
    (leaveCallback s).internal.mode = s.internal.mode := rfl
@[simp] theorem leaveCallback_internal_mult (s : State) :
    (leaveCallback s).internal.mult = s.internal.mult := rfl
@[simp] theorem leaveCallback_internal_minNs (s : State) :
    (leaveCallback s).internal.minNs = s.internal.minNs := rfl
@[simp] theorem leaveCallback_internal_maxNs (s : State) :
    (leaveCallback s).internal.maxNs = s.internal.maxNs := rfl
@[simp] theorem leaveCallback_internal_ctx (s : State) :
    (leaveCallback s).internal.ctx = s.internal.ctx.dropLast := rfl
@[simp] theorem leaveCallback_internal_halt (s : State) :
    (leaveCallback s).internal.halt = s.internal.halt := rfl

/-! ### takeWord -/

@[simp] theorem takeWord_mmio (s : State) :
    s.takeWord.mmio = s.mmio := rfl
@[simp] theorem takeWord_internal (s : State) :
    s.takeWord.internal = s.internal := rfl
@[simp] theorem takeWord_res (s : State) :
    s.takeWord.res = s.res := rfl
@[simp] theorem takeWord_st (s : State) :
    s.takeWord.st = s.st := rfl
@[simp] theorem takeWord_port (s : State) :
    s.takeWord.port = s.port.tail := rfl
@[simp] theorem takeWord_env (s : State) :
    s.takeWord.env = s.env := rfl
@[simp] theorem takeWord_trace (s : State) :
    s.takeWord.trace = s.trace := rfl
@[simp] theorem takeWord_freeCount (s : State) :
    s.takeWord.freeCount = s.freeCount := rfl
@[simp] theorem takeWord_history (s : State) :
    s.takeWord.history = s.history := rfl
@[simp] theorem takeWord_cfg (s : State) :
    s.takeWord.cfg = s.cfg := rfl

/-! ### present -/

@[simp] theorem present_mmio (s : State) (w : CmdWord) :
    (s.present w).mmio = s.mmio := rfl
@[simp] theorem present_internal (s : State) (w : CmdWord) :
    (s.present w).internal = s.internal := rfl
@[simp] theorem present_res (s : State) (w : CmdWord) :
    (s.present w).res = s.res := rfl
@[simp] theorem present_st (s : State) (w : CmdWord) :
    (s.present w).st = s.st := rfl
@[simp] theorem present_port (s : State) (w : CmdWord) :
    (s.present w).port = w :: s.port := rfl
@[simp] theorem present_env (s : State) (w : CmdWord) :
    (s.present w).env = s.env := rfl
@[simp] theorem present_trace (s : State) (w : CmdWord) :
    (s.present w).trace = s.trace := rfl
@[simp] theorem present_freeCount (s : State) (w : CmdWord) :
    (s.present w).freeCount = s.freeCount := rfl
@[simp] theorem present_history (s : State) (w : CmdWord) :
    (s.present w).history = s.history := rfl
@[simp] theorem present_cfg (s : State) (w : CmdWord) :
    (s.present w).cfg = s.cfg := rfl

end Sys2Proof.Machine
end

