-- ==== Sys2Proof/Laws/Lines.lean ====
section
/-!
SUPPORT. The 96-bit view of a kind (R13, R20): a line is its bank and its bit, and what storing a bank,
setting a bit and clearing a bit do to every line.
-/
namespace Sys2Proof.Machine

theorem bitOf_lt (n : Line) : bitOf n < 32 := Nat.mod_lt _ (by decide)

/-- A line is its bank and its bit (R13). -/
theorem line_eq_iff (m n : Line) : m = n ↔ bankOf m = bankOf n ∧ bitOf m = bitOf n := by
  constructor
  · rintro rfl
    exact ⟨rfl, rfl⟩
  · rintro ⟨hb, hi⟩
    apply Fin.ext
    have hm := m.isLt
    have hn := n.isLt
    simp only [bankOf, bitOf] at hb hi
    split at hb <;> split at hb <;> first
      | omega
      | (split at hb <;> first | omega | (split at hb <;> first | omega | simp at hb) | simp at hb)

@[simp] theorem Banks.get_set_same (r : Banks) (b : Bank) (v : Word) : (r.set b v).get b = v := by
  cases b <;> rfl

theorem Banks.get_set (r : Banks) (b c : Bank) (v : Word) :
    (r.set b v).get c = if c = b then v else r.get c := by
  cases b <;> cases c <;> rfl

theorem Banks.set_get (r : Banks) (b : Bank) : r.set b (r.get b) = r := by
  cases b <;> rfl

theorem Banks.set_set (r : Banks) (b : Bank) (v w : Word) : (r.set b v).set b w = r.set b w := by
  cases b <;> rfl

/-- The lines of a register file of which one bank was stored. -/
theorem Banks.line_set (r : Banks) (b : Bank) (v : Word) (m : Line) :
    (r.set b v).line m = if bankOf m = b then v.getLsbD (bitOf m) else r.line m := by
  simp only [Banks.line, Banks.get_set]
  split <;> rfl

theorem onehot_getLsbD (n : Line) (i : Nat) (hi : i < 32) :
    (onehot n).getLsbD i = decide (i = bitOf n) := by
  have hn := bitOf_lt n
  simp only [onehot, BitVec.getLsbD_shiftLeft, BitVec.getLsbD_one]
  by_cases h : i = bitOf n
  · subst h; simp [hi]
  · by_cases h2 : i < bitOf n
    · simp [h, h2]
    · have : i - bitOf n ≠ 0 := by omega
      simp [h, this]

/-- Setting the bit of line `n` sets that line and no other. -/
theorem Banks.line_set_or (r : Banks) (n m : Line) :
    (r.set (bankOf n) (r.get (bankOf n) ||| onehot n)).line m = (r.line m || decide (m = n)) := by
  rw [Banks.line_set]
  by_cases hb : bankOf m = bankOf n
  · rw [if_pos hb, BitVec.getLsbD_or, onehot_getLsbD _ _ (bitOf_lt m), Banks.line, hb]
    congr 1
    simp [line_eq_iff m n, hb]
  · have : m ≠ n := fun h => hb (by rw [h])
    simp [hb, this]

/-- Clearing the bit of line `n` clears that line and no other. -/
theorem Banks.line_set_andNot (r : Banks) (n m : Line) :
    (r.set (bankOf n) (r.get (bankOf n) &&& ~~~onehot n)).line m = (r.line m && !decide (m = n)) := by
  rw [Banks.line_set]
  by_cases hb : bankOf m = bankOf n
  · rw [if_pos hb, BitVec.getLsbD_and, BitVec.getLsbD_not, onehot_getLsbD _ _ (bitOf_lt m),
      Banks.line, hb]
    simp [line_eq_iff m n, hb, bitOf_lt m]
  · have : m ≠ n := fun h => hb (by rw [h])
    simp [hb, this]

/-- Two register files with the same lines are the same. -/
theorem Banks.ext_line {r r' : Banks} (h : ∀ n : Line, r.line n = r'.line n) : r = r' := by
  have key : ∀ b : Bank, r.get b = r'.get b := by
    intro b
    apply BitVec.eq_of_getLsbD_eq
    intro i hi
    let base : Nat := match b with | .b0 => 0 | .b1 => 32 | .b2 => 64
    have hlt : base + i < 96 := by cases b <;> simp only [base] <;> omega
    have hb : bankOf ⟨base + i, hlt⟩ = b := by
      cases b <;> simp only [base, bankOf]
      · rw [if_pos (by omega)]
      · rw [if_neg (by omega), if_pos (by omega)]
      · rw [if_neg (by omega), if_neg (by omega)]
    have hbit : bitOf ⟨base + i, hlt⟩ = i := by
      cases b <;> simp only [base, bitOf] <;> omega
    have := h ⟨base + i, hlt⟩
    simpa only [Banks.line, hb, hbit] using this
  cases r; cases r'
  have h0 := key .b0
  have h1 := key .b1
  have h2 := key .b2
  simp only [Banks.get] at h0 h1 h2
  simp [h0, h1, h2]

/-- `line?` answers exactly the lines below 96 (R143). -/
theorem line?_eq_some {n : Word} {l : Line} : line? n = some l ↔ n.toNat = l.val := by
  simp only [line?]
  constructor
  · intro h
    split at h
    · simp only [Option.some.injEq] at h
      rw [← h]
    · simp at h
  · intro h
    have hl := l.isLt
    rw [dif_pos (by omega)]
    simp only [Option.some.injEq]
    exact Fin.ext h

theorem line?_eq_none {n : Word} : line? n = none ↔ 96 ≤ n.toNat := by
  simp only [line?]
  split <;> simp <;> omega

/-- The candidate set holds exactly the candidate lines (R25). -/
theorem mem_cand {m : MmioRegs} {n : Line} : n ∈ m.cand ↔ m.isCand n = true := by
  simp [MmioRegs.cand]

/-- `Arb` answers a member, and answers unless the set is empty (R25). -/
theorem arbitrate_mem {t : List (List Line × Line)} {c : List Line} {n : Line}
    (h : arbitrate t c = some n) : n ∈ c := by
  simp only [arbitrate] at h
  split at h
  · split at h
    · rename_i hm
      simp only [Option.some.injEq] at h
      exact h ▸ hm
    · exact List.mem_of_mem_head? h
  · exact List.mem_of_mem_head? h

theorem arbitrate_eq_none {t : List (List Line × Line)} {c : List Line} :
    arbitrate t c = none ↔ c = [] := by
  simp only [arbitrate]
  split
  · split
    · rename_i hm
      simp only [reduceCtorEq, false_iff]
      rintro rfl
      simp at hm
    · simp
  · simp

end Sys2Proof.Machine
end

