-- ==== Sys2Proof/Laws/Env.lean ====
section
/-!
SUPPORT. What environment and timer steps can do (R206, R212, R213): they leave ENABLE, MASK, PROTECT,
NMI_TYPE and T_INTV alone, only ever set pending bits, and their effect on the timer does not depend on
the controller's registers.
-/
namespace Sys2Proof.Machine

/-! ### The registers no environment step changes -/

@[simp] theorem envEffect_enable (m : MmioRegs) (e : EnvStep) : (envEffect m e).enable = m.enable := by
  cases e <;> simp only [envEffect, MmioRegs.raise]; split <;> rfl
@[simp] theorem envEffect_mask (m : MmioRegs) (e : EnvStep) : (envEffect m e).mask = m.mask := by
  cases e <;> simp only [envEffect, MmioRegs.raise]; split <;> rfl
@[simp] theorem envEffect_protect (m : MmioRegs) (e : EnvStep) :
    (envEffect m e).protect = m.protect := by
  cases e <;> simp only [envEffect, MmioRegs.raise]; split <;> rfl
@[simp] theorem envEffect_nmiType (m : MmioRegs) (e : EnvStep) :
    (envEffect m e).nmiType = m.nmiType := by
  cases e <;> simp only [envEffect, MmioRegs.raise]; split <;> rfl
@[simp] theorem envEffect_tIntv (m : MmioRegs) (e : EnvStep) : (envEffect m e).tIntv = m.tIntv := by
  cases e <;> simp only [envEffect, MmioRegs.raise]; split <;> rfl

@[simp] theorem envApply_enable (r : InternalRegs) (m : MmioRegs) (e : EnvStep) :
    (envApply r m e).enable = m.enable := by
  unfold envApply; split <;> simp
@[simp] theorem envApply_mask (r : InternalRegs) (m : MmioRegs) (e : EnvStep) :
    (envApply r m e).mask = m.mask := by
  unfold envApply; split <;> simp
@[simp] theorem envApply_protect (r : InternalRegs) (m : MmioRegs) (e : EnvStep) :
    (envApply r m e).protect = m.protect := by
  unfold envApply; split <;> simp
@[simp] theorem envApply_nmiType (r : InternalRegs) (m : MmioRegs) (e : EnvStep) :
    (envApply r m e).nmiType = m.nmiType := by
  unfold envApply; split <;> simp
@[simp] theorem envApply_tIntv (r : InternalRegs) (m : MmioRegs) (e : EnvStep) :
    (envApply r m e).tIntv = m.tIntv := by
  unfold envApply; split <;> simp

@[simp] theorem envRun_nil (r : InternalRegs) (m : MmioRegs) : envRun r m [] = m := rfl
theorem envRun_cons (r : InternalRegs) (m : MmioRegs) (e : EnvStep) (es : List EnvStep) :
    envRun r m (e :: es) = envRun r (envApply r m e) es := rfl

/-- A quantity every scheduled step keeps is kept by a slot. -/
theorem envRun_keeps {α : Type} (f : MmioRegs → α) (r : InternalRegs)
    (h : ∀ m e, f (envApply r m e) = f m) (es : List EnvStep) :
    ∀ m, f (envRun r m es) = f m := by
  induction es with
  | nil => intro m; rfl
  | cons e es ih => intro m; rw [envRun_cons, ih, h]

@[simp] theorem envRun_enable (r : InternalRegs) (m : MmioRegs) (es : List EnvStep) :
    (envRun r m es).enable = m.enable := envRun_keeps MmioRegs.enable r (envApply_enable r) es m
@[simp] theorem envRun_mask (r : InternalRegs) (m : MmioRegs) (es : List EnvStep) :
    (envRun r m es).mask = m.mask := envRun_keeps MmioRegs.mask r (envApply_mask r) es m
@[simp] theorem envRun_protect (r : InternalRegs) (m : MmioRegs) (es : List EnvStep) :
    (envRun r m es).protect = m.protect := envRun_keeps MmioRegs.protect r (envApply_protect r) es m
@[simp] theorem envRun_nmiType (r : InternalRegs) (m : MmioRegs) (es : List EnvStep) :
    (envRun r m es).nmiType = m.nmiType := envRun_keeps MmioRegs.nmiType r (envApply_nmiType r) es m
@[simp] theorem envRun_tIntv (r : InternalRegs) (m : MmioRegs) (es : List EnvStep) :
    (envRun r m es).tIntv = m.tIntv := envRun_keeps MmioRegs.tIntv r (envApply_tIntv r) es m

/-- A slot looks at nothing of the core's own state but which line is the timer's (R214). -/
theorem envRun_internal_congr {r r' : InternalRegs} (hr : r.tmrReady = r'.tmrReady)
    (hl : r.timerLine = r'.timerLine) (es : List EnvStep) (m : MmioRegs) :
    envRun r m es = envRun r' m es := by
  have happly : ∀ m e, envApply r m e = envApply r' m e := by
    intro m e
    have : envEnabled r m e = envEnabled r' m e := by
      cases e <;> simp only [envEnabled, hr, hl]
    simp only [envApply, this]
  induction es generalizing m with
  | nil => rfl
  | cons e es ih => rw [envRun_cons, envRun_cons, happly, ih]

/-! ### Slots -/

theorem envSlot_mmio (s : State) :
    s.envSlot.mmio = envRun s.internal s.mmio (s.env.headD []) := rfl

@[simp] theorem envSlot_enable (s : State) : s.envSlot.mmio.enable = s.mmio.enable := by
  simp [envSlot_mmio]
@[simp] theorem envSlot_mask (s : State) : s.envSlot.mmio.mask = s.mmio.mask := by
  simp [envSlot_mmio]
@[simp] theorem envSlot_protect (s : State) : s.envSlot.mmio.protect = s.mmio.protect := by
  simp [envSlot_mmio]
@[simp] theorem envSlot_nmiType (s : State) : s.envSlot.mmio.nmiType = s.mmio.nmiType := by
  simp [envSlot_mmio]
@[simp] theorem envSlot_tIntv (s : State) : s.envSlot.mmio.tIntv = s.mmio.tIntv := by
  simp [envSlot_mmio]

/-- With nothing scheduled a slot records its moment and changes nothing else. -/
theorem envSlot_of_env_nil {s : State} (h : s.env = []) :
    s.envSlot = { s with history := s.history ++ [⟨s.mmio, none⟩] } := by
  simp only [State.envSlot, h, List.headD_nil, envRun_nil, List.tail_nil]
  rw [← h]
  rfl

/-- What a slot does to the registers depends on the registers, the schedule and the core's own state
alone. -/
theorem envSlot_mmio_congr {s t : State} (hm : s.mmio = t.mmio) (hi : s.internal = t.internal)
    (he : s.env = t.env) : s.envSlot.mmio = t.envSlot.mmio := by
  simp only [envSlot_mmio, hm, hi, he]

@[simp] theorem afterRead_envSlot_mmio (r : Reg) (s : State) :
    (afterRead r s).envSlot.mmio = s.envSlot.envSlot.mmio := rfl

/-! ### Pending bits are only ever set -/

theorem raise_line (m : MmioRegs) (n k : Line) :
    (m.raise n).pending.line k = (m.pending.line k || decide (k = n)) :=
  Banks.line_set_or m.pending n k

/-- A scheduled step leaves every other line's pending bit as it was, and clears none. -/
theorem envApply_pending (r : InternalRegs) (m : MmioRegs) (e : EnvStep) (k : Line) :
    (envApply r m e).pending.line k =
      (m.pending.line k || (decide (e = .lineRaise k) && envEnabled r m e)) := by
  unfold envApply
  split
  · rename_i h
    cases e with
    | lineRaise n =>
      simp only [envEffect, raise_line, h, Bool.and_true, EnvStep.lineRaise.injEq]
      congr 1
      simp [eq_comm]
    | timerTick => simp [envEffect]
    | timerExpire =>
      simp only [envEffect]
      split <;> simp
  · rename_i h
    simp [h]

theorem envRun_pending_mono (r : InternalRegs) (es : List EnvStep) :
    ∀ (m : MmioRegs) (k : Line), m.pending.line k = true → (envRun r m es).pending.line k = true := by
  induction es with
  | nil => intro m k h; exact h
  | cons e es ih =>
    intro m k h
    rw [envRun_cons]
    exact ih _ k (by simp [envApply_pending, h])

/-- A line pending after a slot was pending before it or is raised in it. -/
theorem envRun_pending_of (r : InternalRegs) (es : List EnvStep) :
    ∀ (m : MmioRegs) (k : Line), (envRun r m es).pending.line k = true →
      m.pending.line k = true ∨ EnvStep.lineRaise k ∈ es := by
  induction es with
  | nil => intro m k h; exact .inl h
  | cons e es ih =>
    intro m k h
    rw [envRun_cons] at h
    rcases ih _ k h with h | h
    · simp only [envApply_pending, Bool.or_eq_true, Bool.and_eq_true, decide_eq_true_eq] at h
      rcases h with h | ⟨h, -⟩
      · exact .inl h
      · exact .inr (by simp [h])
    · exact .inr (by simp [h])

/-! ### The timer does not see the controller -/

/-- The registers the timer hardware reads and writes (R211). -/
def MmioRegs.sameTimer (m m' : MmioRegs) : Prop :=
  m.tCtl = m'.tCtl ∧ m.tIntv = m'.tIntv ∧ m.tCnt = m'.tCnt ∧ m.tpend = m'.tpend

theorem envApply_sameTimer (r : InternalRegs) {m m' : MmioRegs} (h : m.sameTimer m') (e : EnvStep) :
    (envApply r m e).sameTimer (envApply r m' e) := by
  obtain ⟨h1, h2, h3, h4⟩ := h
  have hen : envEnabled r m e = envEnabled r m' e := by
    cases e <;> simp [envEnabled, MmioRegs.canTick, MmioRegs.canExpire, MmioRegs.en, h1, h3, h4]
  unfold envApply
  rw [hen]
  split
  · cases e with
    | lineRaise n => exact ⟨h1, h2, h3, h4⟩
    | timerTick => exact ⟨h1, h2, by simp only [envEffect]; rw [h3], h4⟩
    | timerExpire =>
      have hs : m.single = m'.single := by simp only [MmioRegs.single, h1]
      cases hc : m'.single <;> simp [envEffect, MmioRegs.sameTimer, h1, h2, h3, hs, hc]
  · exact ⟨h1, h2, h3, h4⟩

theorem envRun_sameTimer (r : InternalRegs) (es : List EnvStep) :
    ∀ {m m' : MmioRegs}, m.sameTimer m' → (envRun r m es).sameTimer (envRun r m' es) := by
  induction es with
  | nil => intro m m' h; exact h
  | cons e es ih => intro m m' h; exact ih (envApply_sameTimer r h e)

/-- Pending bits that agree stay agreeing, where the timers agree too (R214 looks at TPEND). -/
theorem envRun_pending_congr (r : InternalRegs) (es : List EnvStep) (k : Line) :
    ∀ {m m' : MmioRegs}, m.sameTimer m' → m.pending.line k = m'.pending.line k →
      (envRun r m es).pending.line k = (envRun r m' es).pending.line k := by
  induction es with
  | nil => intro m m' _ h; exact h
  | cons e es ih =>
    intro m m' ht h
    refine ih (envApply_sameTimer r ht e) ?_
    obtain ⟨h1, -, h3, h4⟩ := ht
    have hen : envEnabled r m e = envEnabled r m' e := by
      cases e <;> simp [envEnabled, MmioRegs.canTick, MmioRegs.canExpire, MmioRegs.en, h1, h3, h4]
    rw [envApply_pending, envApply_pending, h, hen]

/-- A slot without timer steps leaves the timer's registers alone. -/
theorem envRun_timer_of_quiet (r : InternalRegs) (es : List EnvStep) :
    ∀ (m : MmioRegs), (∀ e ∈ es, e.isTimer = false) → (envRun r m es).sameTimer m := by
  induction es with
  | nil => intro m _; exact ⟨rfl, rfl, rfl, rfl⟩
  | cons e es ih =>
    intro m h
    rw [envRun_cons]
    have he := h e (by simp)
    obtain ⟨a, b, c, d⟩ := ih (envApply r m e) fun x hx => h x (by simp [hx])
    have hq : (envApply r m e).sameTimer m := by
      cases e with
      | lineRaise n => unfold envApply; split <;> exact ⟨rfl, rfl, rfl, rfl⟩
      | timerTick => simp [EnvStep.isTimer] at he
      | timerExpire => simp [EnvStep.isTimer] at he
    obtain ⟨a', b', c', d'⟩ := hq
    exact ⟨a.trans a', b.trans b', c.trans c', d.trans d'⟩

/-! ### Slots in a row -/

@[simp] theorem envSlots_zero (s : State) : s.envSlots 0 = s := rfl
theorem envSlots_succ (k : Nat) (s : State) : s.envSlots (k + 1) = s.envSlot.envSlots k := rfl
@[simp] theorem envSlots_one (s : State) : s.envSlots 1 = s.envSlot := rfl
theorem envSlots_two (s : State) : s.envSlots 2 = s.envSlot.envSlot := rfl
theorem envSlots_three (s : State) : s.envSlots 3 = s.envSlot.envSlot.envSlot := rfl

@[simp] theorem envSlots_internal (k : Nat) : ∀ s : State, (s.envSlots k).internal = s.internal := by
  induction k with
  | zero => intro s; rfl
  | succ k ih => intro s; rw [envSlots_succ, ih]; rfl

@[simp] theorem envSlots_env (k : Nat) : ∀ s : State, (s.envSlots k).env = s.env.drop k := by
  induction k with
  | zero => intro s; rfl
  | succ k ih => intro s; rw [envSlots_succ, ih]; simp

end Sys2Proof.Machine
end

