-- ==== Sys2Proof/Laws/Ops.lean ====
section
/-!
SUPPORT. What each shared operation can do, said once: the prologue (R202), the bus (R76, R77), the
domain lookup (R155) and the line operations (R140 to R146).
-/
namespace Sys2Proof.Machine

/-! ### The prologue -/

/-- A running core runs a permitted command's own rule. -/
theorem prologue_permitted {i : Instr} {s : State} {rule : State → Out}
    (hh : s.internal.halt = 0) (hp : permitted i s = true) : prologue i s rule = rule s := by
  simp [prologue, hh, hp]

/-- A halted core refuses. -/
theorem prologue_halted {i : Instr} {s : State} {rule : State → Out} (hh : s.internal.halt ≠ 0) :
    prologue i s rule = finish .xHalted (s.internal.halt.setWidth 32) s := if_pos hh

/-- A running core refuses a command out of its context or readiness. -/
theorem prologue_refused {i : Instr} {s : State} {rule : State → Out}
    (hh : s.internal.halt = 0) (hp : permitted i s = false) :
    prologue i s rule = finish .xContext 0 s := by
  simp [prologue, hh, hp]

/-- All a prologue can do: refuse with ST and RES alone, or run the rule of a permitted command of a
running core. -/
theorem prologue_cases (i : Instr) (s : State) (rule : State → Out) :
    (s.internal.halt ≠ 0 ∧
      prologue i s rule = .next (s.respond .xHalted (s.internal.halt.setWidth 32))) ∨
    (s.internal.halt = 0 ∧ permitted i s = false ∧
      prologue i s rule = .next (s.respond .xContext 0)) ∨
    (s.internal.halt = 0 ∧ permitted i s = true ∧ prologue i s rule = rule s) := by
  by_cases hh : s.internal.halt = 0
  · cases hp : permitted i s
    · exact .inr (.inl ⟨hh, rfl, prologue_refused hh hp⟩)
    · exact .inr (.inr ⟨hh, rfl, prologue_permitted hh hp⟩)
  · exact .inl ⟨hh, prologue_halted hh⟩

/-! ### The bus -/

@[simp] theorem busWrite_envSlot_internal (r : Reg) (v : Word) (s : State) :
    (busWrite r v s).envSlot.internal = s.internal := rfl

@[simp] theorem readModifyWrite_internal (r : Reg) (f : Word → Word) (s : State) :
    (readModifyWrite r f s).internal = s.internal := rfl
@[simp] theorem readModifyWrite_res (r : Reg) (f : Word → Word) (s : State) :
    (readModifyWrite r f s).res = s.res := rfl
@[simp] theorem readModifyWrite_st (r : Reg) (f : Word → Word) (s : State) :
    (readModifyWrite r f s).st = s.st := rfl
@[simp] theorem readModifyWrite_port (r : Reg) (f : Word → Word) (s : State) :
    (readModifyWrite r f s).port = s.port := rfl
@[simp] theorem readModifyWrite_cfg (r : Reg) (f : Word → Word) (s : State) :
    (readModifyWrite r f s).cfg = s.cfg := rfl
@[simp] theorem readModifyWrite_env (r : Reg) (f : Word → Word) (s : State) :
    (readModifyWrite r f s).env = s.env.tail.tail := rfl
@[simp] theorem readModifyWrite_mmio (r : Reg) (f : Word → Word) (s : State) :
    (readModifyWrite r f s).mmio = s.envSlot.envSlot.mmio.write r (f (s.envSlot.regValue r)) := rfl
@[simp] theorem readModifyWrite_trace (r : Reg) (f : Word → Word) (s : State) :
    (readModifyWrite r f s).trace = s.trace ++
      [.busRead (s.addrOf r) (s.envSlot.regValue r),
       .busWrite (s.addrOf r) (f (s.envSlot.regValue r))] := by
  show (s.trace ++ _) ++ _ = _
  rw [List.append_assoc]
  rfl
@[simp] theorem readModifyWrite_freeCount (r : Reg) (f : Word → Word) (s : State) :
    (readModifyWrite r f s).freeCount = s.freeCount + r.draws := rfl

theorem addrOf_congr {s t : State} (hi : s.internal = t.internal) (hc : s.cfg = t.cfg) (r : Reg) :
    s.addrOf r = t.addrOf r := by
  simp only [State.addrOf, hi, hc]

@[simp] theorem addrOf_afterRead (r q : Reg) (s : State) : (afterRead r s).addrOf q = s.addrOf q := rfl
@[simp] theorem addrOf_busWrite (r q : Reg) (v : Word) (s : State) :
    (busWrite r v s).addrOf q = s.addrOf q := rfl
@[simp] theorem addrOf_envSlot (q : Reg) (s : State) : s.envSlot.addrOf q = s.addrOf q := rfl
@[simp] theorem addrOf_readModifyWrite (r q : Reg) (f : Word → Word) (s : State) :
    (readModifyWrite r f s).addrOf q = s.addrOf q := rfl

/-! Writes one after another. -/

@[simp] theorem busWrites_nil (s : State) : busWrites [] s = s := rfl
theorem busWrites_cons (w : Reg × Word) (ws : List (Reg × Word)) (s : State) :
    busWrites (w :: ws) s = busWrites ws (busWrite w.1 w.2 s) := rfl

@[simp] theorem busWrites_internal (ws : List (Reg × Word)) :
    ∀ s : State, (busWrites ws s).internal = s.internal := by
  induction ws with
  | nil => intro s; rfl
  | cons w ws ih => intro s; rw [busWrites_cons, ih]; rfl
@[simp] theorem busWrites_port (ws : List (Reg × Word)) :
    ∀ s : State, (busWrites ws s).port = s.port := by
  induction ws with
  | nil => intro s; rfl
  | cons w ws ih => intro s; rw [busWrites_cons, ih]; rfl
@[simp] theorem busWrites_cfg (ws : List (Reg × Word)) :
    ∀ s : State, (busWrites ws s).cfg = s.cfg := by
  induction ws with
  | nil => intro s; rfl
  | cons w ws ih => intro s; rw [busWrites_cons, ih]; rfl
@[simp] theorem busWrites_freeCount (ws : List (Reg × Word)) :
    ∀ s : State, (busWrites ws s).freeCount = s.freeCount := by
  induction ws with
  | nil => intro s; rfl
  | cons w ws ih => intro s; rw [busWrites_cons, ih]; rfl
@[simp] theorem busWrites_env (ws : List (Reg × Word)) :
    ∀ s : State, (busWrites ws s).env = s.env.drop ws.length := by
  induction ws with
  | nil => intro s; rfl
  | cons w ws ih => intro s; rw [busWrites_cons, ih]; simp
theorem busWrites_trace (ws : List (Reg × Word)) :
    ∀ s : State, (busWrites ws s).trace =
      s.trace ++ ws.map fun w => Obs.busWrite (s.addrOf w.1) w.2 := by
  induction ws with
  | nil => intro s; simp
  | cons w ws ih =>
    intro s
    rw [busWrites_cons, ih]
    simp

/-! ### The domain -/

theorem lookup_mapped {s : State} {n : Line} {id : Word} (h : s.internal.map[n] = some id) :
    s.lookup n = .found id := by
  simp [State.lookup, h]

theorem lookup_unmapped {s : State} {n : Line} (h : s.internal.map[n] = none)
    (hc : s.internal.nmapped.toNat ≠ 96) :
    s.lookup n = .allocated (s.internal.alloc s.cfg.idPool) := by
  simp [State.lookup, h, Config.capacity, hc]

theorem lookup_full {s : State} {n : Line} (h : s.internal.map[n] = none)
    (hc : s.internal.nmapped.toNat = 96) : s.lookup n = .full := by
  simp [State.lookup, h, Config.capacity, hc]

/-- All `resolve(n)` can do (R155). -/
theorem resolveThen_cases (n : Line) (s : State) (go : Word → State → Out) :
    (∃ id, s.internal.map[n] = some id ∧ resolveThen n s go = go id s) ∨
    (s.internal.map[n] = none ∧ s.internal.nmapped.toNat ≠ 96 ∧
      resolveThen n s go =
        go (s.internal.alloc s.cfg.idPool) (s.mapLine n (s.internal.alloc s.cfg.idPool))) ∨
    (s.internal.map[n] = none ∧ s.internal.nmapped.toNat = 96 ∧
      resolveThen n s go = raiseFatal .fDomainFull (BitVec.ofNat 32 n.val) s) := by
  cases h : s.internal.map[n] with
  | some id =>
    refine .inl ⟨id, rfl, ?_⟩
    simp only [resolveThen, lookup_mapped h]
  | none =>
    by_cases hc : s.internal.nmapped.toNat = 96
    · refine .inr (.inr ⟨rfl, hc, ?_⟩)
      simp only [resolveThen, lookup_full h hc]
    · refine .inr (.inl ⟨rfl, hc, ?_⟩)
      simp only [resolveThen, lookup_unmapped h hc]

theorem inUse_iff {r : InternalRegs} {id : Word} :
    r.inUse id = true ↔ ∃ n : Line, r.map[n] = some id := by
  simp only [InternalRegs.inUse, List.contains_iff_mem, Vector.mem_toList_iff, Vector.mem_iff_getElem]
  constructor
  · rintro ⟨i, hi, h⟩
    exact ⟨⟨i, hi⟩, h⟩
  · rintro ⟨n, h⟩
    exact ⟨n.val, n.isLt, h⟩

/-- `line_of` answers a line with the identifier (R38). -/
theorem lineOf_some {r : InternalRegs} {id : Word} {n : Line} (h : r.lineOf id = some n) :
    r.map[n] = some id := by
  simpa using List.find?_some h

theorem lineOf_none {r : InternalRegs} {id : Word} :
    r.lineOf id = none ↔ ∀ n : Line, r.map[n] ≠ some id := by
  simp [InternalRegs.lineOf]

/-- Where identifiers are distinct, `line_of` finds the one line (R36 a, R38). -/
theorem lineOf_eq {r : InternalRegs} {id : Word} {n : Line} (h : r.map[n] = some id)
    (hd : ∀ (m k : Line) (i : Word), r.map[m] = some i → r.map[k] = some i → m = k) :
    r.lineOf id = some n := by
  cases hl : r.lineOf id with
  | none => exact absurd h (lineOf_none.mp hl n)
  | some m => rw [hd m n id (lineOf_some hl) h]

/-! ### The entry of a line under the updates of the table -/

theorem map_set_get (m : Vector (Option Word) 96) (n k : Line) (id : Word) :
    (m.set n.val (some id))[k] = if k = n then some id else m[k] := by
  simp only [Fin.getElem_fin, Vector.getElem_set]
  by_cases h : k = n
  · simp [h]
  · have : n.val ≠ k.val := fun h' => h (Fin.ext h'.symm)
    simp [h, this]

theorem isBound_bindLine (s : State) (n k : Line) :
    (s.bindLine n).internal.isBound k = (s.internal.isBound k || decide (k = n)) := by
  have hk := k.isLt
  simp only [InternalRegs.isBound, bindLine_internal_bound, BitVec.getLsbD_or,
    BitVec.getLsbD_shiftLeft, BitVec.getLsbD_one]
  congr 1
  by_cases h : k = n
  · simp [h]
  · have h' : k.val ≠ n.val := fun e => h (Fin.ext e)
    by_cases hlt : k.val < n.val
    · simp [hlt, h]
    · have : k.val - n.val ≠ 0 := by omega
      simp [h, this]

end Sys2Proof.Machine
end

