-- ==== Sys2Proof/Laws/Exec.lean ====
section
/-!
SUPPORT. Every command is its prologue and its rule (R202): one lemma that says what `exec` is, one that
says all it can do, and one for each rule that says all the rule can do.
-/
namespace Sys2Proof.Machine

/-- The rule of a command, run when the prologue lets it through (R202); the term that writes VECTOR is
no command and has none. -/
def ruleOf : Instr → State → Out
  | .rd k b => readRule (.banked k b)
  | .wr k b v => writeRule (.banked k b) v
  | .rdg g => readRule (regOf g)
  | .wrg .vector _ => illegalCommand
  | .wrg .protect v => writeRule .protect v
  | .wrg .nmiType v => writeRule .nmiType v
  | .ack n => byLine .ack n ackLine
  | .mask n => byLine .mask n maskLine
  | .unmask n => byLine .unmask n unmaskLine
  | .lack id => byId id ackLine
  | .lmask id => byId id maskLine
  | .lunmask id => byId id unmaskLine
  | .init base => initRule base
  | .resolve n => resolveRule n
  | .install id => installRule id
  | .irqEntry => irqEntryRule
  | .dispatchRet => returnRule
  | .tinit line base => tinitRule line base
  | .setMode m => setModeRule m
  | .setNextEvent d => setNextEventRule d
  | .timerIrq => timerIrqRule
  | .tickRet => returnRule
  | .ns2t x => computeRule fun r => ns2t r.mult x
  | .t2ns x => computeRule fun r => saturate (t2ns r.mult.toNat x.toNat)
  | .getmin => computeRule InternalRegs.minNs
  | .getmax => computeRule InternalRegs.maxNs

/-- A well-formed command is its prologue and its rule. -/
theorem exec_eq_prologue {i : Instr} (hw : i.wellFormed = true) (s : State) :
    exec i s = prologue i s (ruleOf i) := by
  cases i with
  | wrg g v =>
    cases g with
    | vector => exact absurd hw (by simp [Instr.wellFormed])
    | protect => rfl
    | nmiType => rfl
  | _ => rfl

/-- The term that writes VECTOR does what an illegal word does (R118). -/
theorem exec_wrg_vector (v : Word) (s : State) :
    exec (.wrg .vector v) s = .next (s.respond .xIllegal 0) := rfl

/-- A running core runs the rule of a permitted command. -/
theorem exec_permitted {i : Instr} {s : State} (hw : i.wellFormed = true)
    (hh : s.internal.halt = 0) (hp : permitted i s = true) : exec i s = ruleOf i s := by
  rw [exec_eq_prologue hw, prologue_permitted hh hp]

theorem exec_halted {i : Instr} {s : State} (hw : i.wellFormed = true)
    (hh : s.internal.halt ≠ 0) :
    exec i s = .next (s.respond .xHalted (s.internal.halt.setWidth 32)) := by
  rw [exec_eq_prologue hw, prologue_halted hh]
  rfl

theorem exec_refused {i : Instr} {s : State} (hw : i.wellFormed = true)
    (hh : s.internal.halt = 0) (hp : permitted i s = false) :
    exec i s = .next (s.respond .xContext 0) := by
  rw [exec_eq_prologue hw, prologue_refused hh hp]
  rfl

/-- All a command can do: answer a refusal that changes ST and RES alone, or, permitted in a running
core, run its rule. -/
theorem exec_cases (i : Instr) (s : State) :
    (∃ e v, (e = .xIllegal ∨ e = .xHalted ∨ e = .xContext) ∧
      exec i s = .next (s.respond e v)) ∨
    (i.wellFormed = true ∧ s.internal.halt = 0 ∧ permitted i s = true ∧
      exec i s = ruleOf i s) := by
  cases hw : i.wellFormed
  · refine .inl ⟨.xIllegal, 0, .inl rfl, ?_⟩
    cases i <;> simp only [Instr.wellFormed, Bool.true_eq_false] at hw
    case wrg g v =>
      have hg : g = .vector := by cases g <;> simp at hw ⊢
      subst hg
      rfl
  · by_cases hh : s.internal.halt = 0
    · cases hp : permitted i s
      · exact .inl ⟨.xContext, 0, .inr (.inr rfl), exec_refused hw hh hp⟩
      · exact .inr ⟨rfl, hh, rfl, exec_permitted hw hh hp⟩
    · exact .inl ⟨.xHalted, _, .inr (.inl rfl), exec_halted hw hh⟩

/-! ### All each rule can do -/

theorem byLine_cases (cmd : ContractCommand) (n : Word) (op : Line → State → State) (s : State) :
    (∃ l : Line, n.toNat = l.val ∧ byLine cmd n op s = .next ((op l s).respond .ok 0)) ∨
    (96 ≤ n.toNat ∧ byLine cmd n op s = .fault (.contract cmd n)) := by
  unfold byLine
  cases h : line? n with
  | none => exact .inr ⟨line?_eq_none.mp h, rfl⟩
  | some l => exact .inl ⟨l, line?_eq_some.mp h, rfl⟩

theorem byId_cases (id : Word) (op : Line → State → State) (s : State) :
    (∃ l : Line, s.internal.map[l] = some id ∧ s.internal.isBound l = true ∧
      byId id op s = .next ((op l s).respond .ok 0)) ∨
    byId id op s = .next (s.respond .xUnbound id) := by
  unfold byId InternalRegs.boundLine
  cases h : s.internal.lineOf id with
  | none => exact .inr rfl
  | some l =>
    cases hb : s.internal.isBound l
    · exact .inr (by simp [hb, finish])
    · exact .inl ⟨l, lineOf_some h, hb, by simp [hb, finish]⟩

theorem initRule_cases (base : Word) (s : State) :
    (mappable s .intc base = true ∧ initRule base s =
      .next ((busWrites initWrites (s.setIntcBase base)).setIntcReady.respond .ok 0)) ∨
    (mappable s .intc base = false ∧ initRule base s = raiseFatal .fNoBase base s) := by
  unfold initRule
  cases h : mappable s .intc base
  · exact .inr ⟨rfl, by simp⟩
  · exact .inl ⟨rfl, by simp only [if_true]; rfl⟩

theorem resolveRule_cases (n : Word) (s : State) :
    (∃ l : Line, n.toNat = l.val ∧ resolveRule n s = resolveThen l s (finish .ok)) ∨
    (96 ≤ n.toNat ∧ resolveRule n s = .fault (.contract .resolve n)) := by
  unfold resolveRule
  cases h : line? n with
  | none => exact .inr ⟨line?_eq_none.mp h, rfl⟩
  | some l => exact .inl ⟨l, line?_eq_some.mp h, rfl⟩

theorem installRule_cases (id : Word) (s : State) :
    (∃ l : Line, s.internal.map[l] = some id ∧
      installRule id s = .next ((s.bindLine l).respond .ok (BitVec.ofNat 32 l.val))) ∨
    installRule id s = .next (s.respond .xUnbound id) := by
  unfold installRule
  cases h : s.internal.lineOf id with
  | none => exact .inr rfl
  | some l => exact .inl ⟨l, lineOf_some h, rfl⟩

theorem vector_line {v : Word} : (v >>> Config.vecShift).toNat = v.toNat / 4 := by
  simp [Config.vecShift, Nat.shiftRight_eq_div_pow]

theorem dispatchVector_cases (v : Word) (s : State) :
    (∃ l : Line, v.toNat / 4 = l.val ∧ dispatchVector v s = resolveThen l s dispatchId) ∨
    (96 ≤ v.toNat / 4 ∧ dispatchVector v s =
      .next ((enterCallback .dispatch (.dispatch 0) (s.emit (.log 1))).respond .eSpurious 0)) := by
  unfold dispatchVector
  cases h : line? (v >>> Config.vecShift) with
  | none => exact .inr ⟨by rw [← vector_line]; exact line?_eq_none.mp h, rfl⟩
  | some l => exact .inl ⟨l, by rw [← vector_line]; exact line?_eq_some.mp h, rfl⟩

theorem tinitRule_cases (line : BitVec 8) (base : Word) (s : State) :
    (mappable s .tmr base = true ∧ line.toNat ≤ 95 ∧ tinitRule line base s =
      .next ((s.registerTimer line base).respond .ok (BitVec.ofNat 32 (multiplier s.cfg)))) ∨
    (mappable s .tmr base = true ∧ 96 ≤ line.toNat ∧
      tinitRule line base s = raiseFatal .fNoIrq (line.setWidth 32) s) ∨
    (mappable s .tmr base = false ∧ tinitRule line base s = raiseFatal .fNoBase base s) := by
  unfold tinitRule
  cases h : mappable s .tmr base
  · exact .inr (.inr ⟨rfl, by simp⟩)
  · by_cases hl : line.toNat ≤ 95
    · exact .inl ⟨rfl, hl, by simp only [hl, if_true]; rfl⟩
    · exact .inr (.inl ⟨rfl, by omega, by simp [hl]⟩)

theorem deltaOk_iff (d : Word) : deltaOk d = true ↔ 1 ≤ d.toNat ∧ d.toNat ≤ 255 := by
  unfold deltaOk
  rw [Bool.and_eq_true, decide_eq_true_iff, decide_eq_true_iff]
  exact Iff.rfl

theorem setNextEventRule_cases (d : Word) (s : State) :
    (1 ≤ d.toNat ∧ d.toNat ≤ 255 ∧
      setNextEventRule d s = .next ((programNextEvent d s).respond .ok 0)) ∨
    ((d.toNat = 0 ∨ 256 ≤ d.toNat) ∧ setNextEventRule d s = .fault (.contract .setNextEvent d)) := by
  unfold setNextEventRule
  by_cases h : deltaOk d = true
  · obtain ⟨h1, h2⟩ := (deltaOk_iff d).mp h
    exact .inl ⟨h1, h2, by rw [if_pos h]; rfl⟩
  · refine .inr ⟨?_, by rw [if_neg h]; rfl⟩
    rw [deltaOk_iff] at h
    omega

end Sys2Proof.Machine
end

