-- ==== Sys2Proof/Laws/Accesses.lean ====
section
/-!
SUPPORT. Which registers each command writes (R78), said once: the registers and the recorded moments
after a command that answers are those after a list of accesses, each preceded by its environment slot,
whose writes are those the table of R78 gives the command.
-/
namespace Sys2Proof.Machine

/-- The writes a command may make, a register and a value each (R78). -/
def mayWrite : Instr → Reg × Word → Prop
  | .wr k b v, w => w = (.banked k b, v)
  | .wrg g v, w => w = (regOf g, v)
  | .ack _, w | .lack _, w => ∃ b, w.1 = .banked .pending b
  | .mask _, w | .lmask _, w => ∃ b, w.1 = .banked .enable b
  | .unmask _, w | .lunmask _, w => (∃ b, w.1 = .banked .enable b) ∨ w.1 = .banked .pending .b0
  | .init _, w => w ∈ initWrites
  | .setMode m, w => w.1 = .tCtl ∨ (m = .periodic ∧ w.1 = .tIntv)
  | .setNextEvent d, w => (w = (.tCnt, d) ∧ 1 ≤ d.toNat) ∨ w.1 = .tCtl
  | .timerIrq, w => w = (.tIrqst, 1)
  | .rd _ _, _ | .rdg _, _ | .resolve _, _ | .install _, _ | .irqEntry, _ | .dispatchRet, _
  | .tinit _ _, _ | .tickRet, _ | .ns2t _, _ | .t2ns _, _ | .getmin, _ | .getmax, _ => False

/-- The registers and the moments recorded so far. -/
structure Board where
  regs : MmioRegs
  moments : List Moment

def State.board (s : State) : Board := ⟨s.mmio, s.history⟩

/-- One slot on a board. -/
def Board.slot (b : Board) (r : InternalRegs) (es : List EnvStep) : Board :=
  ⟨envRun r b.regs es, b.moments ++ slotMoments r b.regs es⟩

/-- One access on a board: `none` is a read, `some` a write. -/
def Board.access (b : Board) : Option (Reg × Word) → Board
  | none => b
  | some w => ⟨b.regs.write w.1 w.2, b.moments⟩

/-- Accesses one after another, each after its environment slot. -/
def accessRun (r : InternalRegs) :
    List (Option (Reg × Word)) → List (List EnvStep) → Board → Board
  | [], _, b => b
  | a :: l, env, b => accessRun r l env.tail ((b.slot r (env.headD [])).access a)

@[simp] theorem accessRun_nil (r : InternalRegs) (env : List (List EnvStep)) (b : Board) :
    accessRun r [] env b = b := rfl
theorem accessRun_cons (r : InternalRegs) (a : Option (Reg × Word)) (l : List (Option (Reg × Word)))
    (env : List (List EnvStep)) (b : Board) :
    accessRun r (a :: l) env b =
      accessRun r l env.tail ((b.slot r (env.headD [])).access a) := rfl

theorem envSlot_board (s : State) :
    s.envSlot.board = s.board.slot s.internal (s.env.headD []) := rfl

theorem slot_congr {r r' : InternalRegs} (hr : r.tmrReady = r'.tmrReady)
    (hl : r.timerLine = r'.timerLine) (b : Board) (es : List EnvStep) : b.slot r es = b.slot r' es := by
  have he : ∀ m e, envEnabled r m e = envEnabled r' m e := by
    intro m e
    cases e <;> simp only [envEnabled, hr, hl]
  have hm : ∀ m, slotMoments r m es = slotMoments r' m es := by
    induction es with
    | nil => intro m; rfl
    | cons e es ih => intro m; simp only [slotMoments, envTaken, envApply, he, ih]
  simp only [Board.slot, hm, envRun_internal_congr hr hl]

/-- The run looks at nothing of the core's own state but the timer's line. -/
theorem accessRun_congr {r r' : InternalRegs} (hr : r.tmrReady = r'.tmrReady)
    (hl : r.timerLine = r'.timerLine) (l : List (Option (Reg × Word))) :
    ∀ (env : List (List EnvStep)) (b : Board), accessRun r l env b = accessRun r' l env b := by
  induction l with
  | nil => intro env b; rfl
  | cons a l ih => intro env b; rw [accessRun_cons, accessRun_cons, slot_congr hr hl, ih]

/-- The board after writes in a row. -/
theorem busWrites_board (ws : List (Reg × Word)) :
    ∀ s : State, (busWrites ws s).board = accessRun s.internal (ws.map some) s.env s.board := by
  induction ws with
  | nil => intro s; rfl
  | cons w ws ih => intro s; rw [busWrites_cons, ih]; rfl

/-- The board after a command is that after a list of accesses that R78 allows it. -/
def HasAccesses (i : Instr) (s : State) (b : Board) : Prop :=
  ∃ l : List (Option (Reg × Word)), l.length ≤ 11 ∧ (∀ w, some w ∈ l → mayWrite i w) ∧
    b = accessRun s.internal l s.env s.board

theorem HasAccesses.none (i : Instr) (s : State) : HasAccesses i s s.board :=
  ⟨[], by simp, by simp, rfl⟩

theorem HasAccesses.read (i : Instr) (s : State) : HasAccesses i s s.envSlot.board :=
  ⟨[.none], by simp, by simp, rfl⟩

theorem HasAccesses.write {i : Instr} {r : Reg} (v : Word) (s : State) (h : mayWrite i (r, v)) :
    HasAccesses i s (busWrite r v s).board :=
  ⟨[some (r, v)], by simp, by simpa using h, rfl⟩

theorem HasAccesses.readModifyWrite {i : Instr} {r : Reg} (f : Word → Word) (s : State)
    (h : ∀ v, mayWrite i (r, v)) : HasAccesses i s (readModifyWrite r f s).board :=
  ⟨[.none, some (r, f (readValue r s))], by simp, by simpa using h _, rfl⟩

theorem HasAccesses.writeThenModify {i : Instr} {q r : Reg} (v : Word) (f : Word → Word) (s : State)
    (hq : mayWrite i (q, v)) (hr : ∀ v, mayWrite i (r, v)) :
    HasAccesses i s (Machine.readModifyWrite r f (busWrite q v s)).board := by
  refine ⟨[some (q, v), .none, some (r, f (readValue r (busWrite q v s)))], by simp, ?_, rfl⟩
  intro w hw
  simp only [List.mem_cons, Option.some.injEq, reduceCtorEq, List.not_mem_nil, or_false,
    false_or] at hw
  rcases hw with rfl | rfl
  · exact hq
  · exact hr _

theorem hasAccesses_unmask {i : Instr} (n : Line) (s : State)
    (he : ∀ v, mayWrite i (.banked .enable (bankOf n), v))
    (hp : ∀ v, mayWrite i (.banked .pending .b0, v)) : HasAccesses i s (unmaskLine n s).board := by
  unfold unmaskLine
  split
  · refine ⟨[.none, some (.banked .enable (bankOf n), _), some (.banked .pending .b0, 1)], by simp,
      ?_, rfl⟩
    intro w hw
    simp only [List.mem_cons, Option.some.injEq, reduceCtorEq, List.not_mem_nil, or_false,
      false_or] at hw
    rcases hw with rfl | rfl
    · exact he _
    · exact hp _
  · exact HasAccesses.readModifyWrite _ s he

/-- An outcome whose board, if it answers, is that of such a list. -/
def AnswersWith (i : Instr) (s : State) (o : Out) : Prop := ∀ t, o = .next t → HasAccesses i s t.board

theorem AnswersWith.of_next {i : Instr} {s : State} {o : Out} {u : State} (ho : o = .next u)
    (h : HasAccesses i s u.board) : AnswersWith i s o := by
  intro t ht
  rw [ho, Host.Outcome.next.injEq] at ht
  exact ht ▸ h

theorem AnswersWith.of_fault {i : Instr} {s : State} {o : Out} {f : Fault} (ho : o = .fault f) :
    AnswersWith i s o := by
  intro t ht
  rw [ho] at ht
  cases ht

theorem answersWith_byLine {i : Instr} {s : State} (cmd : ContractCommand) (n : Word)
    (op : Line → State → State) (h : ∀ l, HasAccesses i s (op l s).board) :
    AnswersWith i s (byLine cmd n op s) := by
  rcases byLine_cases cmd n op s with ⟨l, -, h'⟩ | ⟨-, h'⟩
  · exact .of_next h' (h l)
  · exact .of_fault h'

theorem answersWith_byId {i : Instr} {s : State} (id : Word) (op : Line → State → State)
    (h : ∀ l, HasAccesses i s (op l s).board) : AnswersWith i s (byId id op s) := by
  rcases byId_cases id op s with ⟨l, -, -, h'⟩ | h'
  · exact .of_next h' (h l)
  · exact .of_next h' (.none i s)

theorem answersWith_resolve {i : Instr} {s u : State} (n : Line) (go : Word → State → Out)
    (hu : HasAccesses i s u.board)
    (hgo : ∀ id v, v.board = u.board → AnswersWith i s (go id v)) :
    AnswersWith i s (resolveThen n u go) := by
  rcases resolveThen_cases n u go with ⟨id, -, h⟩ | ⟨-, -, h⟩ | ⟨-, -, h⟩
  · rw [h]; exact hgo id u rfl
  · rw [h]; exact hgo _ _ rfl
  · exact .of_next h hu

theorem answersWith_next {i : Instr} {s v : State} {b : Board} (hv : v.board = b)
    (h : HasAccesses i s b) : AnswersWith i s (.next v) := .of_next rfl (hv ▸ h)

theorem answersWith_compute (i : Instr) (s : State) (f : InternalRegs → Word) :
    AnswersWith i s (computeRule f s) :=
  .of_next (rfl : computeRule f s = .next (s.respond .ok (f s.internal))) (.none i s)

/-- Every command writes what R78 allows it, and nothing else. -/
theorem exec_accesses {i : Instr} {s t : State} (he : exec i s = .next t) :
    HasAccesses i s t.board := by
  suffices h : AnswersWith i s (exec i s) from h t he
  clear he t
  rcases exec_cases i s with ⟨e, v, -, h⟩ | ⟨-, -, -, h⟩
  · exact .of_next h (.none i s)
  rw [h]
  cases i with
  | rd k b => exact .of_next rfl (.read _ s)
  | wr k b v => exact .of_next rfl (.write v s (by simp [mayWrite]))
  | rdg g => exact .of_next rfl (.read _ s)
  | wrg g v =>
    cases g with
    | vector => exact .of_next rfl (.none _ s)
    | protect => exact .of_next rfl (HasAccesses.write (i := .wrg .protect v) (r := .protect) v s rfl)
    | nmiType => exact .of_next rfl (HasAccesses.write (i := .wrg .nmiType v) (r := .nmiType) v s rfl)
  | ack n => exact answersWith_byLine _ n _ fun l => .write _ s (by simp [mayWrite])
  | mask n => exact answersWith_byLine _ n _ fun l => .readModifyWrite _ s (by simp [mayWrite])
  | unmask n => exact answersWith_byLine _ n _ fun l =>
    hasAccesses_unmask l s (by simp [mayWrite]) (by simp [mayWrite])
  | lack id => exact answersWith_byId id _ fun l => .write _ s (by simp [mayWrite])
  | lmask id => exact answersWith_byId id _ fun l => .readModifyWrite _ s (by simp [mayWrite])
  | lunmask id => exact answersWith_byId id _ fun l =>
    hasAccesses_unmask l s (by simp [mayWrite]) (by simp [mayWrite])
  | init base =>
    rcases initRule_cases base s with ⟨-, h'⟩ | ⟨-, h'⟩
    · refine .of_next h' ⟨initWrites.map some, by decide, ?_, ?_⟩
      · intro w hw
        obtain ⟨w', hw', he⟩ := List.mem_map.mp hw
        cases he
        exact hw'
      · show (busWrites initWrites (s.setIntcBase base)).board = _
        rw [busWrites_board]
        exact accessRun_congr (r := (s.setIntcBase base).internal) (r' := s.internal) rfl rfl _ _ _
    · exact .of_next h' (.none _ s)
  | resolve n =>
    rcases resolveRule_cases n s with ⟨l, -, h'⟩ | ⟨-, h'⟩
    · intro t ht
      exact answersWith_resolve l _ (.none _ s)
        (fun id v hv => answersWith_next (v := v.respond .ok id) hv (.none _ s)) t (h'.symm.trans ht)
    · exact .of_fault h'
  | install id =>
    rcases installRule_cases id s with ⟨l, -, h'⟩ | h'
    · exact .of_next h' (.none _ s)
    · exact .of_next h' (.none _ s)
  | irqEntry =>
    rcases dispatchVector_cases (readValue .vector s) (afterRead .vector s) with ⟨l, -, h'⟩ | ⟨-, h'⟩
    · intro t ht
      refine answersWith_resolve l _ (HasAccesses.read _ s) (u := afterRead .vector s)
        (fun id v hv => ?_) t (h'.symm.trans ht)
      exact answersWith_next (v := (enterCallback .dispatch (.dispatch id) v).respond .ok id) hv
        (.read _ s)
    · exact .of_next h' (.read _ s)
  | dispatchRet => exact .of_next rfl (.none _ s)
  | tinit line base =>
    rcases tinitRule_cases line base s with ⟨-, -, h'⟩ | ⟨-, -, h'⟩ | ⟨-, h'⟩
    · exact .of_next h' (.none _ s)
    · exact .of_next h' (.none _ s)
    · exact .of_next h' (.none _ s)
  | setMode m =>
    cases m with
    | disabled =>
      exact .of_next rfl
        (HasAccesses.readModifyWrite (i := .setMode .disabled) (r := .tCtl)
          (fun c => c &&& ~~~ctlEn) s fun _ => .inl rfl)
    | periodic =>
      exact .of_next rfl
        (HasAccesses.writeThenModify (i := .setMode .periodic) (q := .tIntv) (r := .tCtl)
          (BitVec.ofNat 32 (interval s.cfg)) (fun c => (c &&& ~~~ctlSingle) ||| ctlEn) s
          (.inr ⟨rfl, rfl⟩) fun _ => .inl rfl)
    | oneshot =>
      exact .of_next rfl
        (HasAccesses.readModifyWrite (i := .setMode .oneshot) (r := .tCtl)
          (fun c => c ||| ctlSingle) s fun _ => .inl rfl)
    | unused =>
      exact .of_next rfl
        (HasAccesses.readModifyWrite (i := .setMode .unused) (r := .tCtl)
          (fun c => c &&& ~~~ctlEn) s fun _ => .inl rfl)
  | setNextEvent d =>
    rcases setNextEventRule_cases d s with ⟨h1, -, h'⟩ | ⟨-, h'⟩
    · exact .of_next h'
        (HasAccesses.writeThenModify (i := .setNextEvent d) (q := .tCnt) (r := .tCtl)
          d (fun c => c ||| ctlReload ||| ctlEn) s
          (.inl ⟨rfl, h1⟩) fun _ => .inr rfl)
    · exact .of_fault h'
  | timerIrq => exact .of_next rfl (HasAccesses.write (i := .timerIrq) (r := .tIrqst) 1 s rfl)
  | tickRet => exact .of_next rfl (.none _ s)
  | ns2t x => exact answersWith_compute _ s fun r => ns2t r.mult x
  | t2ns x => exact answersWith_compute _ s fun r => saturate (t2ns r.mult.toNat x.toNat)
  | getmin => exact answersWith_compute _ s _
  | getmax => exact answersWith_compute _ s _

end Sys2Proof.Machine
end

