-- ==== Sys2Proof/Laws/Bus.lean ====
section
/-!
SUPPORT. Windows and register addresses (R71 to R73, R129): what `Mappable` says of a base, that a window
holds its registers, and that in an admissible machine each register of a window has an aligned address of
its own, so that an address finds its register (R74).
-/
namespace Sys2Proof.Machine

/-! ### Windows -/

theorem le_foldl_max (l : List Nat) : ∀ a, a ≤ l.foldl max a ∧ ∀ e ∈ l, e ≤ l.foldl max a := by
  induction l with
  | nil => intro a; simp
  | cons b l ih =>
    intro a
    obtain ⟨ha, hl⟩ := ih (max a b)
    rw [List.foldl_cons]
    refine ⟨by omega, fun e he => ?_⟩
    rcases List.mem_cons.mp he with rfl | h
    · omega
    · exact hl e h

theorem foldl_max_eq {l : List Nat} : ∀ {a : Nat}, (∀ e ∈ l, e ≤ a) → l.foldl max a = a := by
  induction l with
  | nil => intro a _; rfl
  | cons b l ih =>
    intro a h
    rw [List.foldl_cons, Nat.max_eq_left (h b (by simp))]
    exact ih fun e he => h e (by simp [he])

/-- A window holds its registers. -/
theorem windowEnds_le (p : Params) (w : Window) : ∀ e ∈ windowEnds p w, e ≤ windowSize p w :=
  (le_foldl_max _ _).2

/-- In an admissible machine a window has the size the configuration gives it (R71, R72). -/
theorem windowSize_admissible {p : Params} (h : p.Admissible) (w : Window) :
    windowSize p w = configuredSize p w := by
  obtain ⟨-, -, -, -, -, -, -, -, -, -, -, hi, ht, -, -⟩ := h
  cases w
  · exact foldl_max_eq hi
  · exact foldl_max_eq ht

theorem mappableAlone_iff {p : Params} {w : Window} {base : Word} :
    mappableAlone p w base = true ↔ base.toNat % 4 = 0 ∧ base.toNat + windowSize p w ≤ 2 ^ 32 ∧
      ∃ r ∈ p.mappedRanges, r.1 ≤ base ∧ base ≤ r.2 := by
  simp only [mappableAlone, Bool.and_eq_true, decide_eq_true_eq, List.any_eq_true, and_assoc]

theorem apart_iff {a m b n : Nat} : apart a m b n = true ↔ a + m ≤ b ∨ b + n ≤ a := by
  simp only [apart, Bool.or_eq_true, decide_eq_true_eq]

theorem windowFree_iff {p : Params} {r : InternalRegs} {w : Window} {base : Word} :
    windowFree p r w base = true ↔
      (r.windowReady w.other = true → apart base.toNat (windowSize p w)
        (r.windowBase w.other).toNat (windowSize p w.other) = true) := by
  unfold windowFree
  cases r.windowReady w.other <;> simp

theorem mappable_iff {s : State} {w : Window} {base : Word} :
    mappable s w base = true ↔
      mappableAlone s.cfg w base = true ∧ windowFree s.cfg s.internal w base = true :=
  Bool.and_eq_true _ _ ▸ Iff.rfl

/-! ### Addresses -/

theorem intcAll_offsets (p : Params) : Reg.intcAll.map (offsetOf p) = p.intcOffsets := rfl
theorem tmrAll_offsets (p : Params) : Reg.tmrAll.map (offsetOf p) = p.tmrOffsets := rfl

theorem addrOf_intc (s : State) {r : Reg} (h : r ∈ Reg.intcAll) :
    s.addrOf r = s.internal.intcBase + offsetOf s.cfg r := by
  simp only [Reg.intcAll, List.mem_cons, List.not_mem_nil, or_false] at h
  rcases h with rfl | rfl | rfl | rfl | rfl | rfl | rfl | rfl | rfl | rfl | rfl | rfl <;> rfl

theorem addrOf_tmr (s : State) {r : Reg} (h : r ∈ Reg.tmrAll) :
    s.addrOf r = s.internal.tmrBase + offsetOf s.cfg r := by
  simp only [Reg.tmrAll, List.mem_cons, List.not_mem_nil, or_false] at h
  rcases h with rfl | rfl | rfl | rfl <;> rfl

theorem add_aligned {b o : Word} (hb : b.toNat % 4 = 0) (ho : o.toNat % 4 = 0) :
    (b + o).toNat % 4 = 0 := by
  rw [BitVec.toNat_add]; omega

/-- Two controller registers have two addresses. -/
theorem addrOf_intc_inj {s : State} (h : s.cfg.intcOffsets.Nodup) {q r : Reg}
    (hq : q ∈ Reg.intcAll) (hr : r ∈ Reg.intcAll) (he : s.addrOf q = s.addrOf r) : q = r := by
  rw [addrOf_intc s hq, addrOf_intc s hr] at he
  rw [← intcAll_offsets] at h
  exact List.inj_on_of_nodup_map h hq hr (add_left_cancel he)

/-- Two timer registers have two addresses. -/
theorem addrOf_tmr_inj {s : State} (h : s.cfg.tmrOffsets.Nodup) {q r : Reg}
    (hq : q ∈ Reg.tmrAll) (hr : r ∈ Reg.tmrAll) (he : s.addrOf q = s.addrOf r) : q = r := by
  rw [addrOf_tmr s hq, addrOf_tmr s hr] at he
  rw [← tmrAll_offsets] at h
  exact List.inj_on_of_nodup_map h hq hr (add_left_cancel he)

/-- An address finds the first register of a list that has it. -/
theorem find_by_address (s : State) {l : List Reg} {r : Reg} (hr : r ∈ l)
    (hinj : ∀ q ∈ l, s.addrOf q = s.addrOf r → q = r) :
    l.find? (fun q => s.addrOf q == s.addrOf r) = some r := by
  induction l with
  | nil => exact absurd hr (by simp)
  | cons a l ih =>
    by_cases h : s.addrOf a = s.addrOf r
    · rw [List.find?_cons_of_pos (by simpa using h), hinj a (by simp) h]
    · rw [List.find?_cons_of_neg (by simpa using h)]
      refine ih ?_ fun q hq => hinj q (by simp [hq])
      rcases List.mem_cons.mp hr with rfl | h'
      · exact absurd rfl h
      · exact h'

/-- After INIT the address of a controller register finds it (R74, R129). -/
theorem regAt_intc {s : State} (hi : s.internal.intcReady = true) (h : s.cfg.intcOffsets.Nodup)
    {r : Reg} (hr : r ∈ Reg.intcAll) : s.regAt (s.addrOf r) = some r := by
  unfold State.regAt State.mappedRegs
  rw [hi, if_pos rfl, List.find?_append,
    find_by_address s hr fun q hq => addrOf_intc_inj h hq hr]
  rfl

/-- After TINIT the address of a timer register finds it, where the windows do not overlap (R73). -/
theorem regAt_tmr {s : State} (ht : s.internal.tmrReady = true) (h : s.cfg.tmrOffsets.Nodup)
    {r : Reg} (hr : r ∈ Reg.tmrAll)
    (hd : s.internal.intcReady = true → ∀ q ∈ Reg.intcAll, s.addrOf q ≠ s.addrOf r) :
    s.regAt (s.addrOf r) = some r := by
  unfold State.regAt State.mappedRegs
  have hnone : (if s.internal.intcReady = true then Reg.intcAll else []).find?
      (fun q => s.addrOf q == s.addrOf r) = none := by
    rw [List.find?_eq_none]
    intro q hq
    split at hq
    · rename_i hi
      simpa using hd hi q hq
    · exact absurd hq (by simp)
  rw [List.find?_append, hnone, ht, if_pos rfl,
    find_by_address s hr fun q hq => addrOf_tmr_inj h hq hr]
  rfl

end Sys2Proof.Machine
end

