-- ==== Sys2Proof/Laws/Codec.lean ====
section
/-!
SUPPORT. The command word as its four fields (R102): packing and unpacking, the mask test of R111 by
field, and the rows by their opcodes (R110).
-/
namespace Sys2Proof

theorem CmdWord.getLsbD_pack (op : BitVec 8) (z : BitVec 16) (a : BitVec 8) (d : Word) (i : Nat) :
    (CmdWord.pack op z a d).getLsbD i =
      if i < 32 then d.getLsbD i
      else if i < 40 then a.getLsbD (i - 32)
      else if i < 56 then z.getLsbD (i - 40)
      else op.getLsbD (i - 56) := by
  simp only [CmdWord.pack, BitVec.getLsbD_append]
  by_cases h1 : i < 32
  · simp [h1]
  · by_cases h2 : i < 40
    · have : i - 32 < 8 := by omega
      simp [h1, h2, this]
    · by_cases h3 : i < 56
      · have h4 : ¬ i - 32 < 8 := by omega
        have h5 : i - 32 - 8 < 16 := by omega
        have h6 : i - 32 - 8 = i - 40 := by omega
        rw [if_neg h1, if_neg h4, if_pos h5, if_neg h1, if_neg h2, if_pos h3, h6]
      · have h4 : ¬ i - 32 < 8 := by omega
        have h5 : ¬ i - 32 - 8 < 16 := by omega
        have h6 : i - 32 - 8 - 16 = i - 56 := by omega
        rw [if_neg h1, if_neg h4, if_neg h5, if_neg h1, if_neg h2, if_neg h3, h6]

@[simp] theorem CmdWord.pack_op (op : BitVec 8) (z : BitVec 16) (a : BitVec 8) (d : Word) :
    (CmdWord.pack op z a d).op = op := by
  apply BitVec.eq_of_getLsbD_eq
  intro i hi
  have h1 : ¬ 56 + i < 32 := by omega
  have h2 : ¬ 56 + i < 40 := by omega
  have h3 : ¬ 56 + i < 56 := by omega
  simp only [CmdWord.op, BitVec.getLsbD_extractLsb', CmdWord.getLsbD_pack, hi, decide_true,
    Bool.true_and, h1, h2, h3, if_false]
  congr 1; omega

@[simp] theorem CmdWord.pack_z (op : BitVec 8) (z : BitVec 16) (a : BitVec 8) (d : Word) :
    (CmdWord.pack op z a d).z = z := by
  apply BitVec.eq_of_getLsbD_eq
  intro i hi
  have h1 : ¬ 40 + i < 32 := by omega
  have h2 : ¬ 40 + i < 40 := by omega
  have h3 : 40 + i < 56 := by omega
  simp only [CmdWord.z, BitVec.getLsbD_extractLsb', CmdWord.getLsbD_pack, hi, decide_true,
    Bool.true_and, h1, h2, h3, if_false, if_true]
  congr 1; omega

@[simp] theorem CmdWord.pack_a (op : BitVec 8) (z : BitVec 16) (a : BitVec 8) (d : Word) :
    (CmdWord.pack op z a d).a = a := by
  apply BitVec.eq_of_getLsbD_eq
  intro i hi
  have h1 : ¬ 32 + i < 32 := by omega
  have h2 : 32 + i < 40 := by omega
  simp only [CmdWord.a, BitVec.getLsbD_extractLsb', CmdWord.getLsbD_pack, hi, decide_true,
    Bool.true_and, h1, h2, if_false, if_true]
  congr 1; omega

@[simp] theorem CmdWord.pack_d (op : BitVec 8) (z : BitVec 16) (a : BitVec 8) (d : Word) :
    (CmdWord.pack op z a d).d = d := by
  apply BitVec.eq_of_getLsbD_eq
  intro i hi
  have h1 : 0 + i < 32 := by omega
  simp only [CmdWord.d, BitVec.getLsbD_extractLsb', CmdWord.getLsbD_pack, hi, decide_true,
    Bool.true_and, h1, if_true]
  congr 1; omega

/-- A word is its four fields. -/
theorem CmdWord.pack_fields (w : CmdWord) : CmdWord.pack w.op w.z w.a w.d = w := by
  apply BitVec.eq_of_getLsbD_eq
  intro i hi
  rw [CmdWord.getLsbD_pack]
  simp only [CmdWord.op, CmdWord.z, CmdWord.a, CmdWord.d, BitVec.getLsbD_extractLsb']
  by_cases h1 : i < 32
  · simp [h1]
  · by_cases h2 : i < 40
    · have h4 : i - 32 < 8 := by omega
      have h5 : 32 + (i - 32) = i := by omega
      simp [h1, h2, h4, h5]
    · by_cases h3 : i < 56
      · have h4 : i - 40 < 16 := by omega
        have h5 : 40 + (i - 40) = i := by omega
        simp [h1, h2, h3, h4, h5]
      · have h4 : i - 56 < 8 := by omega
        have h5 : 56 + (i - 56) = i := by omega
        simp [h1, h2, h3, h4, h5]

theorem CmdWord.pack_inj {op op' : BitVec 8} {z z' : BitVec 16} {a a' : BitVec 8} {d d' : Word}
    (h : CmdWord.pack op z a d = CmdWord.pack op' z' a' d') :
    op = op' ∧ z = z' ∧ a = a' ∧ d = d' := by
  refine ⟨?_, ?_, ?_, ?_⟩
  · simpa using congrArg CmdWord.op h
  · simpa using congrArg CmdWord.z h
  · simpa using congrArg CmdWord.a h
  · simpa using congrArg CmdWord.d h

theorem CmdWord.pack_and (op op' : BitVec 8) (z z' : BitVec 16) (a a' : BitVec 8) (d d' : Word) :
    CmdWord.pack op z a d &&& CmdWord.pack op' z' a' d' =
      CmdWord.pack (op &&& op') (z &&& z') (a &&& a') (d &&& d') := by
  apply BitVec.eq_of_getLsbD_eq
  intro i hi
  rw [BitVec.getLsbD_and, CmdWord.getLsbD_pack, CmdWord.getLsbD_pack, CmdWord.getLsbD_pack]
  split
  · simp
  · split
    · simp
    · split <;> simp

/-- The mask test of a row (R111), by field. -/
theorem CmdWord.maskTest_iff (w : CmdWord) (o : Op) :
    w &&& o.maskWord = o.matchWord ↔
      w.op = o.code ∧ w.z = 0 ∧ w.a &&& o.aMask = 0 ∧ w.d &&& o.dMask = 0 := by
  have h8 : w.op &&& 0xFF = w.op := BitVec.and_allOnes
  have h16 : w.z &&& 0xFFFF = w.z := BitVec.and_allOnes
  rw [← CmdWord.pack_fields w]
  simp only [Op.maskWord, Op.matchWord, CmdWord.pack_and, h8, h16, CmdWord.pack_op, CmdWord.pack_z,
    CmdWord.pack_a, CmdWord.pack_d]
  constructor
  · intro h
    exact CmdWord.pack_inj h
  · rintro ⟨h1, h2, h3, h4⟩
    rw [h1, h2, h3, h4]

/-- Every row is found by its opcode, and by no other (R110). -/
theorem Op.ofCode_code (o : Op) : Op.ofCode o.code = some o := by
  cases o <;> rfl

theorem Op.code_of_ofCode {c : BitVec 8} {o : Op} (h : Op.ofCode c = some o) : o.code = c := by
  simpa using List.find?_some h

@[simp] theorem Kind.ofCode_code (k : Kind) : Kind.ofCode k.code = some k := by cases k <;> rfl
@[simp] theorem Bank.ofCode_code (b : Bank) : Bank.ofCode b.code = some b := by cases b <;> rfl
@[simp] theorem GReg.ofCode_code (g : GReg) : GReg.ofCode g.code = some g := by cases g <;> rfl
@[simp] theorem ModeReq.ofCode_code (m : ModeReq) : ModeReq.ofCode m.code = m := by
  cases m <;> rfl

/-! The `a` fields, both ways (R105 to R107). -/

theorem kindBankOf_code (k : Kind) (b : Bank) :
    kindBankOf ((0 : BitVec 4) ++ k.code ++ b.code) = some (k, b) := by
  cases k <;> cases b <;> decide

theorem gregOf_code (g : GReg) :
    GReg.ofCode (((0 : BitVec 6) ++ g.code : BitVec 8).extractLsb' 0 2) = some g := by
  cases g <;> decide

theorem modeOf_code (m : ModeReq) :
    ModeReq.ofCode (((0 : BitVec 6) ++ m.code : BitVec 8).extractLsb' 0 2) = m := by
  cases m <;> decide

theorem code_of_kindBankOf {a : BitVec 8} {k : Kind} {b : Bank} (ha : a &&& 0xF0 = 0)
    (h : kindBankOf a = some (k, b)) : (0 : BitVec 4) ++ k.code ++ b.code = a := by
  have all : ∀ a : BitVec 8, a &&& 0xF0 = 0 →
      ∀ kb ∈ kindBankOf a, (0 : BitVec 4) ++ kb.1.code ++ kb.2.code = a := by decide
  exact all a ha (k, b) (Option.mem_def.mpr h)

theorem code_of_gregOf {a : BitVec 8} {g : GReg} (ha : a &&& 0xFC = 0)
    (h : GReg.ofCode (a.extractLsb' 0 2) = some g) : (0 : BitVec 6) ++ g.code = a := by
  have all : ∀ a : BitVec 8, a &&& 0xFC = 0 →
      ∀ g ∈ GReg.ofCode (a.extractLsb' 0 2), (0 : BitVec 6) ++ g.code = a := by decide
  exact all a ha g (Option.mem_def.mpr h)

theorem code_of_modeOf : ∀ a : BitVec 8, a &&& 0xFC = 0 →
    (0 : BitVec 6) ++ (ModeReq.ofCode (a.extractLsb' 0 2)).code = a := by
  decide

/-! ### The decoder -/

theorem and_byte_ones (a : BitVec 8) : a &&& 0xFF = a := BitVec.and_allOnes
theorem and_word_ones (d : Word) : d &&& 0xFFFFFFFF = d := BitVec.and_allOnes
theorem and_byte_zero (a : BitVec 8) : a &&& 0x00 = 0 := BitVec.and_zero
theorem and_word_zero (d : Word) : d &&& 0x00000000 = 0 := BitVec.and_zero

/-- What the decoder reads from a word of a known row (R111), by field. -/
theorem decode_of_row {w : CmdWord} {o : Op} (hz : w.z = 0) (ho : Op.ofCode w.op = some o) :
    decode w = if w.a &&& o.aMask = 0 ∧ w.d &&& o.dMask = 0 then o.build w.a w.d else none := by
  unfold decode
  rw [if_neg (not_not.mpr hz), ho]
  have hc := Op.code_of_ofCode ho
  have hm := CmdWord.maskTest_iff w o
  simp only [hc, hz, true_and] at hm
  by_cases h : w &&& o.maskWord = o.matchWord
  · rw [if_pos (hm.mp h)]
    exact if_pos h
  · rw [if_neg fun h' => h (hm.mpr h')]
    exact if_neg h

/-- What a decoded word met: its row, the zero field and the row's masks (R111). -/
theorem decode_some {w : CmdWord} {i : Instr} (h : decode w = some i) :
    ∃ o, Op.ofCode w.op = some o ∧ w.z = 0 ∧ w.a &&& o.aMask = 0 ∧ w.d &&& o.dMask = 0 ∧
      o.build w.a w.d = some i := by
  by_cases hz : w.z = 0
  · cases ho : Op.ofCode w.op with
    | none =>
      unfold decode at h
      rw [if_neg (not_not.mpr hz), ho] at h
      exact absurd h (by simp)
    | some o =>
      rw [decode_of_row hz ho] at h
      split at h
      · rename_i hm
        exact ⟨o, rfl, hz, hm.1, hm.2, h⟩
      · exact absurd h (by simp)
  · unfold decode at h
    rw [if_pos hz] at h
    exact absurd h (by simp)

/-- A row builds only well-formed commands of its own (R106). -/
theorem build_wellFormed {o : Op} {a : BitVec 8} {d : Word} {i : Instr} (h : o.build a d = some i) :
    i.wellFormed = true ∧ i.op = o := by
  cases o <;> simp only [Op.build, Option.map] at h <;> (try split at h) <;> simp_all <;>
    subst h <;> exact ⟨rfl, rfl⟩

/-- A decoded command is well formed. -/
theorem decode_wellFormed {w : CmdWord} {i : Instr} (h : decode w = some i) :
    i.wellFormed = true := by
  obtain ⟨o, -, -, -, -, hb⟩ := decode_some h
  exact (build_wellFormed hb).1

end Sys2Proof
end

