-- ==== Sys2Proof/Laws/Domain.lean ====
section
/-!
SUPPORT. The identifier table (R35, R36, R155): the allocator always answers an identifier that is not
0 and belongs to no line, making an entry raises the number of entries by one, and a table with a free
line is not full.
-/
namespace Sys2Proof.Machine

/-- Each of the 97 default identifiers is its number, and is not 0. -/
theorem defaultId_toNat (r : InternalRegs) {k : Nat} (hk : k < 97) :
    (BitVec.ofNat 32 (Config.logicalBase + r.nmapped.toNat + k)).toNat = 1 + r.nmapped.toNat + k := by
  have := r.nmapped.isLt
  simp only [Config.logicalBase, BitVec.toNat_ofNat]
  omega

/-- Of the 97 default identifiers one is not in use: there are 96 lines. -/
theorem exists_fresh_default (r : InternalRegs) :
    ∃ id ∈ r.defaultIds, id ≠ Config.noIrq ∧ r.inUse id = false := by
  by_contra hno
  have hall : ∀ k : Fin 97, ∃ n : Line,
      r.map[n] = some (BitVec.ofNat 32 (Config.logicalBase + r.nmapped.toNat + k.val)) := by
    intro k
    rw [← inUse_iff]
    by_contra hu
    refine hno ⟨_, ?_, ?_, by simpa using hu⟩
    · exact List.mem_map.mpr ⟨k.val, by simp, rfl⟩
    · intro h0
      have := congrArg BitVec.toNat h0
      rw [defaultId_toNat r k.isLt] at this
      simp [Config.noIrq] at this
  choose f hf using hall
  have hinj : Function.Injective f := by
    intro a b hab
    have h := hf a
    rw [hab, hf b, Option.some.injEq] at h
    have := congrArg BitVec.toNat h
    rw [defaultId_toNat r a.isLt, defaultId_toNat r b.isLt] at this
    exact Fin.ext (by omega)
  have := Fintype.card_le_of_injective f hinj
  simp at this

/-- What the allocator answers: not NO_IRQ, and no line's identifier (R155). -/
theorem alloc_spec (r : InternalRegs) (pool : List Word) :
    r.alloc pool ≠ Config.noIrq ∧ r.inUse (r.alloc pool) = false := by
  unfold InternalRegs.alloc
  cases h : (pool ++ r.defaultIds).find? fun id => id != Config.noIrq && !r.inUse id with
  | some id =>
    have := List.find?_some h
    simpa using this
  | none =>
    obtain ⟨id, hm, h0, hu⟩ := exists_fresh_default r
    have := List.find?_eq_none.mp h id (List.mem_append_right _ hm)
    simp [h0, hu] at this

theorem alloc_ne_zero (r : InternalRegs) (pool : List Word) : r.alloc pool ≠ 0 := (alloc_spec r pool).1

theorem alloc_fresh (r : InternalRegs) (pool : List Word) (n : Line) :
    r.map[n] ≠ some (r.alloc pool) := by
  intro h
  have := inUse_iff.mpr ⟨n, h⟩
  rw [(alloc_spec r pool).2] at this
  exact Bool.noConfusion this

/-! ### Counting entries -/

/-- The number of entries is the number of lines with an identifier. -/
theorem mappedCount_eq_card (r : InternalRegs) :
    r.mappedCount = (Finset.univ.filter fun n : Line => r.map[n].isSome = true).card := by
  unfold InternalRegs.mappedCount
  rw [List.countP_eq_length_filter, ← List.toFinset_card_of_nodup ((List.nodup_finRange 96).filter _)]
  congr 1
  ext n
  simp

/-- Making the entry of a line that has none raises the count by one. -/
theorem mappedCount_mapLine {s : State} {n : Line} (id : Word) (h : s.internal.map[n] = none) :
    (s.mapLine n id).internal.mappedCount = s.internal.mappedCount + 1 := by
  rw [mappedCount_eq_card, mappedCount_eq_card]
  have hset : (Finset.univ.filter fun k : Line => (s.mapLine n id).internal.map[k].isSome = true) =
      insert n (Finset.univ.filter fun k : Line => s.internal.map[k].isSome = true) := by
    ext k
    have : (s.mapLine n id).internal.map[k] = if k = n then some id else s.internal.map[k] :=
      map_set_get s.internal.map n k id
    simp only [Finset.mem_filter, Finset.mem_univ, true_and, Finset.mem_insert, this]
    by_cases hk : k = n
    · simp [hk]
    · simp [hk]
  rw [hset, Finset.card_insert_of_notMem (by rw [Finset.mem_filter, h]; simp)]

/-- A table with a free line has at most 95 entries (R156). -/
theorem mappedCount_lt {r : InternalRegs} {n : Line} (h : r.map[n] = none) : r.mappedCount ≤ 95 := by
  rw [mappedCount_eq_card]
  have hsub : (Finset.univ.filter fun k : Line => r.map[k].isSome = true) ⊆ Finset.univ.erase n := by
    intro k hk
    simp only [Finset.mem_filter, Finset.mem_univ, true_and] at hk
    refine Finset.mem_erase.mpr ⟨?_, Finset.mem_univ k⟩
    rintro rfl
    simp [h] at hk
  have := Finset.card_le_card hsub
  simpa using this

end Sys2Proof.Machine
end

