-- ==== Sys2Proof/Laws/Effects.lean ====
section
/-!
SUPPORT. All a command can do to the core's own state (R33 to R42), to ST and to the configuration, said
once: the inversion lemma of `exec`. A mapping is made by `resolve` alone, `ctx` is pushed and popped by
the handler commands alone, and so on.
-/
namespace Sys2Proof.Machine

/-- What `resolve(n)` leaves in the core's state when it answers (R155). -/
inductive Resolves (s : State) (n : Line) : InternalRegs → Prop where
  | found (id : Word) (h : s.internal.map[n] = some id) : Resolves s n s.internal
  | allocated (h : s.internal.map[n] = none) (hc : s.internal.nmapped.toNat ≠ 96) :
      Resolves s n (s.mapLine n (s.internal.alloc s.cfg.idPool)).internal

/-- The core's state and ST after a command, case by case. -/
inductive CoreEffect (s : State) : Instr → InternalRegs → Status → Prop where
  /-- Nothing of the core's own state changes. -/
  | same (i : Instr) (e : Status)
      (he : e = .ok ∨ e = .xIllegal ∨ e = .xHalted ∨ e = .xContext ∨ e = .xUnbound) :
      CoreEffect s i s.internal e
  /-- A bring-up command fails (R210). -/
  | fatal (i : Instr) (e : Status) (h0 : s.internal.halt = 0) (he : e = .fNoBase ∨ e = .fNoIrq) :
      CoreEffect s i { s.internal with halt := e.code } e
  /-- The table is full (R155, R156). -/
  | full (i : Instr) (n : Line) (h0 : s.internal.halt = 0) (h : s.internal.map[n] = none)
      (hc : s.internal.nmapped.toNat = 96) :
      CoreEffect s i { s.internal with halt := 10 } .fDomainFull
  /-- INIT succeeds (R150). -/
  | init (base : Word) (h0 : s.internal.halt = 0) (hr : s.internal.intcReady = false)
      (hm : mappable s .intc base = true) :
      CoreEffect s (.init base) { s.internal with intcBase := base, intcReady := true } .ok
  /-- RESOLVE answers (R151). -/
  | resolve (w : Word) (n : Line) (r : InternalRegs) (h0 : s.internal.halt = 0)
      (hr : Resolves s n r) : CoreEffect s (.resolve w) r .ok
  /-- INSTALL binds (R152). -/
  | install (id : Word) (n : Line) (h0 : s.internal.halt = 0) (h : s.internal.map[n] = some id) :
      CoreEffect s (.install id) (s.bindLine n).internal .ok
  /-- IRQ_ENTRY dispatches an identifier (R153). -/
  | dispatch (n : Line) (r : InternalRegs) (h0 : s.internal.halt = 0)
      (hi : s.internal.intcReady = true) (hctx : s.internal.ctx = []) (hr : Resolves s n r) :
      CoreEffect s .irqEntry { r with ctx := [.dispatch] } .ok
  /-- IRQ_ENTRY dispatches NO_IRQ (R153). -/
  | spurious (h0 : s.internal.halt = 0) (hi : s.internal.intcReady = true)
      (hctx : s.internal.ctx = []) :
      CoreEffect s .irqEntry { s.internal with ctx := [.dispatch] } .eSpurious
  /-- A callback returns (R154, R178). -/
  | ret (i : Instr) (c : Ctx) (h0 : s.internal.halt = 0)
      (hi : i = .dispatchRet ∧ c = .dispatch ∨ i = .tickRet ∧ c = .tick)
      (hc : s.internal.ctx.getLast? = some c) :
      CoreEffect s i { s.internal with ctx := s.internal.ctx.dropLast } .ok
  /-- TINIT succeeds (R165). -/
  | tinit (line : BitVec 8) (base : Word) (h0 : s.internal.halt = 0)
      (hr : s.internal.tmrReady = false) (hm : mappable s .tmr base = true)
      (hl : line.toNat ≤ 95) :
      CoreEffect s (.tinit line base) (s.registerTimer line base).internal .ok
  /-- SET_MODE records its request (R167 to R169). -/
  | setMode (m : ModeReq) (mode : TimerMode) (h0 : s.internal.halt = 0)
      (hr : s.internal.tmrReady = true) :
      CoreEffect s (.setMode m) { s.internal with mode := mode } .ok
  /-- TIMER_IRQ enters the tick callback (R177). -/
  | tick (h0 : s.internal.halt = 0) (hr : s.internal.tmrReady = true)
      (hc : Ctx.tick ∉ s.internal.ctx) :
      CoreEffect s .timerIrq { s.internal with ctx := s.internal.ctx ++ [.tick] } .ok

/-- The effect of a rule's outcome: the answered state has an effect of the list, its ST, and the
configuration it had. A fault has none to speak of. -/
def HasEffect (s : State) (i : Instr) (o : Out) : Prop :=
  ∀ t, o = .next t → ∃ e, CoreEffect s i t.internal e ∧ t.st = e.code ∧ t.cfg = s.cfg

theorem HasEffect.of_next {s : State} {i : Instr} {o : Out} {u : State} (e : Status)
    (ho : o = .next u) (h : CoreEffect s i u.internal e) (hst : u.st = e.code)
    (hcfg : u.cfg = s.cfg) : HasEffect s i o := by
  intro t ht
  rw [ho, Host.Outcome.next.injEq] at ht
  subst ht
  exact ⟨e, h, hst, hcfg⟩

theorem HasEffect.of_fault {s : State} {i : Instr} {o : Out} {f : Fault} (ho : o = .fault f) :
    HasEffect s i o := by
  intro t ht
  rw [ho] at ht
  cases ht

theorem enterCallback_internal (c : Ctx) (o : Obs) (s : State) :
    (enterCallback c o s).internal = { s.internal with ctx := s.internal.ctx ++ [c] } := rfl

theorem mapLine_internal_congr {s t : State} (h : s.internal = t.internal) (n : Line) (id : Word) :
    (s.mapLine n id).internal = (t.mapLine n id).internal := by
  simp only [State.mapLine, h]

theorem hasEffect_byLine (s : State) (i : Instr) (cmd : ContractCommand) (n : Word)
    (op : Line → State → State) (hi : ∀ l, (op l s).internal = s.internal)
    (hc : ∀ l, (op l s).cfg = s.cfg) : HasEffect s i (byLine cmd n op s) := by
  rcases byLine_cases cmd n op s with ⟨l, -, h⟩ | ⟨-, h⟩
  · exact .of_next .ok h (by rw [respond_internal, hi]; exact .same i .ok (.inl rfl)) rfl (hc l)
  · exact .of_fault h

theorem hasEffect_byId (s : State) (i : Instr) (id : Word) (op : Line → State → State)
    (hi : ∀ l, (op l s).internal = s.internal) (hc : ∀ l, (op l s).cfg = s.cfg) :
    HasEffect s i (byId id op s) := by
  rcases byId_cases id op s with ⟨l, -, -, h⟩ | h
  · exact .of_next .ok h (by rw [respond_internal, hi]; exact .same i .ok (.inl rfl)) rfl (hc l)
  · exact .of_next .xUnbound h (.same i .xUnbound (by simp)) rfl rfl

theorem hasEffect_compute (s : State) (i : Instr) (f : InternalRegs → Word) :
    HasEffect s i (computeRule f s) :=
  .of_next .ok (rfl : computeRule f s = .next (s.respond .ok (f s.internal)))
    (.same i .ok (.inl rfl)) rfl rfl

@[simp] theorem ackLine_internal (n : Line) (s : State) : (ackLine n s).internal = s.internal := rfl
@[simp] theorem maskLine_internal (n : Line) (s : State) : (maskLine n s).internal = s.internal := rfl
@[simp] theorem unmaskLine_internal (n : Line) (s : State) :
    (unmaskLine n s).internal = s.internal := by
  unfold unmaskLine; split <;> rfl
@[simp] theorem ackLine_cfg (n : Line) (s : State) : (ackLine n s).cfg = s.cfg := rfl
@[simp] theorem maskLine_cfg (n : Line) (s : State) : (maskLine n s).cfg = s.cfg := rfl
@[simp] theorem unmaskLine_cfg (n : Line) (s : State) : (unmaskLine n s).cfg = s.cfg := by
  unfold unmaskLine; split <;> rfl

/-- Every command has one of these effects. -/
theorem exec_hasEffect (i : Instr) (s : State) : HasEffect s i (exec i s) := by
  rcases exec_cases i s with ⟨e, v, he, h⟩ | ⟨-, h0, hp, h⟩
  · refine .of_next e h (.same i e ?_) rfl rfl
    rcases he with rfl | rfl | rfl <;> simp
  rw [h]
  have same : ∀ (u : State), u.internal = s.internal → CoreEffect s i u.internal .ok := by
    intro u hu; rw [hu]; exact .same i .ok (.inl rfl)
  cases i with
  | rd k b => exact .of_next .ok rfl (same _ rfl) rfl rfl
  | wr k b v => exact .of_next .ok rfl (same _ rfl) rfl rfl
  | rdg g => exact .of_next .ok rfl (same _ rfl) rfl rfl
  | wrg g v =>
    cases g with
    | vector => exact .of_next .xIllegal rfl (.same _ .xIllegal (by simp)) rfl rfl
    | protect => exact .of_next .ok rfl (same _ rfl) rfl rfl
    | nmiType => exact .of_next .ok rfl (same _ rfl) rfl rfl
  | ack n => exact hasEffect_byLine s _ _ n _ (by simp) (by simp)
  | mask n => exact hasEffect_byLine s _ _ n _ (by simp) (by simp)
  | unmask n => exact hasEffect_byLine s _ _ n _ (by simp) (by simp)
  | lack id => exact hasEffect_byId s _ id _ (by simp) (by simp)
  | lmask id => exact hasEffect_byId s _ id _ (by simp) (by simp)
  | lunmask id => exact hasEffect_byId s _ id _ (by simp) (by simp)
  | init base =>
    simp only [permitted, Bool.and_eq_true, Bool.not_eq_true'] at hp
    rcases initRule_cases base s with ⟨hm, h'⟩ | ⟨-, h'⟩
    · refine .of_next .ok h' ?_ rfl (by simp)
      have hr : (busWrites initWrites (s.setIntcBase base)).setIntcReady.internal =
          { s.internal with intcBase := base, intcReady := true } :=
        congrArg (fun r : InternalRegs => { r with intcReady := true })
          (busWrites_internal initWrites (s.setIntcBase base))
      rw [respond_internal, hr]
      exact .init base h0 hp.1 hm
    · exact .of_next .fNoBase h' (.fatal _ .fNoBase h0 (.inl rfl)) rfl rfl
  | resolve w =>
    rcases resolveRule_cases w s with ⟨n, -, h'⟩ | ⟨-, h'⟩
    · rcases resolveThen_cases n s (finish .ok) with ⟨id, hm, h''⟩ | ⟨hm, hc, h''⟩ | ⟨hm, hc, h''⟩
      · exact .of_next .ok (h'.trans h'') (.resolve w n _ h0 (.found id hm)) rfl rfl
      · exact .of_next .ok (h'.trans h'') (.resolve w n _ h0 (.allocated hm hc)) rfl rfl
      · exact .of_next .fDomainFull (h'.trans h'') (.full _ n h0 hm hc) rfl rfl
    · exact .of_fault h'
  | install id =>
    rcases installRule_cases id s with ⟨n, hm, h'⟩ | h'
    · exact .of_next .ok h' (.install id n h0 hm) rfl rfl
    · exact .of_next .xUnbound h' (.same _ .xUnbound (by simp)) rfl rfl
  | irqEntry =>
    simp only [permitted, Bool.and_eq_true, List.isEmpty_iff] at hp
    obtain ⟨hi, hctx⟩ := hp
    rcases dispatchVector_cases (readValue .vector s) (afterRead .vector s) with
      ⟨n, -, h'⟩ | ⟨-, h'⟩
    · rcases resolveThen_cases n (afterRead .vector s) dispatchId with
        ⟨id, hm, h''⟩ | ⟨hm, hc, h''⟩ | ⟨hm, hc, h''⟩
      · refine .of_next .ok (h'.trans h'') ?_ rfl rfl
        rw [respond_internal, enterCallback_internal]
        have := CoreEffect.dispatch n _ h0 hi hctx (.found id hm)
        simpa only [afterRead_internal, hctx, List.nil_append] using this
      · refine .of_next .ok (h'.trans h'') ?_ rfl rfl
        rw [respond_internal, enterCallback_internal]
        have := CoreEffect.dispatch n _ h0 hi hctx (.allocated hm hc)
        rw [mapLine_internal_congr (afterRead_internal .vector s)]
        simpa only [afterRead_internal, afterRead_cfg, mapLine_internal_ctx, hctx, List.nil_append] using this
      · exact .of_next .fDomainFull (h'.trans h'') (.full _ n h0 hm hc) rfl rfl
    · refine .of_next .eSpurious h' ?_ rfl rfl
      rw [respond_internal, enterCallback_internal]
      have := CoreEffect.spurious h0 hi hctx
      simpa only [emit_internal, afterRead_internal, hctx, List.nil_append] using this
  | dispatchRet =>
    refine .of_next .ok rfl (.ret _ .dispatch h0 (.inl ⟨rfl, rfl⟩) ?_) rfl rfl
    simpa [permitted] using hp
  | tinit line base =>
    simp only [permitted, Bool.and_eq_true, Bool.not_eq_true'] at hp
    rcases tinitRule_cases line base s with ⟨hm, hl, h'⟩ | ⟨-, -, h'⟩ | ⟨-, h'⟩
    · refine .of_next .ok h' ?_ (respond_st ..) (by simp)
      rw [respond_internal]
      exact .tinit line base h0 hp.1 hm hl
    · exact .of_next .fNoIrq h' (.fatal _ .fNoIrq h0 (.inr rfl)) rfl rfl
    · exact .of_next .fNoBase h' (.fatal _ .fNoBase h0 (.inl rfl)) rfl rfl
  | setMode m =>
    refine .of_next .ok rfl ?_ rfl (by cases m <;> rfl)
    cases m <;> exact .setMode _ _ h0 hp
  | setNextEvent d =>
    rcases setNextEventRule_cases d s with ⟨-, -, h'⟩ | ⟨-, h'⟩
    · exact .of_next .ok h' (same _ rfl) rfl rfl
    · exact .of_fault h'
  | timerIrq =>
    simp only [permitted, Bool.and_eq_true, Bool.not_eq_true', List.contains_eq_mem,
      decide_eq_false_iff_not] at hp
    exact .of_next .ok rfl (.tick h0 hp.1 hp.2) rfl rfl
  | tickRet =>
    refine .of_next .ok rfl (.ret _ .tick h0 (.inr ⟨rfl, rfl⟩) ?_) rfl rfl
    simpa [permitted] using hp
  | ns2t x => exact hasEffect_compute s _ fun r => ns2t r.mult x
  | t2ns x => exact hasEffect_compute s _ fun r => saturate (t2ns r.mult.toNat x.toNat)
  | getmin => exact hasEffect_compute s _ _
  | getmax => exact hasEffect_compute s _ _

/-- All a command that answers can do to the core's own state and to ST. -/
theorem exec_effect {i : Instr} {s t : State} (h : exec i s = .next t) :
    ∃ e, CoreEffect s i t.internal e ∧ t.st = e.code ∧ t.cfg = s.cfg :=
  exec_hasEffect i s t h

end Sys2Proof.Machine
end

