-- ==== Sys2Proof/Laws/PerInstr.lean ====
section
/-!
SUPPORT. One statement per command, as syntax: the encoded word meets the mask and match of the
command's row in the opcode table (R110), the must-be-zero field included.
-/
namespace Sys2Proof.Laws.MeetsRow

/-- The word of a command meets its row of R110. -/
def Statement (i : Instr) : Prop :=
  encode i &&& i.op.maskWord = i.op.matchWord

/-- What is left to show: the operand fields respect the row's masks. -/
theorem of_fields {i : Instr} (ha : i.aField &&& i.op.aMask = 0) (hd : i.dField &&& i.op.dMask = 0) :
    Statement i := by
  unfold Statement
  rw [CmdWord.maskTest_iff]
  simp only [encode, CmdWord.pack_op, CmdWord.pack_z, CmdWord.pack_a, CmdWord.pack_d]
  exact ⟨trivial, trivial, ha, hd⟩

theorem kindBank_mask (k : Kind) (b : Bank) :
    ((0 : BitVec 4) ++ k.code ++ b.code) &&& (0xF0 : BitVec 8) = 0 := by
  cases k <;> cases b <;> decide

theorem greg_mask (g : GReg) : ((0 : BitVec 6) ++ g.code) &&& (0xFC : BitVec 8) = 0 := by
  cases g <;> decide

theorem mode_mask (m : ModeReq) : ((0 : BitVec 6) ++ m.code) &&& (0xFC : BitVec 8) = 0 := by
  cases m <;> decide

theorem rd (k : Kind) (b : Bank) : Statement (.rd k b) :=
  of_fields (kindBank_mask k b) BitVec.zero_and
theorem wr (k : Kind) (b : Bank) (value : Word) : Statement (.wr k b value) :=
  of_fields (kindBank_mask k b) BitVec.and_zero
theorem rdg (g : GReg) : Statement (.rdg g) :=
  of_fields (greg_mask g) BitVec.zero_and
theorem wrg (g : GReg) (value : Word) : Statement (.wrg g value) :=
  of_fields (greg_mask g) BitVec.and_zero
theorem ack (n : Word) : Statement (.ack n) :=
  of_fields BitVec.zero_and BitVec.and_zero
theorem mask (n : Word) : Statement (.mask n) :=
  of_fields BitVec.zero_and BitVec.and_zero
theorem unmask (n : Word) : Statement (.unmask n) :=
  of_fields BitVec.zero_and BitVec.and_zero
theorem lack (id : Word) : Statement (.lack id) :=
  of_fields BitVec.zero_and BitVec.and_zero
theorem lmask (id : Word) : Statement (.lmask id) :=
  of_fields BitVec.zero_and BitVec.and_zero
theorem lunmask (id : Word) : Statement (.lunmask id) :=
  of_fields BitVec.zero_and BitVec.and_zero
theorem init (base : Word) : Statement (.init base) :=
  of_fields BitVec.zero_and BitVec.and_zero
theorem resolve (n : Word) : Statement (.resolve n) :=
  of_fields BitVec.zero_and BitVec.and_zero
theorem install (id : Word) : Statement (.install id) :=
  of_fields BitVec.zero_and BitVec.and_zero
theorem irqEntry : Statement .irqEntry :=
  of_fields BitVec.zero_and BitVec.zero_and
theorem dispatchRet : Statement .dispatchRet :=
  of_fields BitVec.zero_and BitVec.zero_and
theorem tinit (line : BitVec 8) (base : Word) : Statement (.tinit line base) :=
  of_fields BitVec.and_zero BitVec.and_zero
theorem setMode (m : ModeReq) : Statement (.setMode m) :=
  of_fields (mode_mask m) BitVec.zero_and
theorem setNextEvent (delta : Word) : Statement (.setNextEvent delta) :=
  of_fields BitVec.zero_and BitVec.and_zero
theorem timerIrq : Statement .timerIrq :=
  of_fields BitVec.zero_and BitVec.zero_and
theorem tickRet : Statement .tickRet :=
  of_fields BitVec.zero_and BitVec.zero_and
theorem ns2t (ns : Word) : Statement (.ns2t ns) :=
  of_fields BitVec.zero_and BitVec.and_zero
theorem t2ns (ticks : Word) : Statement (.t2ns ticks) :=
  of_fields BitVec.zero_and BitVec.and_zero
theorem getmin : Statement .getmin :=
  of_fields BitVec.zero_and BitVec.zero_and
theorem getmax : Statement .getmax :=
  of_fields BitVec.zero_and BitVec.zero_and

end Sys2Proof.Laws.MeetsRow
end

