-- ==== Sys2Proof/Laws/Step.lean ====
section
/-!
SUPPORT. What one step is (R202, R205), said once: with a word presented, its command run after the
environment's slot; with none, the slot alone.
-/
namespace Sys2Proof.Machine

theorem step_idle {s : State} (h : s.port = []) : step s = .next s.envSlot := by
  simp [step, State.nextWord, h]

theorem step_illegal {s : State} {w : CmdWord} {rest : List CmdWord} (h : s.port = w :: rest)
    (hd : decode w = none) :
    step s = .next (({ s.envSlot with port := rest } : State).respond .xIllegal 0) := by
  unfold step State.nextWord
  rw [h, List.head?_cons]
  simp only [hd, State.takeWord, envSlot_port, h, List.tail_cons]
  rfl

theorem step_command {s : State} {w : CmdWord} {rest : List CmdWord} {i : Instr}
    (h : s.port = w :: rest) (hd : decode w = some i) :
    step s = exec i { s.envSlot with port := rest } := by
  unfold step State.nextWord
  rw [h, List.head?_cons]
  simp only [hd, State.takeWord, envSlot_port, h, List.tail_cons]

/-- All a step can do. -/
theorem step_cases (s : State) :
    (s.port = [] ∧ step s = .next s.envSlot) ∨
    (∃ w rest, s.port = w :: rest ∧ decode w = none ∧
      step s = .next (({ s.envSlot with port := rest } : State).respond .xIllegal 0)) ∨
    (∃ w rest i, s.port = w :: rest ∧ decode w = some i ∧ i.wellFormed = true ∧
      step s = exec i { s.envSlot with port := rest }) := by
  cases hp : s.port with
  | nil => exact .inl ⟨rfl, step_idle hp⟩
  | cons w rest =>
    cases hd : decode w with
    | none => exact .inr (.inl ⟨w, rest, rfl, hd, step_illegal hp hd⟩)
    | some i => exact .inr (.inr ⟨w, rest, i, rfl, hd, decode_wellFormed hd, step_command hp hd⟩)

end Sys2Proof.Machine
end

