-- ==== Sys2Proof/Laws/Runs.lean ====
section
/-!
SUPPORT. What the recorded moments say of a run (R205, R215): a step only adds moments, and from one
moment to the next the registers change by the environment's step taken there, or, where none was taken,
by at most one write of the block.
-/
namespace Sys2Proof.Machine

/-- The moments `l` lead from registers `m` to `m'`, where `W` says what the block may do at a moment at
which the environment does nothing. -/
inductive Path (W : MmioRegs → MmioRegs → Prop) : MmioRegs → List Moment → MmioRegs → Prop where
  | nil (m : MmioRegs) : Path W m [] m
  | turn {m m' : MmioRegs} {l : List Moment} (e : EnvStep) (he : ∃ r, envEnabled r m e = true)
      (hl : Path W (envEffect m e) l m') : Path W m (⟨m, some e⟩ :: l) m'
  | block {m m₁ m' : MmioRegs} {l : List Moment} (h : W m m₁) (hl : Path W m₁ l m') :
      Path W m (⟨m, none⟩ :: l) m'

theorem Path.append {W : MmioRegs → MmioRegs → Prop} {l l' : List Moment}
    {m m' m'' : MmioRegs} (h : Path W m l m') (h' : Path W m' l' m'') :
    Path W m (l ++ l') m'' := by
  induction h with
  | nil => exact h'
  | turn e he _ ih => exact .turn e he (ih h')
  | block hw _ ih => exact .block hw (ih h')

/-- The moments of a slot lead through it and then through what the block does next. -/
theorem slotMoments_path {W : MmioRegs → MmioRegs → Prop} (hr : ∀ m, W m m) (r : InternalRegs)
    (es : List EnvStep) :
    ∀ {m m' : MmioRegs}, W (envRun r m es) m' → Path W m (slotMoments r m es) m' := by
  induction es with
  | nil => intro m m' h; exact .block h (.nil _)
  | cons e es ih =>
    intro m m' h
    have hnext := ih h
    cases hen : envEnabled r m e
    · have ha : envApply r m e = m := by simp [envApply, hen]
      have ht : envTaken r m e = none := by simp [envTaken, hen]
      rw [ha] at hnext
      rw [slotMoments, ht, ha]
      exact .block (hr m) hnext
    · have ha : envApply r m e = envEffect m e := by simp [envApply, hen]
      have ht : envTaken r m e = some e := by simp [envTaken, hen]
      rw [ha] at hnext
      rw [slotMoments, ht, ha]
      exact .turn e ⟨r, hen⟩ hnext

/-- A list of accesses adds moments that lead from its first registers to its last. -/
theorem accessRun_path {W : MmioRegs → MmioRegs → Prop} (hr : ∀ m, W m m) (r : InternalRegs)
    (l : List (Option (Reg × Word))) (hl : ∀ w, some w ∈ l → ∀ m : MmioRegs, W m (m.write w.1 w.2)) :
    ∀ (env : List (List EnvStep)) (b : Board), ∃ h,
      (accessRun r l env b).moments = b.moments ++ h ∧
      Path W b.regs h (accessRun r l env b).regs := by
  induction l with
  | nil => intro env b; exact ⟨[], by simp, .nil _⟩
  | cons a l ih =>
    intro env b
    obtain ⟨h, hm, hp⟩ := ih (fun w hw => hl w (by simp [hw])) env.tail
      ((b.slot r (env.headD [])).access a)
    rw [accessRun_cons]
    refine ⟨slotMoments r b.regs (env.headD []) ++ h, ?_,
      (slotMoments_path hr r (env.headD []) ?_).append hp⟩
    · rw [hm, ← List.append_assoc]
      cases a <;> rfl
    · cases a with
      | none => exact hr _
      | some w => exact hl w (by simp) _

/-- What a step adds to the record: at least one moment, and those lead from the registers before to the
registers after, where `W` allows every write of the command taken (R78). -/
theorem step_path {W : MmioRegs → MmioRegs → Prop} (hr : ∀ m, W m m) {s t : State}
    (h : step s = .next t)
    (hw : ∀ c i, s.port.head? = some c → decode c = some i → ∀ w, mayWrite i w →
      ∀ m : MmioRegs, W m (m.write w.1 w.2)) :
    ∃ l, l ≠ [] ∧ t.history = s.history ++ l ∧ Path W s.mmio l t.mmio := by
  have hslot := slotMoments_path hr s.internal (s.env.headD []) (hr (envRun s.internal s.mmio _))
  have hne : slotMoments s.internal s.mmio (s.env.headD []) ≠ [] := by
    cases s.env.headD [] <;> simp [slotMoments]
  rcases step_cases s with ⟨-, h'⟩ | ⟨w, rest, -, -, h'⟩ | ⟨w, rest, i, hp, hd, -, h'⟩
  · cases h'.symm.trans h
    exact ⟨_, hne, rfl, hslot⟩
  · cases h'.symm.trans h
    exact ⟨_, hne, rfl, hslot⟩
  · obtain ⟨l, -, hl, hb⟩ := exec_accesses (h'.symm.trans h)
    obtain ⟨q, hq, hpath⟩ := accessRun_path hr _ l
      (fun w hwl m => hw _ i (by rw [hp]; rfl) hd w (hl w hwl) m) _ _
    rw [← hb] at hq hpath
    exact ⟨_ ++ q, List.append_ne_nil_of_left_ne_nil hne q, hq.trans (List.append_assoc ..),
      hslot.append hpath⟩

/-! ### One moment after another -/

theorem Path.first {W : MmioRegs → MmioRegs → Prop} {m m' : MmioRegs} {l : List Moment} {mo : Moment}
    (h : Path W m l m') (hm : l[0]? = some mo) : mo.regs = m := by
  cases h <;> simp at hm <;> simp [← hm]

/-- Of two moments in a row: the environment's step leads from one to the next, or what the block did. -/
theorem Path.next {W : MmioRegs → MmioRegs → Prop} {m m' : MmioRegs} {l : List Moment}
    (h : Path W m l m') :
    ∀ {i : Nat} {mo mo' : Moment}, l[i]? = some mo → l[i + 1]? = some mo' →
      (∃ e, mo.taken = some e ∧ (∃ r, envEnabled r mo.regs e = true) ∧
        mo'.regs = envEffect mo.regs e) ∨ (mo.taken = none ∧ W mo.regs mo'.regs) := by
  induction h with
  | nil => intro i mo mo' h; simp at h
  | turn e he hl ih =>
    intro i mo mo' h h'
    cases i with
    | zero =>
      simp at h h'
      subst h
      exact .inl ⟨e, rfl, he, hl.first (by simpa using h')⟩
    | succ i => exact ih (by simpa using h) (by simpa using h')
  | block hw hl ih =>
    intro i mo mo' h h'
    cases i with
    | zero =>
      simp at h h'
      subst h
      exact .inr ⟨rfl, hl.first (by simpa using h') ▸ hw⟩
    | succ i => exact ih (by simpa using h) (by simpa using h')

/-- What a run records from its `k`-th step on, where `W` allows every write of the commands taken. -/
theorem run_path {W : MmioRegs → MmioRegs → Prop} (hr : ∀ m, W m m) {s : Nat → State}
    {slots : Nat → List (List EnvStep)} {words : Nat → List CmdWord} (hrun : Run s slots words) (k : Nat)
    (hw : ∀ j c i, k ≤ j → ((s j).feed (slots j) (words j)).port.head? = some c →
      decode c = some i → ∀ w, mayWrite i w → ∀ m : MmioRegs, W m (m.write w.1 w.2)) (n : Nat) :
    ∃ l, n ≤ l.length ∧ (s (k + n)).history = (s k).history ++ l ∧
      Path W (s k).mmio l (s (k + n)).mmio := by
  induction n with
  | zero => exact ⟨[], by simp, by simp, .nil _⟩
  | succ n ih =>
    obtain ⟨l, hn, hh, hp⟩ := ih
    obtain ⟨l', hne, hh', hp'⟩ := step_path hr (hrun (k + n))
      fun c i hc hd => hw (k + n) c i (by omega) hc hd
    refine ⟨l ++ l', ?_, ?_, hp.append hp'⟩
    · have := List.length_pos_iff.mpr hne
      rw [List.length_append]
      omega
    · show (s (k + n + 1)).history = _
      rw [hh', ← List.append_assoc, ← hh]
      rfl

/-- A run only adds moments. -/
theorem run_history {s : Nat → State} {slots : Nat → List (List EnvStep)}
    {words : Nat → List CmdWord} (hrun : Run s slots words) {k j : Nat} (h : k ≤ j) :
    ∃ l, j - k ≤ l.length ∧ (s j).history = (s k).history ++ l := by
  obtain ⟨l, hl, hh, -⟩ := run_path (W := fun _ _ => True) (fun _ => trivial) hrun k
    (fun _ _ _ _ _ _ _ _ _ => trivial) (j - k)
  rw [Nat.add_sub_cancel' h] at hh
  exact ⟨l, hl, hh⟩

/-- The `i`-th moment is one. -/
theorem momentAt_unique {s : Nat → State} {slots : Nat → List (List EnvStep)}
    {words : Nat → List CmdWord} (hrun : Run s slots words) {i : Nat} {mo mo' : Moment}
    (h : MomentAt s i mo) (h' : MomentAt s i mo') : mo = mo' := by
  obtain ⟨k, hk⟩ := h
  obtain ⟨j, hj⟩ := h'
  have key : ∀ {a b : Nat} {x y : Moment}, a ≤ b → (s a).history[i]? = some x →
      (s b).history[i]? = some y → x = y := by
    intro a b x y hab hx hy
    obtain ⟨l, -, hl⟩ := run_history hrun hab
    have hi := (List.getElem?_eq_some_iff.mp hx).1
    rw [hl, List.getElem?_append_left hi, hx] at hy
    exact Option.some.inj hy
  rcases Nat.le_total k j with hkj | hkj
  · exact key hkj hk hj
  · exact (key hkj hj hk).symm

/-- From its `k`-th step on a run has a moment at every number, the first with the registers the step
begins with, and each follows from the one before. -/
theorem run_moments {W : MmioRegs → MmioRegs → Prop} (hr : ∀ m, W m m) {s : Nat → State}
    {slots : Nat → List (List EnvStep)} {words : Nat → List CmdWord} (hrun : Run s slots words) (k : Nat)
    (hw : ∀ j c i, k ≤ j → ((s j).feed (slots j) (words j)).port.head? = some c →
      decode c = some i → ∀ w, mayWrite i w → ∀ m : MmioRegs, W m (m.write w.1 w.2)) :
    ∃ mo : Nat → Moment, (mo 0).regs = (s k).mmio ∧
      ∀ n, MomentAt s ((s k).history.length + n) (mo n) ∧
        ((∃ e, (mo n).taken = some e ∧ (∃ r, envEnabled r (mo n).regs e = true) ∧
            (mo (n + 1)).regs = envEffect (mo n).regs e) ∨
          ((mo n).taken = none ∧ W (mo n).regs (mo (n + 1)).regs)) := by
  have hex : ∀ n, ∃ mo, (s (k + (n + 1))).history[(s k).history.length + n]? = some mo := by
    intro n
    obtain ⟨l, hl, hh, -⟩ := run_path hr hrun k hw (n + 1)
    rw [hh, List.getElem?_append_right (by omega), Nat.add_sub_cancel_left]
    exact ⟨l[n], List.getElem?_eq_getElem (by omega)⟩
  choose mo hmo using hex
  have hat : ∀ n, MomentAt s ((s k).history.length + n) (mo n) := fun n => ⟨_, hmo n⟩
  have hget : ∀ n j l, (s j).history = (s k).history ++ l → n < l.length → l[n]? = some (mo n) := by
    intro n j l hh hn
    have : MomentAt s ((s k).history.length + n) l[n] := ⟨j, by
      rw [hh, List.getElem?_append_right (by omega), Nat.add_sub_cancel_left]
      exact List.getElem?_eq_getElem hn⟩
    rw [momentAt_unique hrun (hat n) this]
    exact List.getElem?_eq_getElem hn
  refine ⟨mo, ?_, fun n => ⟨hat n, ?_⟩⟩
  · obtain ⟨l, hl, hh, hp⟩ := run_path hr hrun k hw 1
    exact hp.first (hget 0 _ l hh (by omega))
  · obtain ⟨l, hl, hh, hp⟩ := run_path hr hrun k hw (n + 2)
    exact hp.next (hget n _ l hh (by omega)) (hget (n + 1) _ l hh (by omega))

/-- Every moment from the `k`-th step on is one of those. -/
theorem momentAt_index {s : Nat → State} {slots : Nat → List (List EnvStep)}
    {words : Nat → List CmdWord} (hrun : Run s slots words) {k : Nat} {mo : Nat → Moment}
    (hat : ∀ n, MomentAt s ((s k).history.length + n) (mo n)) {j : Nat} {m : Moment}
    (hj : (s k).history.length ≤ j) (hm : MomentAt s j m) :
    ∃ n, j = (s k).history.length + n ∧ m = mo n := by
  obtain ⟨n, rfl⟩ := Nat.exists_eq_add_of_le hj
  exact ⟨n, rfl, momentAt_unique hrun hm (hat n)⟩

/-! ### What commands may write of the timer -/

/-- T_CNT is written by SET_NEXT_EVENT alone, and never with 0 (R78, R176). -/
theorem write_count {i : Instr} {w : Reg × Word} (h : mayWrite i w) (m : MmioRegs) :
    (m.write w.1 w.2).tCnt = m.tCnt ∨ (m.write w.1 w.2).tCnt ≠ 0 := by
  obtain ⟨r, v⟩ := w
  cases r with
  | tCnt =>
    cases i <;> simp [mayWrite, initWrites] at h
    case wrg g _ => cases g <;> simp [regOf] at h
    obtain ⟨rfl, h⟩ := h
    refine .inr fun h0 => ?_
    have : v = 0 := h0
    simp [this] at h
  | banked k b => cases k <;> exact .inl rfl
  | _ => exact .inl rfl

/-- T_CNT and T_CTL are written by SET_MODE and SET_NEXT_EVENT alone (R78). -/
theorem write_keeps_timer {i : Instr} {w : Reg × Word} (h : mayWrite i w)
    (h₁ : ∀ m, i ≠ .setMode m) (h₂ : ∀ d, i ≠ .setNextEvent d) (m : MmioRegs) :
    (m.write w.1 w.2).tCnt = m.tCnt ∧ (m.write w.1 w.2).tCtl = m.tCtl := by
  obtain ⟨r, v⟩ := w
  cases r with
  | tCnt =>
    cases i <;> simp [mayWrite, initWrites] at h
    case wrg g _ => cases g <;> simp [regOf] at h
    exact absurd rfl (h₂ _)
  | tCtl =>
    cases i <;> simp [mayWrite, initWrites] at h
    case wrg g _ => cases g <;> simp [regOf] at h
    case setMode => exact absurd rfl (h₁ _)
    case setNextEvent => exact absurd rfl (h₂ _)
  | banked k b => cases k <;> exact ⟨rfl, rfl⟩
  | _ => exact ⟨rfl, rfl⟩

end Sys2Proof.Machine
end

