-- ==== Sys2Proof/Tests/Slice0.lean ====
section
/-!
SUPPORT. The model's own tests. Every expected value is copied from spec/ (the encodings of R110 and R122,
the vectors V-… of 95_test_vectors.md, or the example of the rule named); the witnesses show, for each
statement with hypotheses, a state and operands that meet them.
-/
namespace Sys2Proof.Tests

open Sys2Proof.Machine

/-! ### Small states -/

/-- A running core after INIT and TINIT with the given registers, nothing mapped, nothing scheduled. -/
def ready (m : MmioRegs) : State :=
  { State.reset with
    mmio := m
    internal := { State.reset.internal with
      intcReady := true, intcBase := 0x01C20400
      tmrReady := true, tmrBase := 0x01C20C00, timerLine := 22
      mult := 6442450, minNs := 667, maxNs := 170001 } }

/-- Registers all zero but PENDING and ENABLE. -/
def regs (pending enable : Banks) : MmioRegs :=
  { MmioRegs.zero with pending := pending, enable := enable }

/-- Registers all zero but T_CTL, T_CNT, T_INTV and TPEND. -/
def timer (ctl cnt intv : Word) (tpend : Bool) : MmioRegs :=
  { MmioRegs.zero with tCtl := ctl, tCnt := cnt, tIntv := intv, tpend := tpend }

/-- `s` with line `n` known as `id`, its operations installed or not. -/
def mapped (s : State) (n : Line) (id : Word) (installed : Bool) : State :=
  { s with internal := { s.internal with
      map := s.internal.map.set n.val (some id)
      nmapped := s.internal.nmapped + 1
      bound := if installed then s.internal.bound ||| 1#96 <<< n.val else s.internal.bound } }

/-- `s` inside callbacks. -/
def within (s : State) (ctx : List Ctx) : State :=
  { s with internal := { s.internal with ctx := ctx } }

/-- `s` with a latched fatal error. -/
def halted (s : State) (code : BitVec 4) : State :=
  { s with internal := { s.internal with halt := code } }

/-- What a reader sees of the state a command leaves; nothing where it stops. -/
def view {α : Type} (f : State → α) : Out → Option α
  | .next t => some (f t)
  | .fault _ => none
  | .refused _ => none

/-- The fault a command stops with. -/
def fault? : Out → Option Fault
  | .fault f => some f
  | .next _ => none
  | .refused _ => none

/-- RES and ST. -/
def response (s : State) : Word × BitVec 4 := (s.res, s.st)

/-! ### The command word -/

/-- R110: the match and mask columns of the opcode map, row by row. -/
theorem test_opcode_map :
    Op.all.map (fun o => (o.matchWord, o.maskWord)) =
      [(0x1000000000000000, 0xFFFFFFF0FFFFFFFF), (0x1100000000000000, 0xFFFFFFF000000000),
       (0x1200000000000000, 0xFFFFFFFCFFFFFFFF), (0x1300000000000000, 0xFFFFFFFC00000000)] ++
      [(0x2000000000000000, 0xFFFFFFFF00000000), (0x2100000000000000, 0xFFFFFFFF00000000),
       (0x2200000000000000, 0xFFFFFFFF00000000), (0x2400000000000000, 0xFFFFFFFF00000000),
       (0x2500000000000000, 0xFFFFFFFF00000000), (0x2600000000000000, 0xFFFFFFFF00000000)] ++
      [(0x3000000000000000, 0xFFFFFFFF00000000), (0x3100000000000000, 0xFFFFFFFF00000000),
       (0x3200000000000000, 0xFFFFFFFF00000000), (0x3300000000000000, 0xFFFFFFFFFFFFFFFF),
       (0x3400000000000000, 0xFFFFFFFFFFFFFFFF)] ++
      [(0x4000000000000000, 0xFFFFFF0000000000), (0x4100000000000000, 0xFFFFFFFCFFFFFFFF),
       (0x4200000000000000, 0xFFFFFFFF00000000), (0x4300000000000000, 0xFFFFFFFFFFFFFFFF),
       (0x4400000000000000, 0xFFFFFFFFFFFFFFFF)] ++
      [(0x5000000000000000, 0xFFFFFFFF00000000), (0x5100000000000000, 0xFFFFFFFF00000000),
       (0x5200000000000000, 0xFFFFFFFFFFFFFFFF), (0x5300000000000000, 0xFFFFFFFFFFFFFFFF)] := by
  decide

/-- V-ENC-1, V-ENC-2, R122: RD, WR, RDG, WRG. -/
theorem test_decode_register_access :
    [decode 0x1000000500000000, decode 0x11000002FFFFFFFF, decode 0x1200000000000000,
     decode 0x1200000200000000, decode 0x1300000200000000, decode 0x1300000100000007] =
    [some (.rd .enable .b1), some (.wr .pending .b2 0xFFFFFFFF), some (.rdg .vector),
     some (.rdg .nmiType), some (.wrg .nmiType 0), some (.wrg .protect 7)] := by decide

/-- V-ENC-5, V-ENC-6, programs P1, P2 and P4: the six line control commands. -/
theorem test_decode_line_control :
    [decode 0x200000000000005F, decode 0x2000000000000060, decode 0x2100000000000025,
     decode 0x2200000000000016, decode 0x2400000000000001, decode 0x2500000000000001,
     decode 0x2600000000000001] =
    [some (.ack 95), some (.ack 96), some (.mask 37), some (.unmask 22), some (.lack 1),
     some (.lmask 1), some (.lunmask 1)] := by decide

/-- Programs P1 and P2: the five domain commands. -/
theorem test_decode_domain :
    [decode 0x3000000001C20400, decode 0x3100000000000005, decode 0x3200000000000001,
     decode 0x3300000000000000, decode 0x3400000000000000] =
    [some (.init 0x01C20400), some (.resolve 5), some (.install 1), some .irqEntry,
     some .dispatchRet] := by decide

/-- V-ENC-3, V-ENC-4, programs P2 and P3: the timer commands. -/
theorem test_decode_timer :
    [decode 0x4000001601C20C00, decode 0x4100000000000000, decode 0x4100000100000000,
     decode 0x4100000200000000, decode 0x4100000300000000, decode 0x42000000000000FF,
     decode 0x4300000000000000, decode 0x4400000000000000] =
    [some (.tinit 22 0x01C20C00), some (.setMode .disabled), some (.setMode .periodic),
     some (.setMode .oneshot), some (.setMode .unused), some (.setNextEvent 255),
     some .timerIrq, some .tickRet] := by decide

/-- R122, program P3: the converter commands. -/
theorem test_decode_converter :
    [decode 0x50000000000186A0, decode 0x5100000000000001, decode 0x5200000000000000,
     decode 0x5300000000000000] =
    [some (.ns2t 100000), some (.t2ns 1), some .getmin, some .getmax] := by decide

/-- V-ENC-7 to V-ENC-15: the illegal words. -/
theorem test_decode_illegal :
    [decode 0x1000000C00000000, decode 0x1000000300000000, decode 0x1300000000000005,
     decode 0x4100000400000000, decode 0x3300000000000001, decode 0x2000010000000005,
     decode 0x0000000000000000, decode 0x2300000000000005, decode 0x1000001500000000] =
    [none, none, none, none, none, none, none, none, none] := by decide

/-- R122, V-ENC-2, V-ENC-3: the encoder writes the worked words. -/
theorem test_encode :
    [encode (.rd .enable .b1), encode (.wr .pending .b2 0xFFFFFFFF), encode (.wrg .nmiType 0),
     encode (.ack 37), encode (.tinit 22 0x01C20C00), encode (.setMode .oneshot),
     encode (.setNextEvent 255)] =
    [0x1000000500000000, 0x11000002FFFFFFFF, 0x1300000200000000, 0x2000000000000025,
     0x4000001601C20C00, 0x4100000200000000, 0x42000000000000FF] := by decide

/-- R110: a table row's word, by the numbering of the opcode table. -/
theorem test_decodeTableWord :
    [decodeTableWord 64 0x3300000000000000, decodeTableWord 64 0x4300000000000000,
     decodeTableWord 64 0, decodeTableWord 72 (2 ^ 64)] =
    [some .irqEntry, some .timerIrq, none, none] := by decide

/-- R106: the one term no word encodes. -/
theorem test_wellFormed_refuses_a_write_of_vector :
    ((Instr.wrg .vector 0).wellFormed, (Instr.wrg .protect 0).wellFormed) = (false, true) := by
  decide

/-! ### Register access -/

/-- V-RA-1. -/
theorem test_rd : view response (exec (.rd .enable .b1) (ready (regs ⟨0, 0, 0⟩ ⟨0, 0x20, 0⟩))) =
    some (0x20, 0) := by decide
/-- V-RA-13. -/
theorem test_rd_before_init : view (fun t => (response t, t.trace)) (exec (.rd .enable .b0) State.reset) =
    some ((0, 13), []) := by decide
/-- V-RA-2. -/
theorem test_wr_pending : view (·.mmio.pending)
    (exec (.wr .pending .b0 1) (ready (regs ⟨0x21, 0, 0⟩ ⟨0, 0, 0⟩))) = some ⟨0x20, 0, 0⟩ := by decide
/-- V-RA-6. -/
theorem test_wr_enable : view (·.mmio.enable)
    (exec (.wr .enable .b0 0x100) (ready (regs ⟨0, 0, 0⟩ ⟨0xFF, 0, 0⟩))) =
    some ⟨0x100, 0, 0⟩ := by decide
/-- V-RA-7 and V-RA-8. -/
theorem test_rdg_vector_low :
    (view response (exec (.rdg .vector) (ready (regs ⟨0x20, 0, 0⟩ ⟨0x20, 0, 0⟩))),
     view response (exec (.rdg .vector) (ready (regs ⟨0x21, 0, 0⟩ ⟨0x21, 0, 0⟩)))) =
    (some (0x14, 0), some (0, 0)) := by decide
/-- V-RA-9. -/
theorem test_rdg_vector_high : view response
    (exec (.rdg .vector) (ready (regs ⟨0, 0, 0x80000000⟩ ⟨0, 0, 0x80000000⟩))) =
    some (0x17C, 0) := by decide
/-- R133: the register takes the value. -/
theorem test_wrg : view (fun t => (t.mmio.protect, t.mmio.nmiType))
    (exec (.wrg .nmiType 3) (ready MmioRegs.zero)) = some (0, 3) := by decide

/-! ### Line control -/

/-- V-LC-1. -/
theorem test_ack : view (fun t => (t.mmio.pending, t.trace))
    (exec (.ack 37) (ready (regs ⟨0, 0x21, 0⟩ ⟨0, 0, 0⟩))) =
    some (⟨0, 1, 0⟩, [.busWrite 0x01C20414 0x20]) := by decide
/-- V-LC-3 and V-LC-4. -/
theorem test_ack_top_bits :
    (view (·.mmio.pending) (exec (.ack 31) (ready (regs ⟨0xFFFFFFFF, 0, 0⟩ ⟨0, 0, 0⟩))),
     view (·.mmio.pending) (exec (.ack 95) (ready (regs ⟨0, 0, 0x80000001⟩ ⟨0, 0, 0⟩)))) =
    (some ⟨0x7FFFFFFF, 0, 0⟩, some ⟨0, 0, 1⟩) := by decide
/-- V-LC-8. -/
theorem test_mask : view (fun t => (t.mmio.enable, t.trace))
    (exec (.mask 37) (ready (regs ⟨0, 0, 0⟩ ⟨0, 0x0F0F0F2F, 0⟩))) =
    some (⟨0, 0x0F0F0F0F, 0⟩,
      [.busRead 0x01C20444 0x0F0F0F2F, .busWrite 0x01C20444 0x0F0F0F0F]) := by decide
/-- V-LC-12. -/
theorem test_mask_contract : fault? (exec (.mask 96) (ready MmioRegs.zero)) =
    some (.contract .mask 96) := by decide
/-- V-LC-6. -/
theorem test_unmask_nmi : view (fun t => (t.mmio.enable, t.mmio.pending, t.trace))
    (exec (.unmask 0) (ready (regs ⟨1, 0, 0⟩ ⟨0, 0, 0⟩))) =
    some (⟨1, 0, 0⟩, ⟨0, 0, 0⟩,
      [.busRead 0x01C20440 0, .busWrite 0x01C20440 1, .busWrite 0x01C20410 1]) := by decide
/-- V-LC-11. -/
theorem test_unmask_stale : view (fun t => (t.mmio.enable, t.mmio.pending))
    (exec (.unmask 5) (ready (regs ⟨0x20, 0, 0⟩ ⟨0, 0, 0⟩))) =
    some (⟨0x20, 0, 0⟩, ⟨0x20, 0, 0⟩) := by decide
/-- V-LC-14. -/
theorem test_lack : view (·.mmio.pending)
    (exec (.lack 1) (mapped (ready (regs ⟨0x20, 0, 0⟩ ⟨0, 0, 0⟩)) 5 1 true)) =
    some ⟨0, 0, 0⟩ := by decide
/-- V-LC-15. -/
theorem test_lack_unbound : view (fun t => (response t, t.mmio.pending, t.trace))
    (exec (.lack 1) (mapped (ready (regs ⟨0x20, 0, 0⟩ ⟨0, 0, 0⟩)) 5 1 false)) =
    some ((1, 14), ⟨0x20, 0, 0⟩, []) := by decide
/-- R145's example. -/
theorem test_lmask : view (·.mmio.enable)
    (exec (.lmask 1) (mapped (ready (regs ⟨0, 0, 0⟩ ⟨0x20, 0, 0⟩)) 5 1 true)) =
    some ⟨0, 0, 0⟩ := by decide
/-- V-LC-16. -/
theorem test_lmask_unbound : view response (exec (.lmask 7) (ready MmioRegs.zero)) =
    some (7, 14) := by decide
/-- V-LC-17. -/
theorem test_lunmask : view (fun t => (t.mmio.enable, t.mmio.pending))
    (exec (.lunmask 2) (mapped (ready (regs ⟨1, 0, 0⟩ ⟨0, 0, 0⟩)) 0 2 true)) =
    some (⟨1, 0, 0⟩, ⟨0, 0, 0⟩) := by decide

/-! ### Domain and entry -/

/-- V-DOM-18: registers at arbitrary values before INIT. -/
def beforeInit : State :=
  { State.reset with mmio := { MmioRegs.zero with
      pending := ⟨0xDEADBEEF, 0, 0⟩, enable := ⟨0, 0xFFFFFFFF, 0⟩, mask := ⟨0, 0, 1⟩
      nmiType := 3 } }

/-- V-DOM-18: the registers and the eleven writes. -/
theorem test_init : view (·.mmio) (exec (.init 0x01C20400) beforeInit) =
      some { MmioRegs.zero with protect := 1 } ∧
    view (fun t => (t.internal.intcReady, t.st, t.trace)) (exec (.init 0x01C20400) beforeInit) =
    some (true, 0,
      [.busWrite 0x01C20440 0, .busWrite 0x01C20444 0, .busWrite 0x01C20448 0,
       .busWrite 0x01C20450 0, .busWrite 0x01C20454 0, .busWrite 0x01C20458 0,
       .busWrite 0x01C20410 0xFFFFFFFF, .busWrite 0x01C20414 0xFFFFFFFF,
       .busWrite 0x01C20418 0xFFFFFFFF, .busWrite 0x01C20408 1, .busWrite 0x01C2040C 0]) := by
  decide
/-- V-DOM-16. -/
theorem test_init_unmappable : view (fun t => (response t, t.internal.halt, t.internal.intcReady,
      t.trace)) (exec (.init 2) State.reset) = some ((2, 8), 8, false, []) := by decide
/-- R71, R73: the window is 0x60 bytes, so 0xFFFFFFA0 is the last base and at 0xFFFFFFA4 it wraps. -/
theorem test_init_wrapping :
    view (fun t => (response t, t.internal.halt)) (exec (.init 0xFFFFFFA0) State.reset) =
      some ((0, 0), 0) ∧
    view (fun t => (response t, t.internal.halt, t.trace)) (exec (.init 0xFFFFFFA4) State.reset) =
      some ((0xFFFFFFA4, 8), 8, []) := by decide
/-- V-DOM-3. -/
theorem test_resolve : view (fun t => (response t, t.internal.map[95], t.internal.nmapped))
    (exec (.resolve 95) (mapped (ready MmioRegs.zero) 5 1 false)) =
    some ((2, 0), some 2, 2) := by decide
/-- V-DOM-4. -/
theorem test_resolve_contract : fault? (exec (.resolve 96) (ready MmioRegs.zero)) =
    some (.contract .resolve 96) := by decide
/-- V-DOM-10. -/
theorem test_install : view (fun t => (response t, t.internal.isBound 5, t.internal.isBound 6))
    (exec (.install 1) (mapped (ready MmioRegs.zero) 5 1 false)) =
    some ((5, 0), true, false) := by decide
/-- V-DOM-11 and V-DOM-12. -/
theorem test_install_unbound :
    (view response (exec (.install 9) (ready MmioRegs.zero)),
     view response (exec (.install 0) (ready MmioRegs.zero))) =
    (some (9, 14), some (0, 14)) := by decide
/-- V-DOM-5. -/
theorem test_irqEntry : view (fun t => (response t, t.internal.map[5], t.internal.ctx,
      t.mmio.pending, t.trace))
    (exec .irqEntry (ready (regs ⟨0x20, 0, 0⟩ ⟨0x20, 0, 0⟩))) =
    some ((1, 0), some 1, [.dispatch], ⟨0x20, 0, 0⟩,
      [.busRead 0x01C20400 0x14, .dispatch 1]) := by decide
/-- V-DOM-7, V-DOM-8 and V-DOM-9: what the draws of an idle VECTOR do. -/
theorem test_irqEntry_draws :
    view (fun t => (response t, t.trace, t.internal.nmapped))
      (dispatchVector 0x180 (ready MmioRegs.zero)) = some ((0, 1), [.log 1, .dispatch 0], 0) ∧
    view (fun t => (response t, t.trace, t.internal.map[95]))
      (dispatchVector 0x17F (ready MmioRegs.zero)) = some ((1, 0), [.dispatch 1], some 1) ∧
    view response (dispatchVector 0xFFFFFFFF (ready MmioRegs.zero)) = some (0, 1) := by decide
/-- R154: the pop. -/
theorem test_dispatchRet : view (fun t => (response t, t.internal.ctx))
    (exec .dispatchRet (within (ready MmioRegs.zero) [.dispatch])) = some ((0, 0), []) := by decide
/-- V-DOM-14. -/
theorem test_dispatchRet_out_of_context : view (fun t => (response t, t.internal.ctx))
    (exec .dispatchRet (within (ready MmioRegs.zero) [.dispatch, .tick])) =
    some ((0, 13), [.dispatch, .tick]) := by decide

/-! ### Timer -/

/-- V-TM-1. -/
theorem test_tinit :
    view (fun t => (response t, t.internal.tmrBase, t.internal.timerLine, t.internal.tmrReady,
      t.trace)) (exec (.tinit 22 0x01C20C00) State.reset) =
      some ((0x00624DD2, 0), 0x01C20C00, 22, true, []) ∧
    view (fun t => (t.internal.mult, t.internal.minNs, t.internal.maxNs))
      (exec (.tinit 22 0x01C20C00) State.reset) = some (0x00624DD2, 667, 170001) := by decide
/-- V-TM-11 and V-TM-12. -/
theorem test_tinit_fatal :
    (view (fun t => (response t, t.internal.halt)) (exec (.tinit 96 0x01C20C00) State.reset),
     view (fun t => (response t, t.internal.halt)) (exec (.tinit 200 0x01C20C02) State.reset)) =
    (some ((96, 9), 9), some ((0x01C20C02, 8), 8)) := by decide
/-- V-TM-2. -/
theorem test_setMode_periodic : view (fun t => (t.mmio.tIntv, t.mmio.tCtl, t.internal.mode, t.trace))
    (exec (.setMode .periodic) (ready (timer 0x80 0 0 false))) =
    some (15000, 1, .periodic,
      [.busWrite 0x01C20C14 0x3A98, .busRead 0x01C20C10 0x80, .busWrite 0x01C20C10 1]) := by decide
/-- V-TM-4, V-TM-6, V-TM-7 and V-TM-8. -/
theorem test_setMode_others :
    (view (fun t => (t.mmio.tCtl, t.internal.mode)) (exec (.setMode .oneshot) (ready (timer 1 0 0 false))),
     view (fun t => (t.mmio.tCtl, t.internal.mode)) (exec (.setMode .disabled) (ready (timer 0x83 0 0 false))),
     view (fun t => (t.mmio.tCtl, t.internal.mode)) (exec (.setMode .unused) (ready (timer 0x83 0 0 false))),
     view (·.mmio.tCtl) (exec (.setMode .periodic) (ready (timer 0xFFFFFFFF 0 0 false)))) =
    (some (0x81, .oneShot), some (0x82, .disabled), some (0x82, .disabled), some 0xFFFFFF7F) := by
  decide
/-- V-TE-1. -/
theorem test_setNextEvent : view (fun t => (t.mmio.tCnt, t.mmio.tCtl, t.st))
    (exec (.setNextEvent 255) (ready (timer 0x80 0 0 false))) = some (0xFF, 0x83, 0) := by decide
/-- V-TE-5 and V-TE-6. -/
theorem test_setNextEvent_contract :
    (fault? (exec (.setNextEvent 0) (ready MmioRegs.zero)),
     fault? (exec (.setNextEvent 256) (ready MmioRegs.zero))) =
    (some (.contract .setNextEvent 0), some (.contract .setNextEvent 256)) := by decide
/-- V-TE-8. -/
theorem test_timerIrq : view (fun t => (t.mmio.tpend, t.internal.ctx, t.trace))
    (exec .timerIrq (within (ready (timer 0 0 0 true)) [.dispatch])) =
    some (false, [.dispatch, .tick], [.busWrite 0x01C20C04 1, .tickCallback 0]) := by decide
/-- V-TE-10. -/
theorem test_timerIrq_reentered : view (fun t => (response t, t.trace))
    (exec .timerIrq (within (ready MmioRegs.zero) [.tick])) = some ((0, 13), []) := by decide
/-- V-TE-11 and V-TE-12. -/
theorem test_tickRet :
    (view (fun t => (response t, t.internal.ctx))
       (exec .tickRet (within (ready MmioRegs.zero) [.dispatch, .tick])),
     view (fun t => (response t, t.internal.ctx))
       (exec .tickRet (within (ready MmioRegs.zero) [.dispatch]))) =
    (some ((0, 0), [.dispatch]), some ((0, 13), [.dispatch])) := by decide

/-! ### Converter -/

/-- V-NS-3 to V-NS-6, V-NS-10, V-NS-11 and V-NS-14. -/
theorem test_ns2t : ([667, 170001, 666, 170000, 1333, 1334, 100000, 4294967295].map fun x =>
      view response (exec (.ns2t x) (ready MmioRegs.zero))) =
    [some (1, 0), some (255, 0), some (0, 0), some (254, 0), some (1, 0), some (2, 0),
     some (149, 0), some (6442449, 0)] := by decide
/-- V-NS-1, V-NS-2 and V-NS-15 to V-NS-20. -/
theorem test_t2ns : ([1, 255, 0, 2, 15000, 6442449, 6442450, 4294967295].map fun x =>
      view response (exec (.t2ns x) (ready MmioRegs.zero))) =
    [some (667, 0), some (170001, 0), some (0, 0), some (1334, 0), some (10000002, 0),
     some (4294966630, 0), some (0xFFFFFFFF, 0), some (0xFFFFFFFF, 0)] := by decide
/-- R189 and R190. -/
theorem test_bounds :
    (view response (exec .getmin (ready MmioRegs.zero)),
     view response (exec .getmax (ready MmioRegs.zero))) =
    (some (667, 0), some (170001, 0)) := by decide

/-! ### Environment, timer hardware and prologue -/

/-- V-HW-2 and V-HW-3. -/
theorem test_timerExpire :
    envApply State.reset.internal (timer 0x83 0 0 false) .timerExpire = timer 0x82 0 0 true ∧
    envApply State.reset.internal (timer 1 0 15000 false) .timerExpire =
      timer 1 15000 15000 true := by decide
/-- V-HW-1 and V-HW-4. -/
theorem test_timerTick :
    envRun State.reset.internal (timer 0x83 2 0 false) [.timerTick, .timerTick, .timerTick] =
      timer 0x83 0 0 false ∧
    envApply State.reset.internal (timer 0x80 5 0 false) .timerTick = timer 0x80 5 0 false := by decide
/-- V-HW-5 and V-HW-6. -/
theorem test_timer_line :
    (envApply (ready MmioRegs.zero).internal (timer 0 0 0 true) (.lineRaise 22)).pending =
      ⟨0x00400000, 0, 0⟩ ∧
    envEnabled (ready MmioRegs.zero).internal (timer 0 0 0 false) (.lineRaise 22) = false := by decide
/-- V-HW-7: a disabled line latches and asks for nothing. -/
theorem test_disabled_line_latches :
    ((ready MmioRegs.zero).mmio.raise 3).pending = ⟨8, 0, 0⟩ ∧
    State.irqOut (ready ((ready MmioRegs.zero).mmio.raise 3)) = false := by decide
/-- V-ST-1, V-ST-2 and V-ST-4. -/
theorem test_prologue :
    (view response (step ((halted (ready MmioRegs.zero) 8).present 0x5200000000000000)),
     view response (step ((halted (ready MmioRegs.zero) 8).present 0)),
     view response (step (State.reset.present 0x2000000000000060))) =
    (some (8, 15), some (0, 12), some (0, 13)) := by decide
/-- The host's word runs as the first command after reset: INIT (V-DOM-18's base). -/
theorem test_withFetchWord : view (fun t => (t.internal.intcReady, t.port))
    (step (State.reset.withFetchWord 64 0x3000000001C20400)) = some (true, []) := by decide

/-! ### Witnesses: states and operands that meet the hypotheses of the statements -/

/-- Running, line 5 known as 1 with its operations installed; line 5 is pending and enabled. -/
def sample : State := mapped (ready (regs ⟨0x20, 0, 0⟩ ⟨0x20, 0, 0⟩)) 5 1 true

/-- AdmissibleRatesFitTheirRegisters and every statement over admissible machines: the default one. -/
theorem test_witness_admissible : Params.default.Admissible :=
  ⟨by decide, by decide, by decide, by decide, by norm_num [Params.default],
    by norm_num [Params.default], by norm_num [Params.default], by decide, by decide,
    by simp [Params.intcOffsets, Params.default], by simp [Params.tmrOffsets, Params.default],
    by simp [Params.intcEnds, Params.default], by simp [Params.tmrEnds, Params.default],
    by decide, by decide⟩

theorem sample_map (n : Line) : sample.internal.map[n] = if n = 5 then some 1 else none := by
  have h : (Vector.replicate 96 (none : Option Word))[n] = none := by simp
  have := map_set_get (Vector.replicate 96 none) 5 n 1
  rw [h] at this
  exact this

/-- The invariant holds of a state with a mapping, a binding and both devices up. -/
theorem test_witness_invariant : Inv sample where
  admissible := test_witness_admissible
  mapDistinct := by
    intro m n id hm hn
    rw [sample_map] at hm hn
    split at hm <;> split at hn <;> simp_all
  mapNonzero := by
    intro n
    rw [sample_map]
    split <;> decide
  mapCount := by decide
  boundMapped := by decide
  ctxLegal := by decide
  ctxDispatch := by decide
  ctxTick := by decide
  haltLegal := by decide
  stLegal := by decide
  intcMapped := by decide
  tmrMapped := by decide
  windowsApart := by decide
  timerLineOk := by decide
  multOk := by decide
  minNsOk := by decide
  maxNsOk := by decide
  modeBeforeTinit := by decide

/-- DecodeOfEncodeIsTheCommand: well-formed commands at the ends of their operands. -/
theorem test_witness_wellFormed :
    (Instr.wr .mask .b2 0xFFFFFFFF).wellFormed ∧ (Instr.wrg .nmiType 0).wellFormed ∧
    (Instr.tinit 255 0xFFFFFFFF).wellFormed ∧ (Instr.setMode .unused).wellFormed := by decide

/-- EveryLegalWordIsItsCommandsEncoding. -/
theorem test_witness_legal_word : decode 0x1300000200000000 = some (.wrg .nmiType 0) := by decide

/-- IllegalWordsAreThoseOfR118, StepRunsTheDecodedCommand, PrologueChecksInOrder: a word presented that
is illegal, one that decodes, and none. -/
theorem test_witness_port :
    (ready MmioRegs.zero |>.present 0).port = 0 :: [] ∧ decode 0 = none ∧
    (ready MmioRegs.zero |>.present 0x5200000000000000).port = 0x5200000000000000 :: [] ∧
    decode 0x5200000000000000 = some .getmin ∧ (ready MmioRegs.zero).port = [] := by decide

/-- PrologueChecksInOrder: a halted core, and a running one that does not permit INIT again. -/
theorem test_witness_prologue :
    (halted (ready MmioRegs.zero) 8).internal.halt ≠ 0 ∧
    (ready MmioRegs.zero).internal.halt = 0 ∧
    permitted (.init 0x01C20400) (ready MmioRegs.zero) = false ∧
    decode 0x3000000001C20400 = some (.init 0x01C20400) := by decide

/-- PermittedIsTheTableOfR203: members of its two groups. -/
theorem test_witness_groups :
    Instr.rdg .vector ∈ [Instr.rdg .vector, .rdg .protect, .rdg .nmiType] ∧
    Instr.getmin ∈ [Instr.getmin, .getmax] := by decide

/-- ContractViolationsFault: both edges of both ranges. -/
theorem test_witness_contract :
    IntcRunning (ready MmioRegs.zero) ∧ 96 ≤ (96 : Word).toNat ∧ 96 ≤ (0xFFFFFFFF : Word).toNat ∧
    TmrRunning (ready MmioRegs.zero) ∧ ((0 : Word).toNat = 0 ∨ 256 ≤ (0 : Word).toNat) ∧
    ((256 : Word).toNat = 0 ∨ 256 ≤ (256 : Word).toNat) := by decide

/-- OnlyContractViolationsStop: a command that stops. -/
theorem test_witness_stop : exec (.ack 96) (ready MmioRegs.zero) = .fault (.contract .ack 96) := rfl

/-- RegisterAddressesAreBasePlusOffset: the two bases are mappable. -/
theorem test_witness_mappable_bases :
    mappable (ready MmioRegs.zero) .intc (ready MmioRegs.zero).internal.intcBase = true ∧
    mappable (ready MmioRegs.zero) .tmr (ready MmioRegs.zero).internal.tmrBase = true := by decide

/-- RegisterAddressesAreBasePlusOffset: each bank has its number. -/
theorem test_witness_banks : ∀ b : Bank, ∃ k : Nat,
    (b = .b0 ∧ k = 0) ∨ (b = .b1 ∧ k = 1) ∨ (b = .b2 ∧ k = 2) := by
  intro b; cases b
  · exact ⟨0, .inl ⟨rfl, rfl⟩⟩
  · exact ⟨1, .inr (.inl ⟨rfl, rfl⟩)⟩
  · exact ⟨2, .inr (.inr ⟨rfl, rfl⟩)⟩

/-- RdReturnsTheRegister, WrFollowsTheWriteRuleOfItsKind, RdgReturnsTheGlobalRegister (with a
candidate), WrgStoresTheValue. -/
theorem test_witness_register_access :
    IntcRunning sample ∧ sample.envSlot.mmio.pending.line 5 = true ∧
    sample.mmio.enable.line 5 = true ∧ sample.mmio.mask.line 5 = false := by decide

/-- WritesChangeNoOtherByte: an answered write, and the bytes just before and just after the word. -/
theorem test_witness_bytes :
    IntcRunning (ready MmioRegs.zero) ∧
    (∃ t, exec (.wr .enable .b1 7) (ready MmioRegs.zero) = .next t) ∧
    (∃ t, exec (.wrg .protect 7) (ready MmioRegs.zero) = .next t) ∧
    (∃ t, exec (.wrg .nmiType 7) (ready MmioRegs.zero) = .next t) ∧
    4 ≤ ((0x01C20448 : Word) - (ready MmioRegs.zero).addrOf (.banked .enable .b1)).toNat ∧
    4 ≤ ((0x01C20443 : Word) - (ready MmioRegs.zero).addrOf (.banked .enable .b1)).toNat :=
  ⟨by decide, ⟨_, rfl⟩, ⟨_, rfl⟩, ⟨_, rfl⟩, by decide, by decide⟩

/-- DefaultArbitrationIsLowestLineFirst: the highest line as the only candidate. -/
theorem test_witness_arbitration :
    (ready (regs ⟨0, 0, 0x80000000⟩ ⟨0, 0, 0x80000000⟩)).cfg.arbTable = [] ∧
    (ready (regs ⟨0, 0, 0x80000000⟩ ⟨0, 0, 0x80000000⟩)).mmio.isCand 95 = true ∧
    ∀ m : Line, (ready (regs ⟨0, 0, 0x80000000⟩ ⟨0, 0, 0x80000000⟩)).mmio.isCand m = true → 95 ≤ m := by
  decide

/-- RawBusReachesExactlyTheRegisters: an admissible machine after INIT, an address of no register, and a
misaligned one. -/
theorem test_witness_raw_bus :
    (ready MmioRegs.zero).cfg.Admissible ∧ (ready MmioRegs.zero).internal.intcReady = true ∧
    (ready MmioRegs.zero).internal.intcBase.toNat % 4 = 0 ∧
    (∀ r ∈ (ready MmioRegs.zero).mappedRegs, (ready MmioRegs.zero).addrOf r ≠ 0x01C20404) ∧
    (0x01C20401 : Word).toNat % 4 ≠ 0 :=
  ⟨test_witness_admissible, by decide⟩

/-- RawBusReachesTheTimersRegisters: a machine whose windows do not overlap. -/
theorem test_witness_timer_window :
    (ready MmioRegs.zero).internal.tmrReady = true ∧
    (ready MmioRegs.zero).internal.tmrBase.toNat % 4 = 0 ∧
    ((ready MmioRegs.zero).internal.intcReady = true → ∀ q ∈ Reg.intcAll, ∀ r ∈ Reg.tmrAll,
      (ready MmioRegs.zero).addrOf q ≠ (ready MmioRegs.zero).addrOf r) ∧
    (ready MmioRegs.zero).cfg.Admissible := by
  refine ⟨?_, ?_, ?_, test_witness_admissible⟩ <;> decide

/-- The commands by line (ACK, MASK, UNMASK, MaskThenUnmask, RESOLVE): the lines at the ends of the three
banks, line 0 and the others. -/
theorem test_witness_lines :
    IntcRunning (ready MmioRegs.zero) ∧
    ∀ n ∈ ([0, 31, 32, 63, 64, 95] : List Line), (BitVec.ofNat 32 n.val : Word).toNat = n.val := by
  decide

/-- IdentifierCommandsActOnTheirLine, InstallBindsTheLineOfTheIdentifier. -/
theorem test_witness_identifier :
    Inv sample ∧ IntcRunning sample ∧ sample.internal.map[(5 : Line)] = some 1 ∧
    sample.internal.isBound 5 = true :=
  ⟨test_witness_invariant, by decide⟩

/-- UnboundIdentifiersAreRefused: an identifier not installed, and one of no line. -/
theorem test_witness_unbound :
    IntcRunning (mapped (ready MmioRegs.zero) 5 1 false) ∧
    (∀ n : Line, (mapped (ready MmioRegs.zero) 5 1 false).internal.map[n] = some 1 →
      (mapped (ready MmioRegs.zero) 5 1 false).internal.isBound n = false) ∧
    (∀ n : Line, (mapped (ready MmioRegs.zero) 5 1 false).internal.map[n] ≠ some 0) := by decide

/-- InitResetsTheController, FatalBringUpErrorsLatchHalt, TinitLatchesTheTimerState: reset, with
mappable and unmappable bases, a base whose window reaches one word into the timer's, and both sides of the
line bound. -/
theorem test_witness_bring_up :
    State.reset.internal.halt = 0 ∧ State.reset.internal.intcReady = false ∧
    State.reset.internal.tmrReady = false ∧ State.reset.internal.ctx = [] ∧
    mappable State.reset .intc 0x01C20400 = true ∧ mappable State.reset .intc 2 = false ∧
    mappable State.reset .tmr 0x01C20C00 = true ∧ mappable State.reset .tmr 2 = false ∧
    mappable { ready MmioRegs.zero with
      internal := { (ready MmioRegs.zero).internal with intcReady := false } } .intc 0x01C20BA4 = false ∧
    (95 : BitVec 8).toNat ≤ 95 ∧ 96 ≤ (96 : BitVec 8).toNat ∧ State.reset.cfg.Admissible := by
  refine ⟨?_, ?_, ?_, ?_, ?_, ?_, ?_, ?_, ?_, ?_, ?_, test_witness_admissible⟩ <;> decide

/-- ResolveGivesEachLineOneIdentifier and EveryVectorValueIsDispatchedOnce: a line with an identifier, a
line without in a table not full, and (in a state no run reaches) without in a full one. -/
theorem test_witness_resolve :
    IntcRunning sample ∧ sample.internal.map[(5 : Line)].isSome = true ∧
    sample.internal.map[(6 : Line)] = none ∧ sample.internal.nmapped.toNat ≠ 96 ∧
    ({ sample.internal with nmapped := 96 } : InternalRegs).nmapped.toNat = 96 := by decide

/-- NoCommandFindsTheTableFull: a line without identifier, and a command that answers. -/
theorem test_witness_free_line : Inv sample ∧ sample.internal.map[(95 : Line)] = none ∧
    ∃ t, exec (.resolve 95) sample = .next t :=
  ⟨test_witness_invariant, by decide, ⟨_, rfl⟩⟩

/-- EveryVectorValueIsDispatchedOnce: the last value that names a line and the first that names none. -/
theorem test_witness_vector_values :
    (0x17F : Word).toNat / 4 = (95 : Line).val ∧ 96 ≤ (0x180 : Word).toNat / 4 := by decide

/-- IrqEntryDispatchesExactlyOnce, with a candidate. -/
theorem test_witness_irqEntry :
    Inv sample ∧ IntcRunning sample ∧ sample.internal.ctx = [] ∧
    sample.envSlot.mmio.isCand 5 = true :=
  ⟨test_witness_invariant, by decide⟩

/-- ReturnsPopTheContextOnly, both returns. -/
theorem test_witness_returns :
    (within (ready MmioRegs.zero) [.dispatch]).internal.halt = 0 ∧
    (within (ready MmioRegs.zero) [.dispatch]).internal.ctx = [] ++ [.dispatch] ∧
    (within (ready MmioRegs.zero) [.dispatch, .tick]).internal.ctx = [.dispatch] ++ [.tick] := by decide

/-- The timer's commands (SetModeRunsTheRequestedTransition, SetNextEventArmsTheTimer,
SecondEventOverwritesTheFirst, TimerIrqAcknowledgesThenCallsBack, the converter). -/
theorem test_witness_timer :
    TmrRunning (ready MmioRegs.zero) ∧ (1 ≤ (1 : Word).toNat ∧ (255 : Word).toNat ≤ 255) ∧
    (∀ slot ∈ (ready MmioRegs.zero).env.drop 4, ∀ e ∈ slot, e.isTimer = false) ∧
    Ctx.tick ∉ (ready MmioRegs.zero).internal.ctx ∧ (ready MmioRegs.zero).internal.mult ≠ 0 := by decide

/-- ReadModifyWriteWindowsOfTCtl: an expiry scheduled inside the window. -/
def expiring : State :=
  { ready (timer 0x81 0 0 false) with env := [[], [.timerExpire]] }

/-- ReadModifyWriteWindowsOfTCtl, each clause. -/
theorem test_witness_window :
    (TmrRunning expiring ∧ expiring.env = [] :: [.timerExpire] :: [] ∧ expiring.mmio.en = true ∧
      expiring.mmio.single = true ∧ expiring.mmio.tCnt = 0) ∧
    (∃ t, exec (.setMode .periodic) expiring = .next t) ∧
    (∃ t, exec (.setNextEvent 255) expiring = .next t) ∧
    (∃ t, exec (.setMode .disabled) expiring = .next t) :=
  ⟨by decide, ⟨_, rfl⟩, ⟨_, rfl⟩, ⟨_, rfl⟩⟩

/-- TickRoundTripIsExact. -/
theorem test_witness_round_trip :
    (6442450 : Word) ≠ 0 ∧ t2ns (6442450 : Word).toNat (6442449 : Word).toNat < 2 ^ 32 ∧
    1 ≤ (1 : Word).toNat := by decide

/-- ValidatedDeltasAreAlwaysAccepted, at both bounds. -/
theorem test_witness_validated :
    Inv sample ∧ TmrRunning sample ∧ t2ns sample.internal.mult.toNat 255 < 2 ^ 32 ∧
    sample.internal.minNs ≤ 667 ∧ (170001 : Word) ≤ sample.internal.maxNs :=
  ⟨test_witness_invariant, by decide⟩

/-- LineRaiseLatchesItsLine and TimerLineWaitsForExpiry: the timer's own line, with and without an
expiry. -/
theorem test_witness_timer_line :
    (ready MmioRegs.zero).internal.tmrReady = true ∧
    (ready MmioRegs.zero).internal.timerLine.toNat = (22 : Line).val ∧
    (timer 0 0 0 true).tpend = true ∧ (timer 0 0 0 false).tpend = false := by decide

/-- TimerTicksAndExpires and ArmedTimerFiresAfterItsCount: armed, at a count, at zero, one-shot and
continuous. -/
theorem test_witness_armed :
    (timer 0x83 2 0 false).tCtl.getLsbD 0 = true ∧ (timer 0x83 2 0 false).tCnt ≠ 0 ∧
    (timer 0x83 0 0 false).tCnt = 0 ∧ (timer 0x83 0 0 false).tCtl.getLsbD 7 = true ∧
    (timer 1 0 15000 false).en = true ∧ (timer 1 0 15000 false).single = false := by decide

/-- A continuous timer of period 0 that expires in every step. -/
def fairRun : Nat → State
  | 0 => ready (timer 1 0 0 false)
  | k + 1 => ((fairRun k).feed [[.timerExpire]] []).envSlot

theorem fairRun_regs (k : Nat) : (fairRun k).port = [] ∧ (fairRun k).history.length = 2 * k ∧
    (fairRun k).mmio.tCtl = 1 ∧ (fairRun k).mmio.tCnt = 0 ∧ (fairRun k).mmio.tIntv = 0 := by
  induction k with
  | zero => exact ⟨rfl, rfl, rfl, rfl, rfl⟩
  | succ k ih =>
    obtain ⟨hp, hl, hc, hn, hi⟩ := ih
    have henv : envEnabled (fairRun k).internal (fairRun k).mmio .timerExpire = true := by
      simp [envEnabled, MmioRegs.canExpire, MmioRegs.en, hc, hn]
    have hsingle : (fairRun k).mmio.single = false := by simp [MmioRegs.single, hc]
    refine ⟨?_, ?_, ?_, ?_, ?_⟩ <;>
      simp [fairRun, State.feed, State.envSlot, envRun, slotMoments, envApply, henv, envEffect, hsingle,
        hp, hl, hc, hi]
    omega

theorem fairRun_moment (k : Nat) :
    MomentAt fairRun (2 * k) ⟨(fairRun k).mmio, some .timerExpire⟩ := by
  obtain ⟨-, hl, hc, hn, -⟩ := fairRun_regs k
  have henv : envEnabled (fairRun k).internal (fairRun k).mmio .timerExpire = true := by
    simp [envEnabled, MmioRegs.canExpire, MmioRegs.en, hc, hn]
  refine ⟨k + 1, ?_⟩
  simp [fairRun, State.feed, State.envSlot, slotMoments, envTaken, henv, hl]

theorem fairRun_history (k : Nat) : ∀ mo ∈ (fairRun k).history, mo.regs.en = true := by
  induction k with
  | zero => intro mo h; simp [fairRun, ready, State.reset, State.resetWith] at h
  | succ k ih =>
    have h1 : (fairRun k).mmio.en = true := by simp [MmioRegs.en, (fairRun_regs k).2.2.1]
    have h2 : (fairRun (k + 1)).mmio.en = true := by simp [MmioRegs.en, (fairRun_regs (k + 1)).2.2.1]
    intro mo h
    have : mo ∈ (fairRun k).history ∨ mo.regs = (fairRun k).mmio ∨ mo.regs = (fairRun (k + 1)).mmio := by
      simp only [fairRun, State.feed, State.envSlot, List.headD_cons, slotMoments, List.mem_append,
        List.mem_cons, List.not_mem_nil, or_false] at h
      rcases h with h | rfl | rfl
      · exact .inl h
      · exact .inr (.inl rfl)
      · exact .inr (.inr rfl)
    rcases this with h | h | h
    · exact ih mo h
    · rw [h]; exact h1
    · rw [h]; exact h2

/-- FairArmedTimerExpires: an infinite run that is fair, in which EN is 1 throughout and no word is
presented. -/
theorem test_witness_fair_run :
    Run fairRun (fun _ => [[.timerExpire]]) (fun _ => []) ∧ TimerFair fairRun ∧
    (∀ i mo, (fairRun 0).history.length ≤ i → MomentAt fairRun i mo → mo.regs.en = true) ∧
    (fairRun 0).mmio.en = true ∧
    ∀ j w, ((fairRun j).feed [[.timerExpire]] []).port.head? = some w →
      (∀ m, decode w ≠ some (.setMode m)) ∧ ∀ d, decode w ≠ some (.setNextEvent d) := by
  have hport : ∀ k, ((fairRun k).feed [[.timerExpire]] []).port = [] := by
    intro k
    simp [State.feed, (fairRun_regs k).1]
  refine ⟨fun k => step_idle (hport k), ⟨fun i h => ?_, fun i _ => ?_⟩, ?_, by decide, ?_⟩
  · have := h (2 * i) _ (by omega) (fairRun_moment i)
    simp [MmioRegs.canTick, (fairRun_regs i).2.2.2.1] at this
  · exact ⟨2 * i, _, by omega, fairRun_moment i, rfl⟩
  · rintro i mo - ⟨k, hk⟩
    exact fairRun_history k mo (List.mem_of_getElem? hk)
  · intro j w h
    rw [hport j] at h
    cases h

/-- ResetLeavesTheValuesOfR50: reset is one of its states. -/
theorem test_witness_reset :
    State.reset = State.resetWith Params.default MmioRegs.zero 0 0 0 0 0 0 := rfl

/-- EveryStepKeepsTheInvariant, MappingsAndBindingsArePermanent: a step from a state with a mapping, a
binding and both devices up. -/
theorem test_witness_step :
    Inv sample ∧ (∃ t, step sample = .next t) ∧ sample.internal.map[(5 : Line)] = some 1 ∧
    sample.internal.isBound 5 = true ∧ sample.internal.intcReady = true ∧
    sample.internal.tmrReady = true :=
  ⟨test_witness_invariant, ⟨_, rfl⟩, by decide⟩

/-- HaltedCoreStaysHalted. -/
theorem test_witness_halted : (halted State.reset 8).internal.halt ≠ 0 := by decide

/-- OnlyLineRaisesSetPendingBits: a step after which a line is pending. -/
theorem test_witness_pending :
    view (fun t => t.mmio.pending.line 5) (step sample) = some true := by decide

/-- OnlyArmingCommandsArmTheTimer: both arming commands arm a disarmed timer. -/
theorem test_witness_arming :
    (ready MmioRegs.zero).mmio.en = false ∧
    view (·.mmio.en) (step ((ready MmioRegs.zero).present 0x4100000100000000)) = some true ∧
    view (·.mmio.en) (step ((ready MmioRegs.zero).present 0x4200000000000001)) = some true := by
  decide

/-- RegistersAreWrittenByTheirCommandsOnly, OtherCommandsLeaveTheTimerAlone and
TableAndModeAreWrittenByTheirCommandsOnly: commands that answer and change each of these. -/
theorem test_witness_changes :
    view (·.mmio.enable) (exec (.mask 5) sample) = some ⟨0, 0, 0⟩ ∧
    view (·.mmio.mask) (exec (.wr .mask .b0 1) sample) = some ⟨1, 0, 0⟩ ∧
    view (·.mmio.protect) (exec (.wrg .protect 1) sample) = some 1 ∧
    view (·.mmio.nmiType) (exec (.wrg .nmiType 1) sample) = some 1 ∧
    view (·.mmio.tIntv) (exec (.setMode .periodic) sample) = some 15000 ∧
    view (·.internal.nmapped) (exec (.resolve 6) sample) = some 2 ∧
    view (·.internal.isBound 5)
      (exec (.install 1) (mapped (ready MmioRegs.zero) 5 1 false)) = some true ∧
    view (·.internal.mode) (exec (.setMode .oneshot) sample) = some .oneShot ∧
    view (·.internal.ctx) (exec .timerIrq sample) = some [.tick] := by decide

end Sys2Proof.Tests
end

section
/-!
PROOFS of the scope's statements: the rates of an admissible configuration (R9, R171, R185) and the
addresses of the registers (R14, R73, R129).
-/
namespace Sys2Proof.Machine

/-! ### Rates -/

theorem interval_pos {p : Params} (h : p.Admissible) : 1 ≤ interval p := by
  obtain ⟨-, hprescale, hhz, hle, -⟩ := h
  exact Nat.div_pos hle (Nat.mul_pos hprescale hhz)

theorem interval_lt {p : Params} (h : p.Admissible) : interval p < 2 ^ 32 := by
  obtain ⟨-, -, -, -, hrate, -⟩ := h
  exact (Nat.div_le_self _ _).trans_lt hrate

theorem multiplier_pos {p : Params} (h : p.Admissible) : 1 ≤ multiplier p := by
  obtain ⟨-, hprescale, -, -, -, hle, -⟩ := h
  exact Nat.div_pos hle (Nat.mul_pos hprescale (by decide))

/-- A rate below one tick per nanosecond (R185) is what keeps MULT in its register. -/
theorem multiplier_lt {p : Params} (h : p.Admissible) : multiplier p < 2 ^ 32 := by
  obtain ⟨-, -, -, -, -, -, hlt, -⟩ := h
  exact Nat.div_lt_of_lt_mul (by
    rw [Nat.mul_comm]
    exact Nat.mul_lt_mul_of_pos_right hlt (by decide))

/-- Settles O35: each bound is one constraint on the rates carried through the division. -/
theorem admissibleRatesFitTheirRegisters : Obligations.AdmissibleRatesFitTheirRegisters :=
  fun _ h => ⟨interval_pos h, interval_lt h, multiplier_pos h, multiplier_lt h⟩

/-! ### Register addresses -/

/-- The number of a bank, the `b` of R129's `4*b`. -/
def bankIndex : Bank → Nat
  | .b0 => 0 | .b1 => 1 | .b2 => 2

theorem bankIndex_iff {b : Bank} {k : Nat} :
    (b = .b0 ∧ k = 0) ∨ (b = .b1 ∧ k = 1) ∨ (b = .b2 ∧ k = 2) ↔ k = bankIndex b := by
  cases b <;> simp [bankIndex]

theorem bankIndex_le (b : Bank) : bankIndex b ≤ 2 := by
  cases b <;> decide

theorem bankedOffset_eq_add (off : Word) (b : Bank) :
    bankedOffset off b = off + BitVec.ofNat 32 (4 * bankIndex b) := by
  cases b
  · exact (BitVec.add_zero off).symm
  · rfl
  · rfl

theorem offsetOf_banked (p : Params) (k : Kind) (b : Bank) :
    offsetOf p (.banked k b) =
      offsetOf p (.banked k .b0) + BitVec.ofNat 32 (4 * bankIndex b) := by
  cases k <;> exact bankedOffset_eq_add _ b

theorem addrOf_banked (s : State) (k : Kind) (b : Bank) :
    s.addrOf (.banked k b) = s.internal.intcBase + offsetOf s.cfg (.banked k .b0) +
      BitVec.ofNat 32 (4 * bankIndex b) := by
  rw [BitVec.add_assoc, ← offsetOf_banked]
  rfl

/-- The three registers of a kind end 12 bytes past the first, inside the window. -/
theorem offsetOf_firstBank_add_le (p : Params) (k : Kind) :
    (offsetOf p (.banked k .b0)).toNat + 12 ≤ windowSize p .intc := by
  refine windowEnds_le p .intc _ ?_
  cases k <;> simp [windowEnds, Params.intcEnds, offsetOf, bankedOffset]

/-- Every register lies in its window. -/
theorem offsetOf_add_four_le (p : Params) (r : Reg) :
    (offsetOf p r).toNat + 4 ≤ windowSize p r.window := by
  cases r with
  | banked k b =>
    have hkind := offsetOf_firstBank_add_le p k
    have hb := bankIndex_le b
    rw [offsetOf_banked, BitVec.toNat_add, BitVec.toNat_ofNat, Reg.window]
    omega
  | vector | protect | nmiType =>
    exact windowEnds_le p .intc _ (by simp [windowEnds, Params.intcEnds, offsetOf])
  | tIrqst | tCtl | tIntv | tCnt =>
    exact windowEnds_le p .tmr _ (by simp [windowEnds, Params.tmrEnds, offsetOf])

/-- A window at a mappable base does not wrap (R73). -/
theorem base_add_windowSize_le {s : State} {w : Window} {base : Word}
    (h : mappable s w base = true) : base.toNat + windowSize s.cfg w ≤ 2 ^ 32 :=
  (mappableAlone_iff.mp (mappable_iff.mp h).1).2.1

theorem toNat_addrOf {s : State} {r : Reg}
    (h : mappable s r.window (s.internal.windowBase r.window) = true) :
    (s.addrOf r).toNat =
      (s.internal.windowBase r.window).toNat + (offsetOf s.cfg r).toNat := by
  have hwindow := base_add_windowSize_le h
  have hreg := offsetOf_add_four_le s.cfg r
  exact BitVec.toNat_add_of_lt (by omega)

theorem toNat_addrOf_banked {s : State} (h : mappable s .intc s.internal.intcBase = true)
    (k : Kind) (b : Bank) :
    (s.addrOf (.banked k b)).toNat = s.internal.intcBase.toNat +
      (offsetOf s.cfg (.banked k .b0)).toNat + 4 * bankIndex b := by
  have hwindow := base_add_windowSize_le h
  have hkind := offsetOf_firstBank_add_le s.cfg k
  have hb := bankIndex_le b
  have hfirst : (s.internal.intcBase + offsetOf s.cfg (.banked k .b0)).toNat =
      s.internal.intcBase.toNat + (offsetOf s.cfg (.banked k .b0)).toNat :=
    toNat_addrOf (r := .banked k .b0) h
  rw [addrOf_banked, BitVec.toNat_add, hfirst, BitVec.toNat_ofNat]
  omega

/-- Settles O10: `addrOf` is base plus offset by definition, and the window of a mappable base holds
its registers without wrapping. -/
theorem registerAddressesAreBasePlusOffset : Obligations.RegisterAddressesAreBasePlusOffset := by
  intro s
  refine ⟨rfl, rfl, rfl, rfl, rfl, rfl, rfl, fun b k hk => ?_, fun h => ?_, fun h => ?_⟩
  · obtain rfl := bankIndex_iff.mp hk
    exact ⟨addrOf_banked s .pending b, addrOf_banked s .enable b, addrOf_banked s .mask b⟩
  · refine ⟨toNat_addrOf h, toNat_addrOf h, toNat_addrOf h, fun b k hk => ?_⟩
    obtain rfl := bankIndex_iff.mp hk
    exact ⟨toNat_addrOf_banked h .pending b, toNat_addrOf_banked h .enable b,
      toNat_addrOf_banked h .mask b⟩
  · exact ⟨toNat_addrOf h, toNat_addrOf h, toNat_addrOf h, toNat_addrOf h⟩

end Sys2Proof.Machine
end

section
/-!
PROOFS of the state's statements: what reset leaves (R50), the invariant and what each step keeps of the
core's own state (R33 to R42), and which commands write which registers (R21 to R31).
-/
namespace Sys2Proof.Machine

/-! ### A step is a slot and a command -/

/-- The state in which the next command runs: the environment's slot taken and the command word gone. -/
def State.atCommand (s : State) (rest : List CmdWord) : State := { s.envSlot with port := rest }

/-- A step is a slot alone or a slot and a command; an illegal word does what the term that writes
VECTOR does (R118). -/
theorem step_slot_or_exec {s t : State} (h : step s = .next t) :
    t = s.envSlot ∨ ∃ i rest, exec i (s.atCommand rest) = .next t := by
  rcases step_cases s with ⟨-, h'⟩ | ⟨w, rest, -, -, h'⟩ | ⟨w, rest, i, -, -, -, h'⟩
  · rw [h', Host.Outcome.next.injEq] at h
    exact .inl h.symm
  · exact .inr ⟨.wrg .vector 0, rest, (exec_wrg_vector 0 _).trans (h'.symm.trans h)⟩
  · exact .inr ⟨i, rest, h'.symm.trans h⟩

/-! ### The invariant -/

/-- The invariant speaks of the core's own state, ST and the configuration alone. -/
theorem Inv.of_core {s t : State} (h : Inv s) (hi : t.internal = s.internal) (hst : t.st = s.st)
    (hc : t.cfg = s.cfg) : Inv t := by
  cases s
  cases t
  subst hi hst hc
  exact { h with }

/-- Pushing or popping a callback keeps the invariant, where the new context is legal and its callbacks
were enabled (R41, R203). -/
theorem Inv.setCtx {s : State} (h : Inv s) {c : List Ctx} (hc : c ∈ legalContexts)
    (hd : Ctx.dispatch ∈ c → s.internal.intcReady = true)
    (ht : Ctx.tick ∈ c → s.internal.tmrReady = true) :
    Inv { s with internal := { s.internal with ctx := c } } :=
  { h with ctxLegal := hc, ctxDispatch := hd, ctxTick := ht }

theorem Inv.setSt {s : State} (h : Inv s) {e : Status} (he : e.code ∈ reachableCodes) :
    Inv { s with st := e.code } :=
  { h with stLegal := he }

/-- A new entry is made only where the table has room, for a line without one, and with an identifier no
line has (R36, R155). -/
theorem Inv.mapLine {s : State} (h : Inv s) {n : Line} {id : Word} (hn : s.internal.map[n] = none)
    (h0 : id ≠ 0) (hfresh : ∀ m : Line, s.internal.map[m] ≠ some id) : Inv (s.mapLine n id) := by
  have hget : ∀ k : Line, (s.mapLine n id).internal.map[k] =
      if k = n then some id else s.internal.map[k] := (map_set_get s.internal.map n · id)
  refine { h with mapDistinct := ?_, mapNonzero := ?_, mapCount := ?_, boundMapped := ?_ }
  · intro m k i hm hk
    rw [hget] at hm hk
    split at hm <;> split at hk
    · simp_all
    · exact absurd (hk.trans hm.symm) (hfresh k)
    · exact absurd (hm.trans hk.symm) (hfresh m)
    · exact h.mapDistinct m k i hm hk
  · intro k
    rw [hget]
    split
    · simpa using h0
    · exact h.mapNonzero k
  · rw [mappedCount_mapLine id hn, mapLine_internal_nmapped, ← h.mapCount]
    have hroom : s.internal.nmapped.toNat + 1 < 2 ^ 7 := by
      rw [h.mapCount]
      exact (Nat.succ_le_succ (mappedCount_lt hn)).trans_lt (by decide)
    exact BitVec.toNat_add_of_lt hroom
  · intro k hk
    rw [hget]
    split
    · rfl
    · exact h.boundMapped k hk

theorem Inv.resolves {s : State} (h : Inv s) {n : Line} {r : InternalRegs} (hr : Resolves s n r) :
    Inv { s with internal := r } := by
  cases hr with
  | found => exact h
  | allocated hn => exact h.mapLine hn (alloc_ne_zero _ _) (alloc_fresh _ _)

theorem Inv.bindLine {s : State} (h : Inv s) {n : Line} {id : Word}
    (hn : s.internal.map[n] = some id) : Inv (s.bindLine n) := by
  refine { h with boundMapped := fun k hk => ?_ }
  rw [isBound_bindLine, Bool.or_eq_true, decide_eq_true_eq] at hk
  rw [bindLine_internal_map]
  rcases hk with hk | rfl
  · exact h.boundMapped k hk
  · rw [hn]
    rfl

/-- The bases are compared when the second window is latched, in either order (R73). -/
theorem apart_comm (a m b n : Nat) : apart a m b n = apart b n a m := Bool.or_comm _ _

theorem Inv.initBase {s : State} (h : Inv s) {base : Word} (hm : mappable s .intc base = true) :
    Inv { s with internal := { s.internal with intcBase := base, intcReady := true } } := by
  obtain ⟨halone, hfree⟩ := mappable_iff.mp hm
  exact { h with
    ctxDispatch := fun _ => rfl
    intcMapped := fun _ => halone
    windowsApart := fun _ => windowFree_iff.mp hfree }

theorem toNat_latchedBound {count r : Nat} (h : r < 2 ^ 32) : (latchedBound count r).toNat = r := by
  rw [latchedBound, if_pos h, BitVec.toNat_ofNat, Nat.mod_eq_of_lt h]

theorem Inv.registerTimer {s : State} (h : Inv s) {line : BitVec 8} {base : Word}
    (hm : mappable s .tmr base = true) (hl : line.toNat ≤ 95) : Inv (s.registerTimer line base) := by
  obtain ⟨halone, hfree⟩ := mappable_iff.mp hm
  refine { h with
    ctxTick := fun _ => rfl
    tmrMapped := fun _ => halone
    windowsApart := fun hi _ => (apart_comm ..).trans (windowFree_iff.mp hfree hi)
    timerLineOk := fun _ => ?_
    multOk := fun _ => ?_
    minNsOk := fun _ => toNat_latchedBound
    maxNsOk := fun _ => toNat_latchedBound
    modeBeforeTinit := fun _ => rfl }
  · rw [registerTimer_internal_timerLine, BitVec.toNat_setWidth]
    omega
  · rw [registerTimer_internal_mult, BitVec.toNat_ofNat]
    exact Nat.mod_eq_of_lt (multiplier_lt h.admissible)

/-- A popped context is one of the four (R41). -/
theorem dropLast_mem_legalContexts : ∀ c ∈ legalContexts, c.dropLast ∈ legalContexts := by decide

/-- TICK may be pushed on a context without it (R41, R203). -/
theorem append_tick_mem_legalContexts :
    ∀ c ∈ legalContexts, Ctx.tick ∉ c → c ++ [.tick] ∈ legalContexts := by decide

/-- A command's effect keeps the invariant; the table is never full where a line has no entry (R156). -/
theorem Inv.coreEffect {s : State} (h : Inv s) {i : Instr} {r : InternalRegs} {e : Status}
    (he : CoreEffect s i r e) : Inv { s with internal := r, st := e.code } := by
  cases he with
  | same i e he =>
    refine h.setSt ?_
    rcases he with rfl | rfl | rfl | rfl | rfl <;> decide
  | fatal i e h0 he =>
    rcases he with rfl | rfl
    · exact { h.setSt (e := .fNoBase) (by decide) with haltLegal := .inr (.inl rfl) }
    · exact { h.setSt (e := .fNoIrq) (by decide) with haltLegal := .inr (.inr rfl) }
  | full i n h0 hn hc =>
    have hroom := mappedCount_lt hn
    rw [← h.mapCount] at hroom
    omega
  | init base h0 hr hm => exact (h.initBase hm).setSt (by decide)
  | resolve w n r h0 hr => exact (h.resolves hr).setSt (e := .ok) (by decide)
  | install id n h0 hn => exact (h.bindLine hn).setSt (e := .ok) (by decide)
  | dispatch n r h0 hi hctx hr =>
    have hready : r.intcReady = true := by cases hr <;> exact hi
    exact ((h.resolves hr).setCtx (c := [.dispatch]) (by decide) (fun _ => hready)
      (by simp)).setSt (e := .ok) (by decide)
  | spurious h0 hi hctx =>
    exact (h.setCtx (c := [.dispatch]) (by decide) (fun _ => hi) (by simp)).setSt (e := .eSpurious)
      (by decide)
  | ret i c h0 hi hc =>
    exact (h.setCtx (dropLast_mem_legalContexts _ h.ctxLegal)
      (fun hd => h.ctxDispatch (List.mem_of_mem_dropLast hd))
      (fun ht => h.ctxTick (List.mem_of_mem_dropLast ht))).setSt (by decide)
  | tinit line base h0 hr hm hl =>
    exact ((h.registerTimer hm hl).setSt (e := .ok) (by decide)).of_core rfl rfl rfl
  | setMode m mode h0 hr =>
    exact { h.setSt (e := .ok) (by decide) with
      modeBeforeTinit := fun hf => absurd (hr.symm.trans hf) (by decide) }
  | tick h0 hr hc =>
    exact (h.setCtx (append_tick_mem_legalContexts _ h.ctxLegal hc)
      (fun hd => h.ctxDispatch (by simpa using hd)) (fun _ => hr)).setSt (by decide)

theorem Inv.exec {i : Instr} {s t : State} (h : Inv s) (he : Machine.exec i s = .next t) : Inv t := by
  obtain ⟨e, heffect, hst, hcfg⟩ := exec_effect he
  exact (h.coreEffect heffect).of_core rfl hst hcfg

/-- Settles O53: a slot touches nothing the invariant speaks of, and each effect a command can have keeps
it. -/
theorem everyStepKeepsTheInvariant : Obligations.EveryStepKeepsTheInvariant := by
  intro s t h ht
  rcases step_slot_or_exec ht with rfl | ⟨i, rest, he⟩
  · exact h.of_core rfl rfl rfl
  · exact (h.of_core (t := s.atCommand rest) rfl rfl rfl).exec he

/-! ### Reset -/

theorem resetWith_map (cfg : Params) (m : MmioRegs) (b1 b2 : Word) (l : BitVec 7) (x y z : Word)
    (n : Line) : (State.resetWith cfg m b1 b2 l x y z).internal.map[n] = none :=
  Vector.getElem_replicate n.isLt

theorem resetWith_isBound (cfg : Params) (m : MmioRegs) (b1 b2 : Word) (l : BitVec 7) (x y z : Word)
    (n : Line) : (State.resetWith cfg m b1 b2 l x y z).internal.isBound n = false :=
  BitVec.getLsbD_zero

/-- Settles O51: the reset state is written out in R50's terms, the table as 96 empty entries. -/
theorem resetLeavesTheValuesOfR50 : Obligations.ResetLeavesTheValuesOfR50 := by
  rintro cfg m b1 b2 l x y z s rfl
  exact ⟨rfl, rfl, rfl, rfl, rfl, rfl, rfl, rfl, rfl,
    fun n => ⟨resetWith_map .., resetWith_isBound ..⟩, rfl, rfl, rfl, rfl, rfl, rfl⟩

/-- Nothing is mapped, bound, ready or called back after reset, so every clause holds of an empty table
or asks for a bit that is 0. -/
theorem inv_resetWith {cfg : Params} (h : cfg.Admissible) (m : MmioRegs) (b1 b2 : Word)
    (l : BitVec 7) (x y z : Word) : Inv (State.resetWith cfg m b1 b2 l x y z) where
  admissible := h
  mapDistinct _ _ _ hk := absurd (hk.symm.trans (resetWith_map ..)) (Option.some_ne_none _)
  mapNonzero _ hk := absurd (hk.symm.trans (resetWith_map ..)) (Option.some_ne_none _)
  mapCount := (List.countP_eq_zero.mpr fun n _ => by
    rw [resetWith_map]
    decide).symm
  boundMapped k hk := Bool.noConfusion ((resetWith_isBound cfg m b1 b2 l x y z k).symm.trans hk)
  ctxLegal := List.mem_cons_self
  ctxDispatch hd := absurd hd List.not_mem_nil
  ctxTick ht := absurd ht List.not_mem_nil
  haltLegal := .inl rfl
  stLegal := List.mem_cons_self
  intcMapped hi := Bool.noConfusion hi
  tmrMapped ht := Bool.noConfusion ht
  windowsApart hi := Bool.noConfusion hi
  timerLineOk ht := Bool.noConfusion ht
  multOk ht := Bool.noConfusion ht
  minNsOk ht := Bool.noConfusion ht
  maxNsOk ht := Bool.noConfusion ht
  modeBeforeTinit _ := rfl

theorem default_admissible : Params.default.Admissible :=
  ⟨by decide, by decide, by decide, by decide, by decide, by decide, by decide, by decide, by decide,
    by simp [Params.intcOffsets, Params.default], by simp [Params.tmrOffsets, Params.default],
    by decide, by decide, by decide, by decide⟩

/-- Settles O52: `State.reset` is one of the reset states, of the default configuration. -/
theorem invariantHoldsAfterReset : Obligations.InvariantHoldsAfterReset :=
  ⟨fun _ m b1 b2 l x y z h => inv_resetWith h m b1 b2 l x y z, inv_resetWith default_admissible ..⟩

/-! ### What is permanent -/

/-- What no command takes back (R33, R36 d, R37, R39), from the core's state `r` to `r'`. -/
structure Kept (r r' : InternalRegs) : Prop where
  map : ∀ (n : Line) (id : Word), r.map[n] = some id → r'.map[n] = some id
  bound : ∀ n : Line, r.isBound n = true → r'.isBound n = true
  intc : r.intcReady = true → r'.intcReady = true ∧ r'.intcBase = r.intcBase
  tmr : r.tmrReady = true → r'.tmrReady = true ∧ r'.tmrBase = r.tmrBase ∧
    r'.timerLine = r.timerLine ∧ r'.mult = r.mult ∧ r'.minNs = r.minNs ∧ r'.maxNs = r.maxNs

theorem Kept.refl (r : InternalRegs) : Kept r r :=
  ⟨fun _ _ h => h, fun _ h => h, fun h => ⟨h, rfl⟩, fun h => ⟨h, rfl, rfl, rfl, rfl, rfl⟩⟩

/-- `resolve` writes the table alone, and only where there is no entry. -/
theorem Resolves.kept {s : State} {n : Line} {r : InternalRegs} (h : Resolves s n r) :
    Kept s.internal r := by
  cases h with
  | found => exact .refl _
  | allocated hn =>
    refine { Kept.refl s.internal with map := fun k id hk => ?_ }
    rw [mapLine_internal_map, map_set_get, if_neg]
    · exact hk
    · rintro rfl
      simp [hn] at hk

/-- INIT and TINIT latch once: they are permitted only before the bit they set (R203). -/
theorem CoreEffect.kept {s : State} {i : Instr} {r : InternalRegs} {e : Status}
    (h : CoreEffect s i r e) : Kept s.internal r := by
  cases h with
  | init base h0 hr =>
    exact { Kept.refl s.internal with intc := fun hi => absurd (hr.symm.trans hi) (by decide) }
  | tinit line base h0 hr =>
    exact { Kept.refl s.internal with tmr := fun ht => absurd (hr.symm.trans ht) (by decide) }
  | resolve w n r h0 hr => exact hr.kept
  | dispatch n r h0 hi hctx hr => exact { hr.kept with }
  | install id n =>
    refine { Kept.refl s.internal with bound := fun k hk => ?_ }
    rw [isBound_bindLine, hk, Bool.true_or]
  | _ => exact { Kept.refl s.internal with }

theorem step_kept {s t : State} (h : step s = .next t) :
    Kept s.internal t.internal ∧ t.cfg = s.cfg := by
  rcases step_slot_or_exec h with rfl | ⟨i, rest, he⟩
  · exact ⟨.refl _, rfl⟩
  · obtain ⟨e, heffect, -, hcfg⟩ := exec_effect he
    exact ⟨heffect.kept, hcfg⟩

/-- Settles O54: no effect of a command takes back what `Kept` names, and a slot touches none of it. -/
theorem mappingsAndBindingsArePermanent : Obligations.MappingsAndBindingsArePermanent := by
  intro s t ht
  obtain ⟨hkept, hcfg⟩ := step_kept ht
  exact ⟨hkept.map, hkept.bound, hkept.intc, hkept.tmr, hcfg⟩

/-- Settles O55: with `halt` set the prologue answers before any rule runs (R202). -/
theorem haltedCoreStaysHalted : Obligations.HaltedCoreStaysHalted := by
  intro s hh
  rcases step_cases s with ⟨-, h⟩ | ⟨w, rest, -, -, h⟩ | ⟨w, rest, i, -, -, hw, h⟩
  · exact ⟨_, h, rfl, rfl, rfl⟩
  · exact ⟨_, h, rfl, rfl, rfl⟩
  · exact ⟨_, h.trans (exec_halted hw hh), rfl, rfl, rfl⟩

/-! ### Which commands write the core's own state -/

theorem Resolves.bound {s : State} {n : Line} {r : InternalRegs} (h : Resolves s n r) :
    r.bound = s.internal.bound := by
  cases h <;> rfl

theorem Resolves.mode {s : State} {n : Line} {r : InternalRegs} (h : Resolves s n r) :
    r.mode = s.internal.mode := by
  cases h <;> rfl

theorem Resolves.ctx {s : State} {n : Line} {r : InternalRegs} (h : Resolves s n r) :
    r.ctx = s.internal.ctx := by
  cases h <;> rfl

theorem CoreEffect.of_table_ne {s : State} {i : Instr} {r : InternalRegs} {e : Status}
    (h : CoreEffect s i r e) (hne : r.map ≠ s.internal.map ∨ r.nmapped ≠ s.internal.nmapped) :
    (∃ n, i = .resolve n) ∨ i = .irqEntry := by
  cases h with
  | resolve w => exact .inl ⟨w, rfl⟩
  | dispatch => exact .inr rfl
  | _ => exact absurd hne (not_or.mpr ⟨not_not_intro rfl, not_not_intro rfl⟩)

theorem CoreEffect.of_bound_ne {s : State} {i : Instr} {r : InternalRegs} {e : Status}
    (h : CoreEffect s i r e) (hne : r.bound ≠ s.internal.bound) : ∃ id, i = .install id := by
  cases h with
  | install id => exact ⟨id, rfl⟩
  | resolve w n r h0 hr => exact absurd hr.bound hne
  | dispatch n r h0 hi hctx hr => exact absurd hr.bound hne
  | _ => exact absurd rfl hne

theorem CoreEffect.of_mode_ne {s : State} {i : Instr} {r : InternalRegs} {e : Status}
    (h : CoreEffect s i r e) (hne : r.mode ≠ s.internal.mode) :
    (∃ l b, i = .tinit l b) ∨ ∃ m, i = .setMode m := by
  cases h with
  | tinit l b => exact .inl ⟨l, b, rfl⟩
  | setMode m => exact .inr ⟨m, rfl⟩
  | resolve w n r h0 hr => exact absurd hr.mode hne
  | dispatch n r h0 hi hctx hr => exact absurd hr.mode hne
  | _ => exact absurd rfl hne

theorem CoreEffect.of_ctx_ne {s : State} {i : Instr} {r : InternalRegs} {e : Status}
    (h : CoreEffect s i r e) (hne : r.ctx ≠ s.internal.ctx) :
    i = .irqEntry ∨ i = .dispatchRet ∨ i = .timerIrq ∨ i = .tickRet := by
  cases h with
  | dispatch => exact .inl rfl
  | spurious => exact .inl rfl
  | ret i c h0 hi =>
    rcases hi with ⟨rfl, -⟩ | ⟨rfl, -⟩
    · exact .inr (.inl rfl)
    · exact .inr (.inr (.inr rfl))
  | tick => exact .inr (.inr (.inl rfl))
  | resolve w n r h0 hr => exact absurd hr.ctx hne
  | _ => exact absurd rfl hne

/-- Settles O60: each effect of a command names the commands that have it. -/
theorem tableAndModeAreWrittenByTheirCommandsOnly :
    Obligations.TableAndModeAreWrittenByTheirCommandsOnly := by
  intro i s t he
  obtain ⟨e, h, -, -⟩ := exec_effect he
  exact ⟨h.of_table_ne, h.of_bound_ne, h.of_mode_ne, h.of_ctx_ne⟩

/-! ### What a write changes -/

/-- What the registers hold at a name, where VECTOR, which has no storage, counts as 0. -/
def MmioRegs.value (m : MmioRegs) : Reg → Word
  | .banked k b => (m.kind k).get b
  | .vector => 0
  | .protect => m.protect
  | .nmiType => m.nmiType
  | .tIrqst => m.tIrqst
  | .tCtl => m.tCtl
  | .tIntv => m.tIntv
  | .tCnt => m.tCnt

theorem regValue_eq_value {q : Reg} (hq : q ≠ .vector) (s : State) :
    s.regValue q = s.mmio.value q := by
  cases q with
  | vector => exact absurd rfl hq
  | _ => rfl

theorem write_banked_kind_same (m : MmioRegs) (k : Kind) (b : Bank) (v : Word) :
    ∃ x, (m.write (.banked k b) v).kind k = (m.kind k).set b x := by
  cases k <;> exact ⟨_, rfl⟩

theorem write_banked_kind_of_ne {j k : Kind} (h : j ≠ k) (m : MmioRegs) (b : Bank) (v : Word) :
    (m.write (.banked k b) v).kind j = m.kind j := by
  cases k <;> cases j <;> simp [MmioRegs.write, MmioRegs.kind] at h ⊢

/-- A write of one bank leaves the other banks and the other kinds alone. -/
theorem write_banked_value_of_ne {j k : Kind} {c b : Bank} (h : Reg.banked j c ≠ .banked k b)
    (m : MmioRegs) (v : Word) :
    (m.write (.banked k b) v).value (.banked j c) = m.value (.banked j c) := by
  by_cases hj : j = k
  · subst hj
    obtain ⟨x, hx⟩ := write_banked_kind_same m j b v
    have hc : c ≠ b := fun hc => h (hc ▸ rfl)
    exact (congrArg (·.get c) hx).trans ((Banks.get_set ..).trans (if_neg hc))
  · exact congrArg (·.get c) (write_banked_kind_of_ne hj m b v)

theorem write_tpend_of_ne {r : Reg} (h : r ≠ .tIrqst) (m : MmioRegs) (v : Word) :
    (m.write r v).tpend = m.tpend := by
  cases r with
  | banked k b => cases k <;> rfl
  | tIrqst => exact absurd rfl h
  | _ => rfl

/-- A write changes no register but the one written (R77). -/
theorem write_value_of_ne {q r : Reg} (h : q ≠ r) (m : MmioRegs) (v : Word) :
    (m.write r v).value q = m.value q := by
  cases q with
  | banked j c =>
    cases r with
    | banked k b => exact write_banked_value_of_ne h m v
    | _ => cases j <;> rfl
  | tIrqst => simp only [MmioRegs.value, MmioRegs.tIrqst, write_tpend_of_ne h.symm]
  | _ =>
    cases r with
    | banked k b => cases k <;> rfl
    | _ => simp [MmioRegs.write, MmioRegs.value] at h ⊢

/-- A write sets no pending bit (R21). -/
theorem pending_line_of_write {m : MmioRegs} {r : Reg} {v : Word} {n : Line}
    (h : (m.write r v).pending.line n = true) : m.pending.line n = true := by
  cases r with
  | banked k b =>
    cases k with
    | pending =>
      simp only [MmioRegs.write, Banks.line_set] at h
      split at h
      · rename_i hb
        rw [BitVec.getLsbD_and, Bool.and_eq_true, ← hb] at h
        exact h.1
      · exact h
    | enable => exact h
    | mask => exact h
  | _ => exact h

/-! ### Which commands write which registers -/

/-- Accesses that do not write a register keep it where slots do. -/
theorem accessRun_value {q : Reg} (hslot : ∀ r m es, (envRun r m es).value q = m.value q)
    {l : List (Option (Reg × Word))} (hl : ∀ w, some w ∈ l → q ≠ w.1) (r : InternalRegs) :
    ∀ (env : List (List EnvStep)) (b : Board), (accessRun r l env b).regs.value q = b.regs.value q := by
  induction l with
  | nil => exact fun _ _ => rfl
  | cons a l ih =>
    intro env b
    rw [accessRun_cons, ih fun w hw => hl w (by simp [hw])]
    cases a with
    | none => exact hslot ..
    | some w => exact (write_value_of_ne (hl w (by simp)) ..).trans (hslot ..)

/-- A register that slots keep changes in a command only where the command may write it (R78). -/
theorem mayWrite_of_value_ne {q : Reg} (hslot : ∀ r m es, (envRun r m es).value q = m.value q)
    {i : Instr} {s t : State} (he : exec i s = .next t) (hne : t.mmio.value q ≠ s.mmio.value q) :
    ∃ v, mayWrite i (q, v) := by
  by_contra hno
  obtain ⟨l, -, hl, hb⟩ := exec_accesses he
  have hwrite : ∀ w, some w ∈ l → q ≠ w.1 := by
    rintro w hw rfl
    exact hno ⟨w.2, hl w hw⟩
  exact hne ((congrArg (·.regs.value q) hb).trans (accessRun_value hslot hwrite _ _ _))

theorem mayWrite_enable {i : Instr} {b : Bank} {v : Word} (h : mayWrite i (.banked .enable b, v)) :
    (∃ b v, i = .wr .enable b v) ∨ (∃ b, i = .init b) ∨
      ∃ v, i = .mask v ∨ i = .unmask v ∨ i = .lmask v ∨ i = .lunmask v := by
  cases i with
  | wr k b v => cases h; exact .inl ⟨_, _, rfl⟩
  | init base => exact .inr (.inl ⟨base, rfl⟩)
  | mask n | unmask n | lmask n | lunmask n => exact .inr (.inr ⟨n, by simp⟩)
  | wrg g v => cases g <;> cases h
  | _ => simp [mayWrite] at h

theorem mayWrite_mask {i : Instr} {b : Bank} {v : Word} (h : mayWrite i (.banked .mask b, v)) :
    (∃ b v, i = .wr .mask b v) ∨ ∃ b, i = .init b := by
  cases i with
  | wr k b v => cases h; exact .inl ⟨_, _, rfl⟩
  | init base => exact .inr ⟨base, rfl⟩
  | wrg g v => cases g <;> cases h
  | _ => simp [mayWrite] at h

theorem mayWrite_protect {i : Instr} {v : Word} (h : mayWrite i (.protect, v)) :
    (∃ v, i = .wrg .protect v) ∨ ∃ b, i = .init b := by
  cases i with
  | wrg g v => cases g <;> cases h; exact .inl ⟨_, rfl⟩
  | init base => exact .inr ⟨base, rfl⟩
  | _ => simp [mayWrite] at h

theorem mayWrite_nmiType {i : Instr} {v : Word} (h : mayWrite i (.nmiType, v)) :
    (∃ v, i = .wrg .nmiType v) ∨ ∃ b, i = .init b := by
  cases i with
  | wrg g v => cases g <;> cases h; exact .inl ⟨_, rfl⟩
  | init base => exact .inr ⟨base, rfl⟩
  | _ => simp [mayWrite] at h

theorem mayWrite_tIntv {i : Instr} {v : Word} (h : mayWrite i (.tIntv, v)) :
    i = .setMode .periodic := by
  cases i with
  | setMode m => rw [show m = .periodic by simpa [mayWrite] using h]
  | wrg g v => cases g <;> cases h
  | _ => simp [mayWrite, initWrites] at h

theorem mayWrite_tIrqst {i : Instr} {v : Word} (h : mayWrite i (.tIrqst, v)) : i = .timerIrq := by
  cases i with
  | timerIrq => rfl
  | wrg g v => cases g <;> cases h
  | _ => simp [mayWrite, initWrites] at h

/-- Register files that differ differ in one bank. -/
theorem Banks.exists_get_ne {x y : Banks} (h : x ≠ y) : ∃ b, x.get b ≠ y.get b := by
  by_contra! heq
  cases x
  cases y
  exact h (congr (congr (congrArg Banks.mk (heq .b0)) (heq .b1)) (heq .b2))

/-- Settles O57: slots keep these registers, so a change is a write the command may make. -/
theorem registersAreWrittenByTheirCommandsOnly :
    Obligations.RegistersAreWrittenByTheirCommandsOnly := by
  intro i s t he
  refine ⟨fun hne => ?_, fun hne => ?_, fun hne => ?_, fun hne => ?_, fun hne => ?_⟩
  · obtain ⟨b, hb⟩ := Banks.exists_get_ne hne
    obtain ⟨v, hv⟩ := mayWrite_of_value_ne (q := .banked .enable b)
      (fun r m es => congrArg (·.get b) (envRun_enable r m es)) he hb
    exact mayWrite_enable hv
  · obtain ⟨b, hb⟩ := Banks.exists_get_ne hne
    obtain ⟨v, hv⟩ := mayWrite_of_value_ne (q := .banked .mask b)
      (fun r m es => congrArg (·.get b) (envRun_mask r m es)) he hb
    exact mayWrite_mask hv
  · obtain ⟨v, hv⟩ := mayWrite_of_value_ne (q := .protect) envRun_protect he hne
    exact mayWrite_protect hv
  · obtain ⟨v, hv⟩ := mayWrite_of_value_ne (q := .nmiType) envRun_nmiType he hne
    exact mayWrite_nmiType hv
  · obtain ⟨v, hv⟩ := mayWrite_of_value_ne (q := .tIntv) envRun_tIntv he hne
    exact mayWrite_tIntv hv

/-! ### Pending bits -/

/-- The schedule `env` raises line `n` in one of its first `k` slots. -/
def RaisedWithin (n : Line) (env : List (List EnvStep)) (k : Nat) : Prop :=
  ∃ slot ∈ env.take k, EnvStep.lineRaise n ∈ slot

theorem RaisedWithin.mono {n : Line} {env : List (List EnvStep)} {j k : Nat}
    (h : RaisedWithin n env j) (hjk : j ≤ k) : RaisedWithin n env k := by
  obtain ⟨slot, hslot, hn⟩ := h
  exact ⟨slot, (List.take_sublist_take_left hjk).subset hslot, hn⟩

theorem RaisedWithin.of_head {n : Line} {env : List (List EnvStep)}
    (h : EnvStep.lineRaise n ∈ env.headD []) : RaisedWithin n env 1 := by
  cases env with
  | nil => exact absurd h List.not_mem_nil
  | cons slot env => exact ⟨slot, List.mem_cons_self, h⟩

theorem RaisedWithin.of_tail {n : Line} {env : List (List EnvStep)} {k : Nat}
    (h : RaisedWithin n env.tail k) : RaisedWithin n env (k + 1) := by
  obtain ⟨slot, hslot, hn⟩ := h
  cases env with
  | nil => exact absurd hslot (by simp)
  | cons e env => exact ⟨slot, List.mem_cons_of_mem e hslot, hn⟩

/-- A line pending after a list of accesses was pending before it or is raised in a slot before one. -/
theorem accessRun_pending_of (r : InternalRegs) (n : Line) (l : List (Option (Reg × Word))) :
    ∀ (env : List (List EnvStep)) (b : Board), (accessRun r l env b).regs.pending.line n = true →
      b.regs.pending.line n = true ∨ RaisedWithin n env l.length := by
  induction l with
  | nil => exact fun _ _ h => .inl h
  | cons a l ih =>
    intro env b h
    rcases ih _ _ h with h | htail
    · have hslot : (envRun r b.regs (env.headD [])).pending.line n = true := by
        cases a with
        | none => exact h
        | some w => exact pending_line_of_write h
      exact (envRun_pending_of r _ _ n hslot).imp_right fun hn =>
        (RaisedWithin.of_head hn).mono (Nat.le_add_left ..)
    · exact .inr htail.of_tail

theorem envSlot_pending_of {s : State} {n : Line} (h : s.envSlot.mmio.pending.line n = true) :
    s.mmio.pending.line n = true ∨ RaisedWithin n s.env 1 :=
  (envRun_pending_of s.internal _ _ n h).imp_right .of_head

/-- Settles O56: no write sets a pending bit, so one that is new was raised in the slot before the command
or in one of the at most eleven in it. -/
theorem onlyLineRaisesSetPendingBits : Obligations.OnlyLineRaisesSetPendingBits := by
  intro s t n ht hn
  change _ ∨ RaisedWithin n s.env 12
  rcases step_slot_or_exec ht with rfl | ⟨i, rest, he⟩
  · exact (envSlot_pending_of hn).imp_right (·.mono (by decide))
  · obtain ⟨l, hlen, -, hb⟩ := exec_accesses he
    have hrun : t.board.regs.pending.line n = true := hn
    rw [hb] at hrun
    rcases accessRun_pending_of _ n l _ _ hrun with hslot | htail
    · exact (envSlot_pending_of hslot).imp_right (·.mono (by decide))
    · exact .inr (htail.of_tail.mono (Nat.succ_le_succ hlen))

/-! ### The timer under other commands -/

theorem MmioRegs.sameTimer.trans {m₁ m₂ m₃ : MmioRegs} (h : m₁.sameTimer m₂)
    (h' : m₂.sameTimer m₃) : m₁.sameTimer m₃ := by
  obtain ⟨hctl, hintv, hcnt, hpend⟩ := h
  obtain ⟨hctl', hintv', hcnt', hpend'⟩ := h'
  exact ⟨hctl.trans hctl', hintv.trans hintv', hcnt.trans hcnt', hpend.trans hpend'⟩

/-- Only SET_MODE, SET_NEXT_EVENT and TIMER_IRQ write a timer register (R78). -/
theorem write_sameTimer {i : Instr} (hmode : ∀ m, i ≠ .setMode m) (hevent : ∀ d, i ≠ .setNextEvent d)
    (hirq : i ≠ .timerIrq) {w : Reg × Word} (h : mayWrite i w) (m : MmioRegs) :
    (m.write w.1 w.2).sameTimer m := by
  obtain ⟨hcnt, hctl⟩ := write_keeps_timer h hmode hevent m
  obtain ⟨r, v⟩ := w
  have hintv : .tIntv ≠ r := by rintro rfl; exact hmode _ (mayWrite_tIntv h)
  have hirqst : r ≠ .tIrqst := by rintro rfl; exact hirq (mayWrite_tIrqst h)
  exact ⟨hctl, write_value_of_ne hintv m v, hcnt, write_tpend_of_ne hirqst m v⟩

/-- Accesses that write no timer register do to the timer what their slots alone would. -/
theorem accessRun_sameTimer {l : List (Option (Reg × Word))}
    (hl : ∀ w, some w ∈ l → ∀ m : MmioRegs, (m.write w.1 w.2).sameTimer m) :
    ∀ (s : State) (b : Board), b.regs.sameTimer s.mmio →
      (accessRun s.internal l s.env b).regs.sameTimer (s.envSlots l.length).mmio := by
  induction l with
  | nil => exact fun _ _ h => h
  | cons a l ih =>
    intro s b h
    have hslot : (b.slot s.internal (s.env.headD [])).regs.sameTimer s.envSlot.mmio :=
      envRun_sameTimer s.internal _ h
    refine ih (fun w hw => hl w (by simp [hw])) s.envSlot _ ?_
    cases a with
    | none => exact hslot
    | some w => exact (hl w (by simp) _).trans hslot

/-- Settles O58: the accesses of any other command leave the timer to the slots before them. -/
theorem otherCommandsLeaveTheTimerAlone : Obligations.OtherCommandsLeaveTheTimerAlone := by
  intro i s t he hmode hevent hirq
  obtain ⟨l, hlen, hl, hb⟩ := exec_accesses he
  have htimer : t.board.regs.sameTimer (s.envSlots l.length).mmio :=
    hb ▸ accessRun_sameTimer (fun w hw => write_sameTimer hmode hevent hirq (hl w hw)) s s.board
      ⟨rfl, rfl, rfl, rfl⟩
  exact ⟨l.length, hlen, htimer⟩

/-! ### Bytes -/

theorem and_add_and_not (x m : Word) : (x &&& m) + (x &&& ~~~m) = x := by
  rw [BitVec.add_eq_or_of_and_eq_zero]
  · rw [← BitVec.and_or_distrib_left, BitVec.or_not_self, BitVec.and_allOnes]
  · ext i hi
    cases h : m[i] <;> simp [h]

/-- A byte lies less than four bytes past the start of its word (R75). -/
theorem toNat_sub_wordAddr_lt (a : Word) : (a - (a &&& ~~~3#32)).toNat < 4 := by
  have hlow : a - (a &&& ~~~3#32) = a &&& 3#32 := sub_eq_of_eq_add (and_add_and_not a 3).symm
  rw [hlow, BitVec.toNat_and]
  exact Nat.and_lt_two_pow (n := 2) _ (by decide)

/-- A write changes no other register's value on the bus, VECTOR apart. -/
theorem busWrite_regValue_of_ne {q r : Reg} (hqr : q ≠ r) (hq : q ≠ .vector) (v : Word) (s : State) :
    (busWrite r v s).regValue q = s.envSlot.regValue q := by
  rw [regValue_eq_value hq, regValue_eq_value hq]
  exact write_value_of_ne hqr _ v

/-- A write changes only the four bytes of its register. -/
theorem byteAt_busWrite {r : Reg} {s : State} {a : Word} (ha : 4 ≤ (a - s.addrOf r).toNat) (v : Word) :
    (busWrite r v s).byteAt a = s.envSlot.byteAt a := by
  have hregAt : (busWrite r v s).regAt (a &&& ~~~3#32) = s.envSlot.regAt (a &&& ~~~3#32) := rfl
  unfold State.byteAt
  rw [hregAt]
  cases hq : s.envSlot.regAt (a &&& ~~~3#32) with
  | none => rfl
  | some q =>
    have haddr : s.addrOf q = a &&& ~~~3#32 := by simpa using List.find?_some hq
    have hqr : q ≠ r := by
      rintro rfl
      have := toNat_sub_wordAddr_lt a
      rw [← haddr] at this
      omega
    cases q with
    | vector => rfl
    | _ => simp only [busWrite_regValue_of_ne hqr nofun v s]

/-- Settles O13: WR and WRG are one write, and no other address's word is its register's. -/
theorem writesChangeNoOtherByte : Obligations.WritesChangeNoOtherByte := by
  rintro s t i r v hi ⟨hh, hr⟩ he a ha
  have hexec : exec i s = .next ((busWrite r v s).respond .ok 0) := by
    rcases hi with ⟨k, b, rfl, rfl⟩ | ⟨rfl, rfl⟩ | ⟨rfl, rfl⟩ <;> exact exec_permitted rfl hh hr
  cases hexec.symm.trans he
  exact byteAt_busWrite ha v

/-! ### VECTOR -/

theorem toNat_vector (n : Line) : (BitVec.ofNat 32 n.val <<< Config.vecShift).toNat = 4 * n.val := by
  have := n.isLt
  simp only [Config.vecShift, BitVec.toNat_shiftLeft, BitVec.toNat_ofNat, Nat.shiftLeft_eq]
  omega

theorem vectorValue_eq {s : State} {n : Line} (h : arbitrate s.cfg.arbTable s.mmio.cand = some n) :
    s.vectorValue = BitVec.ofNat 32 n.val <<< Config.vecShift := by
  simp only [State.vectorValue, h]

theorem isCand_iff {m : MmioRegs} {n : Line} : m.isCand n = true ↔
    m.pending.line n = true ∧ m.enable.line n = true ∧ m.mask.line n = false := by
  simp only [MmioRegs.isCand, Bool.and_eq_true, Bool.not_eq_true', and_assoc]

/-- With a candidate VECTOR reads four times a candidate, whatever the arbitration (R25). -/
theorem exists_cand_vectorValue {s : State} (h : ∃ n, s.mmio.isCand n = true) :
    ∃ n, s.mmio.isCand n = true ∧ s.vectorValue.toNat = 4 * n.val := by
  obtain ⟨k, hk⟩ := h
  cases ha : arbitrate s.cfg.arbTable s.mmio.cand with
  | none =>
    rw [arbitrate_eq_none] at ha
    exact absurd (mem_cand.mpr hk) (ha ▸ List.not_mem_nil)
  | some n => exact ⟨n, mem_cand.mp (arbitrate_mem ha), vectorValue_eq ha ▸ toNat_vector n⟩

/-- A read command answers the register after one slot. -/
theorem exec_rdg {s : State} (h : IntcRunning s) (g : GReg) :
    exec (.rdg g) s = .next { s.envSlot with
      res := s.envSlot.regValue (regOf g), st := 0, freeCount := s.freeCount + (regOf g).draws
      trace := s.trace ++ [.busRead (s.addrOf (regOf g)) (s.envSlot.regValue (regOf g))] } :=
  exec_permitted rfl h.1 h.2

/-- Settles O14: PROTECT and NMI_TYPE are what no slot changes, VECTOR what the slot's candidates give. -/
theorem rdgReturnsTheGlobalRegister : Obligations.RdgReturnsTheGlobalRegister := by
  intro s h
  refine ⟨?_, ?_, s.envSlot.vectorValue, exec_rdg h .vector, fun ⟨n, hn⟩ => ?_⟩
  · rw [← envSlot_protect]
    exact exec_rdg h .protect
  · rw [← envSlot_nmiType]
    exact exec_rdg h .nmiType
  · rw [← envSlot_enable s, ← envSlot_mask s] at hn ⊢
    obtain ⟨k, hk, hv⟩ := exists_cand_vectorValue ⟨n, isCand_iff.mpr hn⟩
    obtain ⟨hp, he, hm⟩ := isCand_iff.mp hk
    exact ⟨k, hp, he, hm, hv⟩

/-- The candidates ascend (R25). -/
theorem pairwise_cand (m : MmioRegs) : m.cand.Pairwise (· < ·) :=
  (List.pairwise_lt_finRange 96).filter _

/-- Settles O15: the default choice is the first of the ascending candidates. -/
theorem defaultArbitrationIsLowestLineFirst : Obligations.DefaultArbitrationIsLowestLineFirst := by
  intro s n htable hn hleast
  have hmem := mem_cand.mpr hn
  have hfirst : s.mmio.cand.head? = some n := by
    cases hc : s.mmio.cand with
    | nil => simp [hc] at hmem
    | cons k l =>
      have hle : n ≤ k := hleast k (mem_cand.mp (hc ▸ List.mem_cons_self))
      rcases List.mem_cons.mp (hc ▸ hmem) with rfl | hl
      · rfl
      · have hlt := List.rel_of_pairwise_cons (hc ▸ pairwise_cand s.mmio) hl
        exact absurd hle (Fin.not_le.mpr hlt)
  have harb : arbitrate s.cfg.arbTable s.mmio.cand = some n := by rw [htable]; exact hfirst
  rw [vectorValue_eq harb, toNat_vector]

/-! ### The raw bus -/

theorem memRead_of_regAt {s : State} {a : Word} {r : Reg} (ha : a.toNat % 4 = 0)
    (hr : s.regAt a = some r) : memRead a 4 s = some (readValue r s, afterRead r s) := by
  simp [memRead, busShapeOk, ha, hr]

theorem memWrite_of_regAt {s : State} {a : Word} {r : Reg} (ha : a.toNat % 4 = 0)
    (hr : s.regAt a = some r) (hv : r ≠ .vector) (v : Word) :
    memWrite a 4 v s = some (busWrite r v s) := by
  cases r with
  | vector => exact absurd rfl hv
  | _ => simp [memWrite, busShapeOk, ha, hr]

theorem afterRead_of_draws {r : Reg} (h : r.draws = 0) (s : State) :
    afterRead r s =
      { s.envSlot with trace := s.trace ++ [.busRead (s.addrOf r) (readValue r s)] } := by
  rw [afterRead, h]
  rfl

theorem toNat_tIrqst (m : MmioRegs) : m.tIrqst.toNat = if m.tpend then 1 else 0 := by
  unfold MmioRegs.tIrqst
  split <;> rfl

theorem not_getLsbD_zero (v : Word) : (!v.getLsbD 0) = decide (v.toNat % 2 = 0) := by
  rw [BitVec.getLsbD, Nat.testBit_zero, ← decide_not, decide_eq_decide]
  omega

/-- A timer register has an aligned address. -/
theorem addrOf_tmr_aligned {s : State} (h : s.cfg.Admissible)
    (hbase : s.internal.tmrBase.toNat % 4 = 0) {r : Reg} (hr : r ∈ Reg.tmrAll) :
    (s.addrOf r).toNat % 4 = 0 := by
  obtain ⟨-, -, -, -, -, -, -, -, -, -, haligned, -⟩ := h
  rw [addrOf_tmr s hr]
  refine add_aligned hbase (haligned _ ?_)
  rw [← tmrAll_offsets]
  exact List.mem_map_of_mem hr

theorem tmrAll_draws {r : Reg} (h : r ∈ Reg.tmrAll) : r.draws = 0 := by
  revert r
  decide

/-- Settles O18: the address of a timer register finds it, and the bus does there what the register's
own read and write do. -/
theorem rawBusReachesTheTimersRegisters : Obligations.RawBusReachesTheTimersRegisters := by
  intro s hadm hready hbase hd
  have hat : ∀ r ∈ Reg.tmrAll, s.regAt (s.addrOf r) = some r := by
    obtain ⟨-, -, -, -, -, -, -, -, hnodup, -⟩ := hadm
    exact fun r hr => regAt_tmr hready hnodup hr fun hi q hq => hd hi q hq r hr
  have hwrite : ∀ r ∈ Reg.tmrAll, ∀ v, memWrite (s.addrOf r) 4 v s = some (busWrite r v s) :=
    fun r hr v => memWrite_of_regAt (addrOf_tmr_aligned hadm hbase hr) (hat r hr)
      (by rintro rfl; simp [Reg.tmrAll] at hr) v
  refine ⟨fun r hr => ⟨readValue r s, ?_, ?_, ?_, ?_, ?_⟩, fun v => ⟨?_, ?_, ?_, ?_⟩⟩
  · rw [memRead_of_regAt (addrOf_tmr_aligned hadm hbase hr) (hat r hr),
      afterRead_of_draws (tmrAll_draws hr)]
  · rintro rfl
    exact toNat_tIrqst _
  · rintro rfl
    rfl
  · rintro rfl
    rfl
  · rintro rfl
    rfl
  · rw [hwrite .tIrqst (by decide), ← not_getLsbD_zero]
    rfl
  · exact hwrite .tCtl (by decide) v
  · exact hwrite .tIntv (by decide) v
  · exact hwrite .tCnt (by decide) v

end Sys2Proof.Machine
end

section
/-!
PROOFS of the memory's statements: what the raw bus reaches in the controller's window (R74, R76, R77),
and which bases bring-up refuses, with the halt code that leaves (R71 to R73, R150, R165, R210).
-/
namespace Sys2Proof.Machine

/-! ### Accesses of the raw bus -/

theorem no_access_of_shape {a : Word} {n : Nat} (h : busShapeOk a n = false) (v : Word) (s : State) :
    memRead a n s = none ∧ memWrite a n v s = none := by
  simp [memRead, memWrite, h]

theorem no_access_of_regAt_none {s : State} {a : Word} (h : s.regAt a = none) (n : Nat) (v : Word) :
    memRead a n s = none ∧ memWrite a n v s = none := by
  simp [memRead, memWrite, h]

/-- VECTOR is read-only (R77). -/
theorem memWrite_of_regAt_vector {s : State} {a : Word} (h : s.regAt a = some .vector) (n : Nat)
    (v : Word) : memWrite a n v s = none := by
  simp [memWrite, h]

theorem busShapeOk_eq_false {a : Word} {n : Nat} (h : n ≠ 4 ∨ a.toNat % 4 ≠ 0) :
    busShapeOk a n = false := by
  rcases h with h | h <;> simp [busShapeOk, h]

theorem regAt_eq_none {s : State} {a : Word} (h : ∀ r ∈ s.mappedRegs, s.addrOf r ≠ a) :
    s.regAt a = none :=
  List.find?_eq_none.mpr fun r hr => by simpa using h r hr

/-- A controller register has an aligned address. -/
theorem addrOf_intc_aligned {s : State} (h : s.cfg.Admissible)
    (hbase : s.internal.intcBase.toNat % 4 = 0) {r : Reg} (hr : r ∈ Reg.intcAll) :
    (s.addrOf r).toNat % 4 = 0 := by
  obtain ⟨-, -, -, -, -, -, -, -, -, haligned, -⟩ := h
  rw [addrOf_intc s hr]
  refine add_aligned hbase (haligned _ ?_)
  rw [← intcAll_offsets]
  exact List.mem_map_of_mem hr

/-- Settles O17: an aligned four-byte access finds the controller register of its address, and any other
access has the wrong shape or finds no register. -/
theorem rawBusReachesExactlyTheRegisters : Obligations.RawBusReachesExactlyTheRegisters := by
  intro s hadm hready hbase
  have haligned : ∀ r ∈ Reg.intcAll, (s.addrOf r).toNat % 4 = 0 :=
    fun _ hr => addrOf_intc_aligned hadm hbase hr
  have hat : ∀ r ∈ Reg.intcAll, s.regAt (s.addrOf r) = some r := by
    obtain ⟨-, -, -, -, -, -, -, hnodup, -⟩ := hadm
    exact fun _ hr => regAt_intc hready hnodup hr
  refine ⟨fun r hr => ?_, fun r hr hv v => ?_, fun v => ?_, fun a n v hshape => ?_,
    fun a n v hfree => ?_⟩
  · exact memRead_of_regAt (haligned r hr) (hat r hr)
  · exact memWrite_of_regAt (haligned r hr) (hat r hr) hv v
  · exact memWrite_of_regAt_vector (hat .vector (by decide)) 4 v
  · exact no_access_of_shape (busShapeOk_eq_false hshape) v s
  · exact no_access_of_regAt_none (regAt_eq_none hfree) n v

/-! ### Unmappable bases -/

/-- R73: a misaligned base, or one whose window wraps, is not mappable. -/
theorem mappable_eq_false_of_address {s : State} {w : Window} {base : Word}
    (h : base.toNat % 4 ≠ 0 ∨ 2 ^ 32 < base.toNat + windowSize s.cfg w) :
    mappable s w base = false := by
  by_contra hm
  rw [Bool.not_eq_false, mappable_iff, mappableAlone_iff] at hm
  obtain ⟨⟨haligned, hfits, -⟩, -⟩ := hm
  omega

/-- A base is not mappable where its window has the address `a` of the other window (log entry 11). -/
theorem mappable_eq_false_of_overlap {s : State} {w : Window} {base : Word} {a : Nat}
    (hready : s.internal.windowReady w.other = true)
    (hle : base.toNat ≤ a) (hlt : a < base.toNat + windowSize s.cfg w)
    (hle' : (s.internal.windowBase w.other).toNat ≤ a)
    (hlt' : a < (s.internal.windowBase w.other).toNat + windowSize s.cfg w.other) :
    mappable s w base = false := by
  by_contra hm
  rw [Bool.not_eq_false, mappable_iff, windowFree_iff] at hm
  obtain ⟨-, hfree⟩ := hm
  have hapart := apart_iff.mp (hfree hready)
  omega

/-! ### Fatal bring-up errors -/

theorem raiseFatal_eq (st : Status) (info : Word) (s : State) :
    raiseFatal st info s = .next { s with
      internal := { s.internal with halt := st.code }, st := st.code, res := info } := rfl

theorem initRule_of_unmappable {s : State} {base : Word} (h : mappable s .intc base = false) :
    initRule base s = raiseFatal .fNoBase base s :=
  ((initRule_cases base s).resolve_left fun ⟨hm, _⟩ => Bool.noConfusion (hm.symm.trans h)).2

theorem tinitRule_of_unmappable {s : State} {base : Word} (h : mappable s .tmr base = false)
    (line : BitVec 8) : tinitRule line base s = raiseFatal .fNoBase base s := by
  rcases tinitRule_cases line base s with ⟨hm, -⟩ | ⟨hm, -⟩ | ⟨-, hrule⟩
  · exact Bool.noConfusion (hm.symm.trans h)
  · exact Bool.noConfusion (hm.symm.trans h)
  · exact hrule

theorem tinitRule_of_line {s : State} {line : BitVec 8} {base : Word}
    (h : mappable s .tmr base = true) (hline : 96 ≤ line.toNat) :
    tinitRule line base s = raiseFatal .fNoIrq (line.setWidth 32) s := by
  rcases tinitRule_cases line base s with ⟨-, hle, -⟩ | ⟨-, -, hrule⟩ | ⟨hm, -⟩
  · omega
  · exact hrule
  · exact Bool.noConfusion (h.symm.trans hm)

theorem exec_init {s : State} (hh : s.internal.halt = 0) (hr : s.internal.intcReady = false)
    (hc : s.internal.ctx = []) (base : Word) : exec (.init base) s = initRule base s :=
  exec_permitted rfl hh (by simp [permitted, hr, hc])

theorem exec_tinit {s : State} (hh : s.internal.halt = 0) (hr : s.internal.tmrReady = false)
    (hc : s.internal.ctx = []) (line : BitVec 8) (base : Word) :
    exec (.tinit line base) s = tinitRule line base s :=
  exec_permitted rfl hh (by simp [permitted, hr, hc])

/-- Settles O26: the prologue lets the command through, its rule takes the fatal branch, and a base is
unmappable for its address alone or for the other window. -/
theorem fatalBringUpErrorsLatchHalt : Obligations.FatalBringUpErrorsLatchHalt := by
  refine ⟨fun s base hh hr hc hm => ?_,
    fun s line base hh hr hc => ⟨fun hm => ?_, fun hm hline => ?_⟩,
    fun _ _ _ => mappable_eq_false_of_address,
    fun _ _ _ => mappable_eq_false_of_overlap (w := .intc),
    fun _ _ _ => mappable_eq_false_of_overlap (w := .tmr), by decide, by decide⟩
  · rw [exec_init hh hr hc, initRule_of_unmappable hm]
    exact raiseFatal_eq ..
  · rw [exec_tinit hh hr hc, tinitRule_of_unmappable hm]
    exact raiseFatal_eq ..
  · rw [exec_tinit hh hr hc, tinitRule_of_line hm hline]
    exact raiseFatal_eq ..

end Sys2Proof.Machine
end

section
/-!
PROOFS of the command word's statements: the decoder and the encoder invert each other, and the words that
decode to nothing are those of R118 (R102 to R111, R118, R122).
-/
namespace Sys2Proof

open Machine

/-! ### Words from commands -/

/-- The word of every command meets the mask and the match of its row (R110). -/
theorem encode_meetsRow : ∀ i : Instr, encode i &&& i.op.maskWord = i.op.matchWord
  | .rd k b => Laws.MeetsRow.rd k b
  | .wr k b value => Laws.MeetsRow.wr k b value
  | .rdg g => Laws.MeetsRow.rdg g
  | .wrg g value => Laws.MeetsRow.wrg g value
  | .ack n => Laws.MeetsRow.ack n
  | .mask n => Laws.MeetsRow.mask n
  | .unmask n => Laws.MeetsRow.unmask n
  | .lack id => Laws.MeetsRow.lack id
  | .lmask id => Laws.MeetsRow.lmask id
  | .lunmask id => Laws.MeetsRow.lunmask id
  | .init base => Laws.MeetsRow.init base
  | .resolve n => Laws.MeetsRow.resolve n
  | .install id => Laws.MeetsRow.install id
  | .irqEntry => Laws.MeetsRow.irqEntry
  | .dispatchRet => Laws.MeetsRow.dispatchRet
  | .tinit line base => Laws.MeetsRow.tinit line base
  | .setMode m => Laws.MeetsRow.setMode m
  | .setNextEvent delta => Laws.MeetsRow.setNextEvent delta
  | .timerIrq => Laws.MeetsRow.timerIrq
  | .tickRet => Laws.MeetsRow.tickRet
  | .ns2t ns => Laws.MeetsRow.ns2t ns
  | .t2ns ticks => Laws.MeetsRow.t2ns ticks
  | .getmin => Laws.MeetsRow.getmin
  | .getmax => Laws.MeetsRow.getmax

@[simp] theorem encode_op (i : Instr) : (encode i).op = i.op.code := CmdWord.pack_op ..
@[simp] theorem encode_z (i : Instr) : (encode i).z = 0 := CmdWord.pack_z ..
@[simp] theorem encode_a (i : Instr) : (encode i).a = i.aField := CmdWord.pack_a ..
@[simp] theorem encode_d (i : Instr) : (encode i).d = i.dField := CmdWord.pack_d ..

/-- The row of a well-formed command builds it from its own fields; only a write of VECTOR is left out
(R106). -/
theorem build_fields {i : Instr} (hw : i.wellFormed = true) :
    i.op.build i.aField i.dField = some i := by
  cases i with
  | rd k b => exact congrArg (Option.map _) (kindBankOf_code k b)
  | wr k b value => exact congrArg (Option.map _) (kindBankOf_code k b)
  | rdg g => exact congrArg (Option.map _) (gregOf_code g)
  | setMode m => exact congrArg (some ∘ Instr.setMode) (modeOf_code m)
  | wrg g value =>
    cases g with
    | vector => exact Bool.noConfusion hw
    | protect => rfl
    | nmiType => rfl
  | _ => rfl

theorem decode_encode {i : Instr} (hw : i.wellFormed = true) : decode (encode i) = some i := by
  obtain ⟨-, -, ha, hd⟩ := (CmdWord.maskTest_iff ..).mp (encode_meetsRow i)
  have hrow : Op.ofCode (encode i).op = some i.op := by rw [encode_op, Op.ofCode_code]
  rw [decode_of_row (encode_z i) hrow, if_pos ⟨ha, hd⟩, encode_a, encode_d, build_fields hw]

/-- Settles O2: the word of a command meets its row, and the row builds the command from its fields. -/
theorem decodeOfEncodeIsTheCommand : Obligations.DecodeOfEncodeIsTheCommand :=
  fun _ => decode_encode

/-! ### Commands from words -/

/-- A row that built a command found the command's `a` field: the mask fixes the bits it does not read. -/
theorem aField_of_build {o : Op} {a : BitVec 8} {d : Word} {i : Instr} (ha : a &&& o.aMask = 0)
    (hb : o.build a d = some i) : i.aField = a := by
  cases o with
  | rd | wr =>
    obtain ⟨⟨k, b⟩, hkb, rfl⟩ := Option.map_eq_some_iff.mp hb
    exact code_of_kindBankOf ha hkb
  | rdg =>
    obtain ⟨g, hg, rfl⟩ := Option.map_eq_some_iff.mp hb
    exact code_of_gregOf ha hg
  | wrg =>
    simp only [Op.build] at hb
    split at hb <;> cases hb
    all_goals exact code_of_gregOf ha ‹_›
  | setMode => cases hb; exact code_of_modeOf a ha
  | tinit => cases hb; rfl
  | _ => cases hb; exact ((and_byte_ones a).symm.trans ha).symm

/-- A row that built a command found the command's `d` field. -/
theorem dField_of_build {o : Op} {a : BitVec 8} {d : Word} {i : Instr} (hd : d &&& o.dMask = 0)
    (hb : o.build a d = some i) : i.dField = d := by
  have hzero (h : o.dMask = 0xFFFFFFFF) : 0 = d := by rw [← hd, h, and_word_ones]
  cases o with
  | rd | rdg =>
    obtain ⟨_, -, rfl⟩ := Option.map_eq_some_iff.mp hb
    exact hzero rfl
  | wr =>
    obtain ⟨_, -, rfl⟩ := Option.map_eq_some_iff.mp hb
    rfl
  | wrg =>
    simp only [Op.build] at hb
    split at hb <;> cases hb <;> rfl
  | irqEntry | dispatchRet | setMode | timerIrq | tickRet | getmin | getmax => cases hb; exact hzero rfl
  | _ => cases hb; rfl

theorem encode_of_decode {w : CmdWord} {i : Instr} (h : decode w = some i) : encode i = w := by
  obtain ⟨o, hrow, hz, ha, hd, hb⟩ := decode_some h
  obtain ⟨-, rfl⟩ := build_wellFormed hb
  rw [encode, aField_of_build ha hb, dField_of_build hd hb, Op.code_of_ofCode hrow, ← hz,
    CmdWord.pack_fields]

/-- Settles O3: the command's four fields are those of the word it was read from. -/
theorem everyLegalWordIsItsCommandsEncoding : Obligations.EveryLegalWordIsItsCommandsEncoding :=
  fun _ _ h => ⟨decode_wellFormed h, encode_of_decode h⟩

/-! ### Illegal words -/

/-- The fields a row refuses: a must-be-zero bit is set, or an operand is reserved (R103 to R108). -/
def Op.Refuses (o : Op) (a : BitVec 8) (d : Word) : Prop :=
  ¬(a &&& o.aMask = 0 ∧ d &&& o.dMask = 0) ∨ o.build a d = none

theorem Op.ofCode_eq_none_iff {c : BitVec 8} : Op.ofCode c = none ↔ c ∉ Op.all.map Op.code := by
  simp [Op.ofCode, List.find?_eq_none]

theorem Op.code_mem_all (o : Op) : o.code ∈ Op.all.map Op.code :=
  List.mem_map_of_mem (by cases o <;> decide)

theorem decode_eq_none_iff_of_row {w : CmdWord} {o : Op} (hz : w.z = 0)
    (ho : Op.ofCode w.op = some o) : decode w = none ↔ o.Refuses w.a w.d := by
  rw [decode_of_row hz ho, Op.Refuses]
  split
  · next hmask => simp [hmask]
  · next hmask => exact iff_of_true rfl (.inl hmask)

/-- The values of `a` the rows of RD and WR refuse (R105). -/
theorem kindBank_refused_iff : ∀ a : BitVec 8, a &&& 0xF0 ≠ 0 ∨ kindBankOf a = none ↔
    a.extractLsb' 4 4 ≠ 0 ∨ a.extractLsb' 2 2 = 3 ∨ a.extractLsb' 0 2 = 3 := by
  decide

/-- The values of `a` the row of RDG refuses (R106). -/
theorem greg_refused_iff : ∀ a : BitVec 8,
    a &&& 0xFC ≠ 0 ∨ GReg.ofCode (a.extractLsb' 0 2) = none ↔ 3 ≤ a.toNat := by
  decide

theorem build_wrg_eq_none_iff {a : BitVec 8} {d : Word} : Op.wrg.build a d = none ↔
    GReg.ofCode (a.extractLsb' 0 2) = none ∨ GReg.ofCode (a.extractLsb' 0 2) = some .vector := by
  simp only [Op.build]
  split <;> simp [*]

/-- The values of `a` the row of WRG refuses: VECTOR too (R106). -/
theorem writableGReg_refused_iff : ∀ a : BitVec 8,
    a &&& 0xFC ≠ 0 ∨ GReg.ofCode (a.extractLsb' 0 2) = none ∨
      GReg.ofCode (a.extractLsb' 0 2) = some .vector ↔ a.toNat = 0 ∨ 3 ≤ a.toNat := by
  decide

/-- The values of `a` the row of SET_MODE refuses (R107). -/
theorem mode_refused_iff : ∀ a : BitVec 8, a &&& 0xFC ≠ 0 ↔ 4 ≤ a.toNat := by decide

/-- An `a` field with an operand the row has no meaning for: a reserved value, or a bit above the operand
(R105 to R107). -/
def Op.ReservedOperand (o : Op) (a : BitVec 8) : Prop :=
  (o ∈ [Op.rd, .wr] ∧
    (a.extractLsb' 4 4 ≠ 0 ∨ a.extractLsb' 2 2 = 3 ∨ a.extractLsb' 0 2 = 3)) ∨
  (o = .rdg ∧ 3 ≤ a.toNat) ∨ (o = .wrg ∧ (a.toNat = 0 ∨ 3 ≤ a.toNat)) ∨
  (o = .setMode ∧ 4 ≤ a.toNat)

/-- The `a` fields a row refuses (R105 to R108). -/
theorem aField_refused_iff (o : Op) (a : BitVec 8) (d : Word) :
    a &&& o.aMask ≠ 0 ∨ o.build a d = none ↔
      (o.format ∈ [Format.n, .d] ∧ a ≠ 0) ∨ o.ReservedOperand a := by
  unfold Op.ReservedOperand
  cases o with
  | rd | wr => simpa [Op.aMask, Op.build, Op.format] using kindBank_refused_iff a
  | rdg => simpa [Op.aMask, Op.build, Op.format] using greg_refused_iff a
  | wrg => simpa [Op.aMask, build_wrg_eq_none_iff, Op.format] using writableGReg_refused_iff a
  | setMode => simpa [Op.aMask, Op.build, Op.format] using mode_refused_iff a
  | tinit => simp [Op.aMask, Op.build, Op.format]
  | _ =>
    simp only [Op.aMask, and_byte_ones]
    simp [Op.build, Op.format]

/-- The `d` fields a row refuses (R103). -/
theorem dField_refused_iff (o : Op) (d : Word) :
    d &&& o.dMask ≠ 0 ↔ o.format ∈ [Format.n, .a] ∧ d ≠ 0 := by
  unfold Op.dMask
  cases o.format with
  | n | a => simp only [and_word_ones]; simp
  | d | ad => simp

/-- What a row refuses, in the order of R118's list. -/
theorem Op.refuses_iff (o : Op) (a : BitVec 8) (d : Word) : o.Refuses a d ↔
    (o.format = .n ∧ ¬(a = 0 ∧ d = 0)) ∨ (o.format = .d ∧ a ≠ 0) ∨ (o.format = .a ∧ d ≠ 0) ∨
    o.ReservedOperand a := by
  rw [Op.Refuses, not_and_or, or_right_comm, aField_refused_iff, ← ne_eq (_ &&& _),
    dField_refused_iff]
  cases o.format with
  | n => simp [imp_iff_not_or, or_right_comm]
  | a => simp [or_comm]
  | d | ad => simp

/-- The opcodes of the formats without two operands (R103, R110). -/
theorem Op.format_iff (o : Op) :
    (o.format = .n ↔ o.code ∈ ([0x33, 0x34, 0x43, 0x44, 0x52, 0x53] : List (BitVec 8))) ∧
    (o.format = .d ↔ o.code ∈ ([0x20, 0x21, 0x22, 0x24, 0x25, 0x26, 0x30, 0x31, 0x32, 0x42,
      0x50, 0x51] : List (BitVec 8))) ∧
    (o.format = .a ↔ o.code ∈ ([0x10, 0x12, 0x41] : List (BitVec 8))) := by
  cases o <;> decide

theorem Op.code_injective : Function.Injective Op.code := fun o o' h =>
  Option.some.inj (by rw [← Op.ofCode_code o, h, Op.ofCode_code])

theorem CmdWord.operands_eq_zero_iff (w : CmdWord) :
    w.extractLsb' 0 40 = 0 ↔ w.a = 0 ∧ w.d = 0 := by
  simp only [CmdWord.a, CmdWord.d, BitVec.toNat_eq, BitVec.extractLsb'_toNat,
    Nat.shiftRight_eq_div_pow, BitVec.ofNat_eq_ofNat, BitVec.toNat_ofNat]
  omega

theorem CmdWord.a_extractLsb' (w : CmdWord) {start len : Nat} (h : start + len ≤ 8) :
    w.a.extractLsb' start len = w.extractLsb' (32 + start) len := by
  apply BitVec.eq_of_getLsbD_eq
  intro i hi
  have hbit : start + i < 8 := by omega
  simp [CmdWord.a, hbit, Nat.add_assoc]

/-- `ReservedOperand` by the opcode and the bits of the word. -/
theorem Op.reservedOperand_iff (o : Op) (w : CmdWord) : o.ReservedOperand w.a ↔
    (o.code ∈ [Op.rd.code, Op.wr.code] ∧
      (w.extractLsb' 36 4 ≠ 0 ∨ w.extractLsb' 34 2 = 3 ∨ w.extractLsb' 32 2 = 3)) ∨
    (o.code = Op.rdg.code ∧ 3 ≤ w.a.toNat) ∨
    (o.code = Op.wrg.code ∧ (w.a.toNat = 0 ∨ 3 ≤ w.a.toNat)) ∨
    (o.code = Op.setMode.code ∧ 4 ≤ w.a.toNat) := by
  have hmem : o.code ∈ [Op.rd.code, Op.wr.code] ↔ o ∈ [Op.rd, .wr] :=
    List.mem_map_of_injective (l := [.rd, .wr]) Op.code_injective
  simp only [Op.ReservedOperand, hmem, Op.code_injective.eq_iff,
    w.a_extractLsb' (start := 4) (len := 4) (by decide),
    w.a_extractLsb' (start := 2) (len := 2) (by decide),
    w.a_extractLsb' (start := 0) (len := 2) (by decide)]

theorem decode_eq_none_of_z {w : CmdWord} (hz : w.z ≠ 0) : decode w = none := if_pos hz

theorem decode_eq_none_of_op {w : CmdWord} (ho : Op.ofCode w.op = none) : decode w = none := by
  simp [decode, ho]

/-- Settles O4: a nonzero z field and an unknown op are illegal outright, and a word of a known row is
illegal where the row refuses its fields; the step is `step_illegal`. -/
theorem illegalWordsAreThoseOfR118 : Obligations.IllegalWordsAreThoseOfR118 := by
  refine ⟨fun w => ?_, fun _ _ _ hp hd => step_illegal hp hd⟩
  rcases ne_or_eq w.z 0 with hz | hz
  · exact iff_of_true (decode_eq_none_of_z hz) (.inl hz)
  cases ho : Op.ofCode w.op with
  | none => exact iff_of_true (decode_eq_none_of_op ho) (.inr (.inl (Op.ofCode_eq_none_iff.mp ho)))
  | some o =>
    have hop : w.extractLsb' 56 8 = o.code := (Op.code_of_ofCode ho).symm
    obtain ⟨hn, hd, ha⟩ := o.format_iff
    rw [decode_eq_none_iff_of_row hz ho, Op.refuses_iff, Op.reservedOperand_iff,
      ← w.operands_eq_zero_iff, hn, hd, ha, hop]
    exact ((or_iff_right (not_not.mpr hz)).trans (or_iff_right (not_not.mpr o.code_mem_all))).symm

/-- Settles O1, by evaluating the decoder on the eleven words. -/
theorem workedEncodingsDecode : Obligations.WorkedEncodingsDecode := by
  unfold Obligations.WorkedEncodingsDecode
  decide

end Sys2Proof
end

section
/-!
PROOFS of the register access commands: RD is one read, WR and WRG are one write by the rule of the
register's kind (R130, R131, R133).
-/
namespace Sys2Proof.Machine

/-- RD answers the register after one slot, and draws no free value. -/
theorem exec_rd {s : State} (h : IntcRunning s) (k : Kind) (b : Bank) :
    exec (.rd k b) s = .next { s.envSlot with
      res := (s.envSlot.mmio.kind k).get b, st := 0
      trace := s.trace ++ [.busRead (s.addrOf (.banked k b)) ((s.envSlot.mmio.kind k).get b)] } := by
  obtain ⟨hrunning, hready⟩ := h
  have hrule : exec (.rd k b) s = readRule (.banked k b) s := exec_permitted rfl hrunning hready
  rw [hrule, readRule, afterRead_of_draws rfl]
  rfl

/-- WR answers with its register written after one slot. -/
theorem exec_wr {s : State} (h : IntcRunning s) (k : Kind) (b : Bank) (v : Word) :
    exec (.wr k b v) s = .next ((busWrite (.banked k b) v s).respond .ok 0) := by
  obtain ⟨hrunning, hready⟩ := h
  exact exec_permitted rfl hrunning hready

/-- WRG answers with its register written after one slot; VECTOR takes no write (R106). -/
theorem exec_wrg {s : State} (h : IntcRunning s) {g : GReg} (hg : g ≠ .vector) (v : Word) :
    exec (.wrg g v) s = .next ((busWrite (regOf g) v s).respond .ok 0) := by
  obtain ⟨hrunning, hready⟩ := h
  cases g with
  | vector => exact absurd rfl hg
  | protect | nmiType => exact exec_permitted rfl hrunning hready

/-- Settles O11: RD is one read, and the slot before it can change PENDING alone of the three kinds. -/
theorem rdReturnsTheRegister : Obligations.RdReturnsTheRegister := by
  intro s k b h
  refine ⟨(s.envSlot.mmio.kind k).get b, ?_, ?_, ?_, exec_rd h k b⟩
  · rintro rfl
    rfl
  · rintro rfl
    rw [← envSlot_enable s]
    rfl
  · rintro rfl
    rw [← envSlot_mask s]
    rfl

/-- Settles O12: WR is one write, and no slot changes the banks of ENABLE and MASK. -/
theorem wrFollowsTheWriteRuleOfItsKind : Obligations.WrFollowsTheWriteRuleOfItsKind := by
  intro s b v h
  refine ⟨?_, ?_, ?_⟩
  · exact exec_wr h .pending b v
  · rw [← envSlot_enable s]
    exact exec_wr h .enable b v
  · rw [← envSlot_mask s]
    exact exec_wr h .mask b v

/-- Settles O16: WRG is one write, and the term that writes VECTOR does what an illegal word does. -/
theorem wrgStoresTheValue : Obligations.WrgStoresTheValue :=
  ⟨fun _ v h => ⟨exec_wrg h (g := .protect) nofun v, exec_wrg h (g := .nmiType) nofun v⟩,
    fun s v => exec_wrg_vector v s⟩

end Sys2Proof.Machine
end

section
/-!
PROOFS of the line control commands: the effect of the three bodies on a line (R140 to R142), the
commands by line number (R143) and by identifier (R144 to R146) that run them, and the isolation of a
line under MASK then UNMASK (R147).
-/
namespace Sys2Proof.Machine

/-! ### Slots do not look at ENABLE -/

/-- A scheduled step neither reads nor writes ENABLE. -/
theorem envApply_with_enable (r : InternalRegs) (m : MmioRegs) (x : Banks) (e : EnvStep) :
    envApply r { m with enable := x } e = { envApply r m e with enable := x } := by
  cases e with
  | lineRaise n | timerTick | timerExpire =>
    simp only [envApply, envEffect, apply_ite fun m' : MmioRegs => { m' with enable := x }]
    rfl

theorem envRun_with_enable (r : InternalRegs) (x : Banks) (es : List EnvStep) :
    ∀ m, envRun r { m with enable := x } es = { envRun r m es with enable := x } := by
  induction es with
  | nil => exact fun _ => rfl
  | cons e es ih => intro m; rw [envRun_cons, envApply_with_enable, ih]; rfl

/-- States that differ, of what a slot reads, in ENABLE alone differ in it alone after any slots. -/
theorem envSlots_mmio_with_enable {x : Banks} (k : Nat) :
    ∀ {s t : State}, t.internal = s.internal → t.env = s.env → t.mmio = { s.mmio with enable := x } →
      (t.envSlots k).mmio = { (s.envSlots k).mmio with enable := x } := by
  induction k with
  | zero => exact fun _ _ hm => hm
  | succ k ih =>
    intro s t hi he hm
    refine ih hi (congrArg List.tail he) ?_
    rw [envSlot_mmio, hi, he, hm, envRun_with_enable]
    rfl

theorem envSlots_add (j k : Nat) : ∀ s : State, (s.envSlots j).envSlots k = s.envSlots (j + k) := by
  induction j with
  | zero => intro s; rw [Nat.zero_add]; rfl
  | succ j ih => intro s; rw [Nat.succ_add]; exact ih s.envSlot

@[simp] theorem envSlots_mask (k : Nat) : ∀ s : State, (s.envSlots k).mmio.mask = s.mmio.mask := by
  induction k with
  | zero => exact fun _ => rfl
  | succ k ih => intro s; rw [envSlots_succ, ih, envSlot_mask]

/-! ### The bodies of the commands -/

/-- One write of the single bit clears it alone (R140). -/
theorem ackLine_effect (n : Line) (s : State) : AckEffect n s ((ackLine n s).respond .ok 0) := by
  refine ⟨fun m => ?_, rfl, rfl, rfl, rfl, rfl, envSlots_env 1 s, rfl, rfl, rfl⟩
  rw [decide_not]
  exact Banks.line_set_andNot s.envSlot.mmio.pending n m

/-- A bus read of an ENABLE bank sees the value from before its slot. -/
theorem envSlot_regValue_enable (b : Bank) (s : State) :
    s.envSlot.regValue (.banked .enable b) = s.mmio.enable.get b :=
  congrArg (·.get b) (envSlot_enable s)

/-- A read-modify-write of an ENABLE bank stores what its function makes of the value before. -/
theorem readModifyWrite_enable (b : Bank) (f : Word → Word) (s : State) :
    (readModifyWrite (.banked .enable b) f s).mmio =
      { s.envSlot.envSlot.mmio with enable := s.mmio.enable.set b (f (s.mmio.enable.get b)) } := by
  rw [readModifyWrite_mmio, envSlot_regValue_enable]
  simp only [MmioRegs.write, envSlot_enable]

/-- Reading the bank and writing it back without the bit clears it alone (R141). -/
theorem maskLine_effect (n : Line) (s : State) : MaskEffect n s ((maskLine n s).respond .ok 0) := by
  refine ⟨fun m => ?_, rfl, rfl, ?_, rfl, rfl, envSlots_env 2 s, rfl, rfl, rfl⟩
  · rw [respond_mmio, maskLine, readModifyWrite_enable, decide_not]
    exact Banks.line_set_andNot s.mmio.enable n m
  · rw [respond_trace, maskLine, readModifyWrite_trace, envSlot_regValue_enable]
    rfl

/-- The enable half of UNMASK sets the bit of its line alone. -/
theorem enableLine_line (n m : Line) (s : State) :
    (enableLine n s).mmio.enable.line m = (s.mmio.enable.line m || decide (m = n)) := by
  rw [enableLine, readModifyWrite_enable]
  exact Banks.line_set_or s.mmio.enable n m

theorem enableLine_trace (n : Line) (s : State) :
    (enableLine n s).trace = s.trace ++
      [.busRead (s.addrOf (.banked .enable (bankOf n))) (s.mmio.enable.get (bankOf n)),
       .busWrite (s.addrOf (.banked .enable (bankOf n)))
         (s.mmio.enable.get (bankOf n) ||| onehot n)] := by
  rw [enableLine, readModifyWrite_trace, envSlot_regValue_enable]

/-- After the enable half the next slot does to all but ENABLE what it does without it. -/
theorem enableLine_envSlot_mmio (n : Line) (s : State) :
    (enableLine n s).envSlot.mmio =
      { (s.envSlots 3).mmio with enable := (enableLine n s).mmio.enable } :=
  envSlots_mmio_with_enable (s := s.envSlots 2) 1 rfl rfl rfl

theorem unmaskLine_zero (s : State) : unmaskLine 0 s = ackLine 0 (enableLine 0 s) := rfl

theorem unmaskLine_of_ne_zero {n : Line} (h : n.val ≠ 0) (s : State) :
    unmaskLine n s = enableLine n s :=
  if_neg fun hn => h (congrArg Fin.val hn)

/-- UNMASK of another line is its enable half (R142). -/
theorem unmaskLine_effect_of_ne_zero {n : Line} (hn : n.val ≠ 0) (s : State) :
    UnmaskEffect n s ((unmaskLine n s).respond .ok 0) := by
  rw [unmaskLine_of_ne_zero hn]
  refine ⟨fun m => enableLine_line n m s, rfl, fun _ => ⟨rfl, enableLine_trace n s, ?_⟩,
    fun h => absurd h hn⟩
  exact ⟨rfl, rfl, envSlots_env 2 s, rfl, rfl, rfl⟩

/-- UNMASK of line 0 is its enable half, then an acknowledgement (R142). -/
theorem unmaskLine_effect_zero (s : State) :
    UnmaskEffect 0 s ((unmaskLine 0 s).respond .ok 0) := by
  obtain ⟨hpending, hmmio, -, htrace, -⟩ := ackLine_effect 0 (enableLine 0 s)
  rw [← unmaskLine_zero] at hpending hmmio htrace
  rw [enableLine_envSlot_mmio] at hpending hmmio
  have henable : ((unmaskLine 0 s).respond .ok 0).mmio.enable = (enableLine 0 s).mmio.enable :=
    congrArg (·.enable) hmmio
  refine ⟨fun m => ?_, rfl, fun h => absurd rfl h, fun _ => ⟨fun m => ?_, ?_, ?_, ?_⟩⟩
  · rw [henable, enableLine_line]
  · simp only [hpending m, ne_eq, Fin.ext_iff, Fin.val_zero]
  · rw [henable]
    exact hmmio
  · rw [htrace, enableLine_trace, List.append_assoc]
    rfl
  · exact ⟨rfl, rfl, envSlots_env 3 s, rfl, rfl, rfl⟩

theorem unmaskLine_effect (n : Line) (s : State) :
    UnmaskEffect n s ((unmaskLine n s).respond .ok 0) := by
  by_cases hn : n.val = 0
  · obtain rfl : n = 0 := Fin.ext hn
    exact unmaskLine_effect_zero s
  · exact unmaskLine_effect_of_ne_zero hn s

/-! ### The commands by line number -/

/-- A command that needs INIT alone runs its rule (R202, R203). -/
theorem exec_of_intcRunning {s : State} (h : IntcRunning s) {i : Instr} (hw : i.wellFormed = true)
    (hp : permitted i s = s.internal.intcReady) : exec i s = ruleOf i s := by
  obtain ⟨hrunning, hready⟩ := h
  exact exec_permitted hw hrunning (hp.trans hready)

/-- A command by line number has the effect of its body on a line below 96, and faults from 96 up
(R143). -/
theorem byLine_effect {E : Line → State → State → Prop} {op : Line → State → State} {s : State}
    (hop : ∀ n, E n s ((op n s).respond .ok 0)) (cmd : ContractCommand) (w : Word) :
    (∀ n : Line, w.toNat = n.val → ∃ t, byLine cmd w op s = .next t ∧ E n s t) ∧
    (96 ≤ w.toNat → byLine cmd w op s = .fault (.contract cmd w)) := by
  rcases byLine_cases cmd w op s with ⟨l, hl, h⟩ | ⟨hw, h⟩
  · refine ⟨fun n hn => ?_, fun hw => by omega⟩
    obtain rfl : l = n := Fin.ext (hl.symm.trans hn)
    exact ⟨_, h, hop l⟩
  · exact ⟨fun n hn => by omega, fun _ => h⟩

/-- Settles O19: ACK runs the one write of its line. -/
theorem ackClearsExactlyItsPendingBit : Obligations.AckClearsExactlyItsPendingBit := by
  intro s w h
  rw [exec_of_intcRunning h rfl rfl]
  exact byLine_effect (ackLine_effect · s) .ack w

/-- Settles O20: MASK runs the read-modify-write that clears its line's bit. -/
theorem maskClearsExactlyItsEnableBit : Obligations.MaskClearsExactlyItsEnableBit := by
  intro s w h
  rw [exec_of_intcRunning h rfl rfl]
  exact byLine_effect (maskLine_effect · s) .mask w

/-- Settles O21: UNMASK runs the read-modify-write that sets its line's bit, and line 0's
acknowledgement after it. -/
theorem unmaskSetsItsEnableBitAndAcknowledgesLineZero :
    Obligations.UnmaskSetsItsEnableBitAndAcknowledgesLineZero := by
  intro s w h
  rw [exec_of_intcRunning h rfl rfl]
  exact byLine_effect (unmaskLine_effect · s) .unmask w

/-! ### The commands by identifier -/

/-- A command by identifier runs its body on the one bound line that has the identifier (R144). -/
theorem byId_bound {s : State} {id : Word} {n : Line} (hinv : Inv s)
    (hmap : s.internal.map[n] = some id) (hbound : s.internal.isBound n = true)
    (op : Line → State → State) : byId id op s = .next ((op n s).respond .ok 0) := by
  have hline : s.internal.boundLine id = some n := by
    simp only [InternalRegs.boundLine, lineOf_eq hmap hinv.mapDistinct, hbound, if_true]
  simp only [byId, hline, finish]

/-- An identifier no bound line has is refused before any access (R144). -/
theorem byId_unbound {s : State} {id : Word}
    (h : ∀ n : Line, s.internal.map[n] = some id → s.internal.isBound n = false)
    (op : Line → State → State) : byId id op s = .next (s.respond .xUnbound id) := by
  rcases byId_cases id op s with ⟨l, hmap, hbound, -⟩ | hrefused
  · exact absurd hbound (Bool.eq_false_iff.mp (h l hmap))
  · exact hrefused

/-- INSTALL of an identifier no line has is refused (R152). -/
theorem installRule_unmapped {s : State} {id : Word} (h : ∀ n : Line, s.internal.map[n] ≠ some id) :
    installRule id s = .next (s.respond .xUnbound id) := by
  rcases installRule_cases id s with ⟨l, hmap, -⟩ | hrefused
  · exact absurd hmap (h l)
  · exact hrefused

/-- Settles O22: identifiers are distinct, so the command runs the body on the line itself. -/
theorem identifierCommandsActOnTheirLine : Obligations.IdentifierCommandsActOnTheirLine := by
  intro s id n hinv h hmap hbound
  have hbody := byId_bound hinv hmap hbound
  refine ⟨⟨_, ?_, ackLine_effect n s⟩, ⟨_, ?_, maskLine_effect n s⟩, ⟨_, ?_, unmaskLine_effect n s⟩⟩
  · exact (exec_of_intcRunning h (i := .lack id) rfl rfl).trans (hbody ackLine)
  · exact (exec_of_intcRunning h (i := .lmask id) rfl rfl).trans (hbody maskLine)
  · exact (exec_of_intcRunning h (i := .lunmask id) rfl rfl).trans (hbody unmaskLine)

/-- Settles O23: the lookup finds no line to run the command on. -/
theorem unboundIdentifiersAreRefused : Obligations.UnboundIdentifiersAreRefused := by
  intro s id h
  refine ⟨fun hunbound => ?_, fun hunmapped => ?_⟩
  · have hrefused := byId_unbound hunbound
    refine ⟨?_, ?_, ?_⟩
    · exact (exec_of_intcRunning h (i := .lack id) rfl rfl).trans (hrefused ackLine)
    · exact (exec_of_intcRunning h (i := .lmask id) rfl rfl).trans (hrefused maskLine)
    · exact (exec_of_intcRunning h (i := .lunmask id) rfl rfl).trans (hrefused unmaskLine)
  · exact (exec_of_intcRunning h (i := .install id) rfl rfl).trans (installRule_unmapped hunmapped)

/-! ### MASK then UNMASK -/

/-- Slots after a MASK do to all but ENABLE what they do without it. -/
theorem MaskEffect.envSlots_mmio {n : Line} {s t : State} (h : MaskEffect n s t) (k : Nat) :
    (t.envSlots k).mmio = { (s.envSlots (2 + k)).mmio with enable := t.mmio.enable } := by
  obtain ⟨-, hmmio, hinternal, -, -, -, henv, -⟩ := h
  rw [← envSlots_add]
  refine envSlots_mmio_with_enable k ?_ ?_ hmmio
  · rw [hinternal, envSlots_internal]
  · rw [henv, envSlots_env]

/-- UNMASK leaves the MASK registers alone. -/
theorem UnmaskEffect.mask {n : Line} {s t : State} (h : UnmaskEffect n s t) :
    t.mmio.mask = s.mmio.mask := by
  obtain ⟨-, -, hother, hzero⟩ := h
  by_cases hn : n.val = 0
  · obtain ⟨-, hmmio, -⟩ := hzero hn
    rw [hmmio, envSlots_mask]
  · obtain ⟨hmmio, -⟩ := hother hn
    rw [hmmio, envSlots_mask]

/-- Settles O24: the effects of the two commands, one after the other; the slots of the second do not
see what the first did to ENABLE. -/
theorem maskThenUnmaskIsolatesTheLine : Obligations.MaskThenUnmaskIsolatesTheLine := by
  intro s w n h hw
  obtain ⟨s', hmask, hs⟩ := (maskClearsExactlyItsEnableBit s w h).1 n hw
  have hslots := hs.envSlots_mmio
  obtain ⟨hcleared, hmmio, hinternal, -⟩ := hs
  have h' : IntcRunning s' := by rwa [IntcRunning, hinternal]
  obtain ⟨t, hunmask, ht⟩ := (unmaskSetsItsEnableBitAndAcknowledgesLineZero s' w h').1 n hw
  have hmasks : t.mmio.mask = s.mmio.mask := by rw [ht.mask, hmmio, envSlots_mask]
  obtain ⟨hset, -, hother, hzero⟩ := ht
  refine ⟨s', t, hmask, hunmask, ?_, fun m hm => ?_, hmasks, fun hn => ?_, fun hn m => ?_⟩
  · simp [hset]
  · simp [hset, hcleared, hm]
  · obtain ⟨htregs, -⟩ := hother hn
    rw [htregs, hslots 2]
  · obtain ⟨hpending, -⟩ := hzero hn
    rw [hpending m, hslots 3]

end Sys2Proof.Machine
end

section
/-!
PROOFS of the interrupt domain and the entry handler: the returns (R154, R178), why the table of
identifiers is never full (R156), what `resolve` answers (R151, R155), the bindings (R152), the dispatch
of IRQ_ENTRY (R153) and the eleven writes of INIT (R150).
-/
namespace Sys2Proof.Machine

/-! ### The returns -/

/-- A return pops the one entry on top of the context. -/
theorem returnRule_of_ctx {s : State} {below : List Ctx} {c : Ctx}
    (h : s.internal.ctx = below ++ [c]) :
    returnRule s = .next { s with internal := { s.internal with ctx := below }, st := 0, res := 0 } := by
  have hpop : s.internal.ctx.dropLast = below := by rw [h, List.dropLast_concat]
  rw [← hpop]
  rfl

/-- Settles O32: the callback on top of the context permits its return, whose rule pops it. -/
theorem returnsPopTheContextOnly : Obligations.ReturnsPopTheContextOnly := by
  intro s below hrunning
  refine ⟨fun hctx => ?_, fun hctx => ?_⟩
  · have hrule : exec .dispatchRet s = returnRule s :=
      exec_permitted rfl hrunning (by simp [permitted, hctx])
    exact hrule.trans (returnRule_of_ctx hctx)
  · have hrule : exec .tickRet s = returnRule s :=
      exec_permitted rfl hrunning (by simp [permitted, hctx])
    exact hrule.trans (returnRule_of_ctx hctx)

/-! ### The table is never full -/

/-- A line without identifier leaves room in the table, which counts its entries (R36 c, R156). -/
theorem Inv.nmapped_le {s : State} (h : Inv s) {n : Line} (hn : s.internal.map[n] = none) :
    s.internal.nmapped.toNat ≤ 95 :=
  h.mapCount.trans_le (mappedCount_lt hn)

/-- Where the invariant holds `resolve` always answers: the line has an identifier or there is room. -/
theorem Inv.mapped_or_room {s : State} (h : Inv s) (n : Line) :
    s.internal.map[n].isSome = true ∨ s.internal.nmapped.toNat ≠ 96 := by
  cases hn : s.internal.map[n] with
  | some id => exact .inl rfl
  | none =>
    have hroom := h.nmapped_le hn
    exact .inr (by omega)

/-- Settles O28: a command keeps the invariant, which has no F_DOMAIN_FULL among its codes. -/
theorem noCommandFindsTheTableFull : Obligations.NoCommandFindsTheTableFull := by
  refine ⟨fun s n h hn => h.nmapped_le hn, fun i s t h he => ⟨?_, ?_⟩⟩
  · have hst := (h.exec he).stLegal
    intro hfull
    exact absurd (hfull ▸ hst) (by decide)
  · intro hfull
    rcases (h.exec he).haltLegal with hhalt | hhalt | hhalt <;>
      exact absurd (hfull.symm.trans hhalt) (by decide)

/-! ### RESOLVE -/

theorem ResolvesTo.map_eq {r r' : InternalRegs} {n : Line} {id : Word} (h : ResolvesTo r n id r') :
    r'.map[n] = some id := by
  rcases h with ⟨hmap, rfl⟩ | ⟨-, -, -, rfl⟩
  · exact hmap
  · exact (map_set_get r.map n n id).trans (if_pos rfl)

theorem ResolvesTo.ctx_eq {r r' : InternalRegs} {n : Line} {id : Word} (h : ResolvesTo r n id r') :
    r'.ctx = r.ctx := by
  rcases h with ⟨-, rfl⟩ | ⟨-, -, -, rfl⟩ <;> rfl

/-- `resolve` touches neither `halt` nor `intc_ready`. -/
theorem ResolvesTo.intcRunning {s : State} {r : InternalRegs} {n : Line} {id : Word}
    (h : ResolvesTo s.internal n id r) (hs : IntcRunning s) : r.halt = 0 ∧ r.intcReady = true := by
  rcases h with ⟨-, rfl⟩ | ⟨-, -, -, rfl⟩ <;> exact hs

/-- `resolve` of a line with an identifier answers it and changes nothing (R155). -/
theorem resolveThen_mapped {s : State} {n : Line} {id : Word} (h : s.internal.map[n] = some id)
    (go : Word → State → Out) : resolveThen n s go = go id s := by
  simp only [resolveThen, lookup_mapped h]

/-- `resolve` of a line without one in a full table is fatal (R155). -/
theorem resolveThen_full {s : State} {n : Line} (h : s.internal.map[n] = none)
    (hc : s.internal.nmapped.toNat = 96) (go : Word → State → Out) :
    resolveThen n s go = raiseFatal .fDomainFull (BitVec.ofNat 32 n.val) s := by
  simp only [resolveThen, lookup_full h hc]

/-- `resolve` goes on with the line's identifier, its own or a fresh one, and the table that has it,
unless the line has none and the table is full (R155). -/
theorem exists_resolvesTo {s : State} {n : Line}
    (h : s.internal.map[n].isSome = true ∨ s.internal.nmapped.toNat ≠ 96) :
    ∃ id r, ResolvesTo s.internal n id r ∧
      ∀ go, resolveThen n s go = go id { s with internal := r } := by
  cases hmap : s.internal.map[n] with
  | some id => exact ⟨id, s.internal, .inl ⟨hmap, rfl⟩, resolveThen_mapped hmap⟩
  | none =>
    have hroom : s.internal.nmapped.toNat ≠ 96 := h.resolve_left (by simp [hmap])
    refine ⟨s.internal.alloc s.cfg.idPool, (s.mapLine n (s.internal.alloc s.cfg.idPool)).internal,
      .inr ⟨hmap, alloc_ne_zero _ _, alloc_fresh _ _, rfl⟩, fun go => ?_⟩
    simp only [resolveThen, lookup_unmapped hmap hroom]
    rfl

/-- RESOLVE of a line below 96 is `resolve` of the line. -/
theorem exec_resolve {s : State} (h : IntcRunning s) {w : Word} {n : Line} (hw : w.toNat = n.val) :
    exec (.resolve w) s = resolveThen n s (finish .ok) := by
  have hrule : exec (.resolve w) s = resolveRule w s := exec_of_intcRunning h rfl rfl
  rw [hrule]
  simp only [resolveRule, line?_eq_some.mpr hw]

/-- Settles O27: after the first RESOLVE the line has the identifier the second one answers. -/
theorem resolveGivesEachLineOneIdentifier : Obligations.ResolveGivesEachLineOneIdentifier := by
  intro s w n h hw
  refine ⟨fun hroom => ?_, fun hmap hfull => ?_⟩
  · obtain ⟨id, r, hr, hgo⟩ := exists_resolvesTo hroom
    refine ⟨id, { s with internal := r, res := id, st := 0 }, ?_, hr, rfl, ?_⟩
    · exact (exec_resolve h hw).trans (hgo _)
    · exact (exec_resolve (hr.intcRunning h) hw).trans (resolveThen_mapped hr.map_eq _)
  · exact (exec_resolve h hw).trans (resolveThen_full hmap hfull _)

/-! ### INSTALL -/

/-- Settles O29: identifiers are distinct, so the lookup finds the line itself, and its bit is set. -/
theorem installBindsTheLineOfTheIdentifier : Obligations.InstallBindsTheLineOfTheIdentifier := by
  intro s id n hinv h hmap
  have hrule : exec (.install id) s = installRule id s := exec_of_intcRunning h rfl rfl
  refine ⟨(s.bindLine n).respond .ok (BitVec.ofNat 32 n.val), ?_, isBound_bindLine s n, rfl⟩
  rw [hrule]
  simp only [installRule, lineOf_eq hmap hinv.mapDistinct, finish]

/-! ### IRQ_ENTRY -/

theorem dispatchVector_of_line {v : Word} {n : Line} (h : v.toNat / 4 = n.val) (s : State) :
    dispatchVector v s = resolveThen n s dispatchId := by
  rcases dispatchVector_cases v s with ⟨l, hl, hrule⟩ | ⟨hv, -⟩
  · obtain rfl : l = n := Fin.ext (hl.symm.trans h)
    exact hrule
  · omega

theorem dispatchVector_spurious {v : Word} (h : 96 ≤ v.toNat / 4) (s : State) :
    dispatchVector v s =
      .next ((enterCallback .dispatch (.dispatch 0) (s.emit (.log 1))).respond .eSpurious 0) := by
  rcases dispatchVector_cases v s with ⟨l, hl, -⟩ | ⟨-, hrule⟩
  · omega
  · exact hrule

/-- Settles O30: a value names a line or it does not, and either way one identifier is dispatched. -/
theorem everyVectorValueIsDispatchedOnce : Obligations.EveryVectorValueIsDispatchedOnce := by
  intro s v
  refine ⟨fun n hv hroom => ?_, fun hv => ?_⟩
  · obtain ⟨id, r, hr, hgo⟩ := exists_resolvesTo hroom
    refine ⟨id, r, hr, ?_⟩
    rw [dispatchVector_of_line hv, hgo, ← hr.ctx_eq]
    rfl
  · rw [dispatchVector_spurious hv, List.append_cons s.trace]
    rfl

/-- IRQ_ENTRY is one read of VECTOR and the dispatch of its value. -/
theorem exec_irqEntry {s : State} (h : IntcRunning s) (hctx : s.internal.ctx = []) :
    exec .irqEntry s = dispatchVector (readValue .vector s) (afterRead .vector s) := by
  obtain ⟨hrunning, hready⟩ := h
  exact exec_permitted rfl hrunning (by simp [permitted, hready, hctx])

/-- Settles O31: the value read is dispatched once, the table has room for its line, and with a candidate
it is four times a candidate. -/
theorem irqEntryDispatchesExactlyOnce : Obligations.IrqEntryDispatchesExactlyOnce := by
  intro s hinv h hctx
  have hcand : (∃ m, s.envSlot.mmio.isCand m = true) →
      ∃ k, s.envSlot.mmio.isCand k = true ∧ (readValue .vector s).toNat = 4 * k.val :=
    exists_cand_vectorValue
  obtain ⟨hline, hspurious⟩ :=
    everyVectorValueIsDispatchedOnce (afterRead .vector s) (readValue .vector s)
  have hpushed : s.internal.ctx ++ [.dispatch] = [.dispatch] := congrArg (· ++ [.dispatch]) hctx
  rcases Nat.lt_or_ge ((readValue .vector s).toNat / 4) 96 with hv | hv
  · obtain ⟨n, hn⟩ : ∃ n : Line, (readValue .vector s).toNat / 4 = n.val := ⟨⟨_, hv⟩, rfl⟩
    obtain ⟨id, r, hr, hdispatch⟩ := hline n hn (hinv.mapped_or_room n)
    have hempty : r.ctx = [] := hr.ctx_eq.trans hctx
    refine ⟨readValue .vector s, id, _, (exec_irqEntry h hctx).trans hdispatch, rfl, hpushed, rfl,
      envSlots_env 1 s, rfl, rfl, .inl ⟨n, hn, rfl, List.append_assoc .., ?_, fun hsome => ?_⟩⟩
    · rw [← hempty]
      exact hr
    · obtain ⟨k, hk, hvalue⟩ := hcand hsome
      obtain rfl : k = n := Fin.ext (by omega)
      exact hk
  · refine ⟨readValue .vector s, 0, _, (exec_irqEntry h hctx).trans (hspurious hv), rfl, hpushed, rfl,
      envSlots_env 1 s, rfl, rfl, .inr ⟨hv, rfl, rfl, List.append_assoc .., ?_, fun m => ?_⟩⟩
    · exact congrArg (fun c : List Ctx => { s.internal with ctx := c }) hpushed
    · by_contra hm
      obtain ⟨k, -, hvalue⟩ := hcand ⟨m, eq_true_of_ne_false hm⟩
      omega

/-! ### INIT -/

theorem initRule_of_mappable {s : State} {base : Word} (h : mappable s .intc base = true) :
    initRule base s =
      .next ((busWrites initWrites (s.setIntcBase base)).setIntcReady.respond .ok 0) :=
  ((initRule_cases base s).resolve_right fun ⟨hm, _⟩ => Bool.noConfusion (h.symm.trans hm)).2

theorem busWrites_append (ws ws' : List (Reg × Word)) (s : State) :
    busWrites (ws ++ ws') s = busWrites ws' (busWrites ws s) := List.foldl_append

/-! What the writes store: the registers no slot changes are what the writes alone make of them. -/

/-- The registers no environment step writes, and zeros for the others (R206, R212, R213). -/
def MmioRegs.slotFree (m : MmioRegs) : MmioRegs :=
  { MmioRegs.zero with
    enable := m.enable, mask := m.mask, protect := m.protect, nmiType := m.nmiType, tIntv := m.tIntv }

theorem envSlot_slotFree (s : State) : s.envSlot.mmio.slotFree = s.mmio.slotFree := by
  simp only [MmioRegs.slotFree, envSlot_enable, envSlot_mask, envSlot_protect, envSlot_nmiType,
    envSlot_tIntv]

/-- What a write makes of these registers depends on them alone. -/
theorem write_slotFree (m : MmioRegs) (r : Reg) (v : Word) :
    (m.write r v).slotFree = (m.slotFree.write r v).slotFree := by
  cases r with
  | banked k b => cases k <;> rfl
  | _ => rfl

theorem busWrites_slotFree (ws : List (Reg × Word)) : ∀ s : State,
    (busWrites ws s).mmio.slotFree =
      ws.foldl (fun m w => (m.write w.1 w.2).slotFree) s.mmio.slotFree := by
  induction ws with
  | nil => exact fun _ => rfl
  | cons w ws ih =>
    intro s
    rw [busWrites_cons, ih, busWrite_mmio, write_slotFree, envSlot_slotFree]
    rfl

/-- The writes of INIT leave ENABLE, MASK and NMI_TYPE zero, PROTECT 1 and T_INTV as it was (R150). -/
theorem initWrites_slotFree (s : State) : (busWrites initWrites s).mmio.slotFree =
    { MmioRegs.zero with protect := 1, tIntv := s.mmio.tIntv } :=
  busWrites_slotFree initWrites s

/-! What they clear: a line pending at the end was raised after its bank's clearing write. -/

theorem pending_line_of_clear (m : MmioRegs) (n : Line) :
    (m.write (.banked .pending (bankOf n)) 0xFFFFFFFF).pending.line n = false := by
  have hnone : m.pending.get (bankOf n) &&& ~~~(0xFFFFFFFF : Word) = 0 := BitVec.and_zero
  simp only [MmioRegs.write, Banks.line_set, if_true, hnone]
  exact BitVec.getLsbD_zero

/-- A line pending after writes, of which one clears its bank, is raised in a slot after that one. -/
theorem raised_of_busWrites_clear {pre post : List (Reg × Word)} {s : State} {n : Line}
    (h : (busWrites (pre ++ (.banked .pending (bankOf n), 0xFFFFFFFF) :: post) s).mmio.pending.line n =
      true) : RaisedWithin n (s.env.drop (pre.length + 1)) post.length := by
  rw [busWrites_append, busWrites_cons] at h
  set cleared := busWrite (.banked .pending (bankOf n)) 0xFFFFFFFF (busWrites pre s) with hcleared
  have hrun : (accessRun cleared.internal (post.map some) cleared.env
      cleared.board).regs.pending.line n = true := by
    rw [← busWrites_board]
    exact h
  rcases accessRun_pending_of _ n _ _ _ hrun with hpending | hraised
  · exact absurd (hpending.symm.trans (pending_line_of_clear _ n)) (by decide)
  · have henv : cleared.env = s.env.drop (pre.length + 1) := by
      rw [hcleared, busWrite_env, busWrites_env, List.tail_drop]
    rwa [henv, List.length_map] at hraised

theorem bankIndex_bankOf (n : Line) : bankIndex (bankOf n) = n.val / 32 := by
  have := n.isLt
  unfold bankOf
  split_ifs <;> simp only [bankIndex] <;> omega

/-- The write of INIT that clears a bank is the 7th, 8th or 9th. -/
theorem initWrites_split (b : Bank) : initWrites =
    initWrites.take (6 + bankIndex b) ++
      (.banked .pending b, 0xFFFFFFFF) :: initWrites.drop (7 + bankIndex b) := by
  cases b <;> rfl

theorem initWrites_pending {s : State} {n : Line}
    (h : (busWrites initWrites s).mmio.pending.line n = true) :
    ∃ slot ∈ (s.env.take 11).drop (7 + n.val / 32), EnvStep.lineRaise n ∈ slot := by
  rw [initWrites_split (bankOf n)] at h
  have hraised := raised_of_busWrites_clear h
  have hbank := bankIndex_le (bankOf n)
  have hbefore : (initWrites.take (6 + bankIndex (bankOf n))).length + 1 = 7 + n.val / 32 := by
    rw [List.length_take, show initWrites.length = 11 from rfl, ← bankIndex_bankOf]
    omega
  have hafter : (initWrites.drop (7 + bankIndex (bankOf n))).length = 11 - (7 + n.val / 32) := by
    rw [List.length_drop, bankIndex_bankOf]
    rfl
  rw [hbefore, hafter] at hraised
  rw [List.drop_take]
  exact hraised

/-- INIT leaves the timer to its eleven slots, which do not look at INTC_BASE (R78, R211). -/
theorem initWrites_sameTimer (s : State) (base : Word) :
    (busWrites initWrites (s.setIntcBase base)).mmio.sameTimer (s.envSlots 11).mmio := by
  have hboard : (busWrites initWrites (s.setIntcBase base)).board =
      accessRun s.internal (initWrites.map some) s.env s.board :=
    (busWrites_board ..).trans
      (accessRun_congr (r := (s.setIntcBase base).internal) (r' := s.internal) rfl rfl ..)
  have hwrite : ∀ w, some w ∈ initWrites.map some →
      ∀ m : MmioRegs, (m.write w.1 w.2).sameTimer m :=
    fun w hw => write_sameTimer (i := .init base) nofun nofun nofun
      ((List.mem_map_of_injective (Option.some_injective _)).mp hw)
  have hrun := accessRun_sameTimer hwrite s s.board ⟨rfl, rfl, rfl, rfl⟩
  rw [← hboard] at hrun
  exact hrun

/-- Settles O25: the eleven writes after the base is latched, by what they store, what they clear and
what they leave to the slots. -/
theorem initResetsTheController : Obligations.InitResetsTheController := by
  intro s base hrunning hready hctx hmap
  have hexec := (exec_init hrunning hready hctx base).trans (initRule_of_mappable hmap)
  have hstored := initWrites_slotFree (s.setIntcBase base)
  obtain ⟨hctl, -, hcnt, hpend⟩ := initWrites_sameTimer s base
  refine ⟨_, hexec, congrArg (·.enable) hstored, congrArg (·.mask) hstored,
    congrArg (·.protect) hstored, congrArg (·.nmiType) hstored, fun n hn => initWrites_pending hn,
    hctl, congrArg (·.tIntv) hstored, hcnt, hpend, ?_, busWrites_trace initWrites (s.setIntcBase base),
    rfl, rfl, ?_, rfl, rfl, rfl⟩
  · exact congrArg (fun r : InternalRegs => { r with intcReady := true })
      (busWrites_internal initWrites (s.setIntcBase base))
  · exact busWrites_env initWrites (s.setIntcBase base)

end Sys2Proof.Machine
end

section
/-!
PROOFS of the timer mode commands: what TINIT latches (R165, R185, R186), and the transitions of SET_MODE,
each of which ends in one read-modify-write of T_CTL (R166 to R169).
-/
namespace Sys2Proof.Machine

/-! ### TINIT -/

theorem tinitRule_of_mappable {s : State} {line : BitVec 8} {base : Word}
    (h : mappable s .tmr base = true) (hline : line.toNat ≤ 95) :
    tinitRule line base s =
      .next ((s.registerTimer line base).respond .ok (BitVec.ofNat 32 (multiplier s.cfg))) := by
  rcases tinitRule_cases line base s with ⟨-, -, hrule⟩ | ⟨-, hge, -⟩ | ⟨hm, -⟩
  · exact hrule
  · omega
  · exact Bool.noConfusion (h.symm.trans hm)

/-- MULT holds the multiplier of an admissible configuration (R185). -/
theorem toNat_ofNat_multiplier {p : Params} (h : p.Admissible) :
    (BitVec.ofNat 32 (multiplier p)).toNat = multiplier p :=
  (BitVec.toNat_ofNat ..).trans (Nat.mod_eq_of_lt (multiplier_lt h))

/-- TIMER_LINE, of seven bits, holds every line (R40). -/
theorem toNat_setWidth_line {line : BitVec 8} (h : line.toNat ≤ 95) :
    (line.setWidth 7).toNat = line.toNat :=
  (BitVec.toNat_setWidth ..).trans (Nat.mod_eq_of_lt (by omega))

/-- Settles O33: the prologue and the checks let TINIT register the timer; the multiplier, the line and
the bounds that fit are latched as the numbers they are. -/
theorem tinitLatchesTheTimerState : Obligations.TinitLatchesTheTimerState := by
  intro s line base hadm hrunning hready hctx hmap hline
  have hexec := (exec_tinit hrunning hready hctx line base).trans (tinitRule_of_mappable hmap hline)
  have hmult := toNat_ofNat_multiplier hadm
  exact ⟨_, multiplier s.cfg, hexec, rfl, rfl, toNat_setWidth_line hline, hmult, toNat_latchedBound,
    toNat_latchedBound, rfl, rfl, rfl, hmult, rfl, rfl, rfl, rfl, rfl, rfl⟩

/-! ### SET_MODE -/

/-- SET_MODE runs the transition of its request (R166). -/
theorem exec_setMode {s : State} (h : TmrRunning s) (m : ModeReq) :
    exec (.setMode m) s = .next ((modeTransition m s).respond .ok 0) := by
  obtain ⟨hrunning, hready⟩ := h
  exact exec_permitted rfl hrunning hready

/-- `t` is `s` after a read of T_CTL and a write of what `f` makes of it, a slot before each, and with
`mode` recorded; every other register is as the two slots leave it (R167 to R169). -/
def CtlTransition (f : Word → Word) (mode : TimerMode) (s t : State) : Prop :=
  t.internal = { s.internal with mode := mode } ∧ Responded s 2 0 0 t ∧
  t.mmio = { (s.envSlots 2).mmio with tCtl := f s.envSlot.mmio.tCtl } ∧
  t.trace = s.trace ++ [.busRead (s.addrOf .tCtl) s.envSlot.mmio.tCtl,
    .busWrite (s.addrOf .tCtl) (f s.envSlot.mmio.tCtl)]

theorem readModifyWrite_ctlTransition (f : Word → Word) (mode : TimerMode) (s : State) :
    CtlTransition f mode s (((readModifyWrite .tCtl f s).setTimerMode mode).respond .ok 0) :=
  ⟨rfl, ⟨rfl, rfl, envSlots_env 2 s, rfl, rfl, rfl⟩, rfl, readModifyWrite_trace .tCtl f s⟩

/-- ONESHOT sets SINGLE (R168). -/
theorem toOneShot_ctlTransition (s : State) :
    CtlTransition (· ||| ctlSingle) .oneShot s ((toOneShot s).respond .ok 0) :=
  readModifyWrite_ctlTransition ..

/-- DISABLED clears EN (R169). -/
theorem toDisabled_ctlTransition (s : State) :
    CtlTransition (· &&& ~~~ctlEn) .disabled s ((toDisabled s).respond .ok 0) :=
  readModifyWrite_ctlTransition ..

/-- PERIODIC clears SINGLE and sets EN after its write of the interval (R167, R171). -/
theorem toPeriodic_ctlTransition (s : State) :
    CtlTransition (fun c => (c &&& ~~~ctlSingle) ||| ctlEn) .periodic
      (busWrite .tIntv (BitVec.ofNat 32 (interval s.cfg)) s) ((toPeriodic s).respond .ok 0) :=
  readModifyWrite_ctlTransition ..

/-- Settles O34: a request of ONESHOT, DISABLED or UNUSED is one transition of T_CTL, and PERIODIC is one
after a write of T_INTV, whose slot and access come before the others. -/
theorem setModeRunsTheRequestedTransition : Obligations.SetModeRunsTheRequestedTransition := by
  intro s h
  refine ⟨?periodic, ⟨_, exec_setMode h .oneshot, toOneShot_ctlTransition s⟩, ?disabled⟩
  case periodic =>
    obtain ⟨hinternal, -, hmmio, htrace⟩ := toPeriodic_ctlTransition s
    refine ⟨_, exec_setMode h .periodic, hinternal, ?_, ?_⟩
    · exact ⟨rfl, rfl, envSlots_env 3 s, rfl, rfl, rfl⟩
    · rintro _ rfl _ rfl
      exact ⟨hmmio, htrace.trans (List.append_assoc ..)⟩
  case disabled =>
    rintro m (rfl | rfl)
    · exact ⟨_, exec_setMode h .disabled, toDisabled_ctlTransition s⟩
    · exact ⟨_, exec_setMode h .unused, toDisabled_ctlTransition s⟩

end Sys2Proof.Machine
end

section
/-!
PROOFS of the timer event commands: SET_NEXT_EVENT is one write of T_CNT, then a read-modify-write of T_CTL
(R175, R176), the last request is the one that counts (R180), and TIMER_IRQ acknowledges before it calls
back (R177).
-/
namespace Sys2Proof.Machine

/-! ### SET_NEXT_EVENT -/

/-- SET_NEXT_EVENT runs its rule (R175, R202). -/
theorem exec_setNextEvent {s : State} (h : TmrRunning s) (d : Word) :
    exec (.setNextEvent d) s = setNextEventRule d s := by
  obtain ⟨hrunning, hready⟩ := h
  exact exec_permitted rfl hrunning hready

theorem setNextEventRule_of_le {d : Word} (hmin : 1 ≤ d.toNat) (hmax : d.toNat ≤ 255) (s : State) :
    setNextEventRule d s = .next ((programNextEvent d s).respond .ok 0) := by
  rcases setNextEventRule_cases d s with ⟨-, -, hrule⟩ | ⟨hout, -⟩
  · exact hrule
  · omega

theorem setNextEventRule_outside {d : Word} (hout : d.toNat = 0 ∨ 256 ≤ d.toNat) (s : State) :
    setNextEventRule d s = .fault (.contract .setNextEvent d) := by
  rcases setNextEventRule_cases d s with ⟨hmin, hmax, -⟩ | ⟨-, hrule⟩
  · omega
  · exact hrule

/-- After the write of the count SET_NEXT_EVENT sets RELOAD and EN, and leaves `mode` (R175). -/
theorem programNextEvent_ctlTransition (d : Word) (s : State) :
    CtlTransition (· ||| 0x03#32) s.internal.mode (busWrite .tCnt d s)
      ((programNextEvent d s).respond .ok 0) := by
  have hbits : (fun c : Word => c ||| ctlReload ||| ctlEn) = (· ||| 0x03#32) :=
    funext fun c => BitVec.or_assoc c ctlReload ctlEn
  rw [programNextEvent, hbits]
  exact readModifyWrite_ctlTransition (· ||| 0x03#32) s.internal.mode (busWrite .tCnt d s)

/-- Settles O37: the rule of an operand in range is the write of T_CNT and the transition of T_CTL after
it; any other operand is the contract fault. -/
theorem setNextEventArmsTheTimer : Obligations.SetNextEventArmsTheTimer := by
  intro s d h
  rw [exec_setNextEvent h]
  refine ⟨fun hmin hmax => ?_, fun hout => setNextEventRule_outside hout s⟩
  obtain ⟨hinternal, -, hmmio, htrace⟩ := programNextEvent_ctlTransition d s
  refine ⟨_, setNextEventRule_of_le hmin hmax s, hinternal, ?_, ?_⟩
  · exact ⟨rfl, rfl, envSlots_env 3 s, rfl, rfl, rfl⟩
  · rintro _ rfl
    exact ⟨hmmio, htrace.trans (List.append_assoc ..)⟩

/-- Slots without timer steps leave the timer's registers alone. -/
theorem envSlots_sameTimer_of_quiet (k : Nat) : ∀ {s : State},
    (∀ slot ∈ s.env, ∀ e ∈ slot, e.isTimer = false) → (s.envSlots k).mmio.sameTimer s.mmio := by
  induction k with
  | zero => exact fun _ => ⟨rfl, rfl, rfl, rfl⟩
  | succ k ih =>
    intro s hquiet
    have hhead : ∀ e ∈ s.env.headD [], e.isTimer = false := by
      cases henv : s.env with
      | nil => exact nofun
      | cons slot rest => exact hquiet slot (by simp [henv])
    have hlater : (s.envSlot.envSlots k).mmio.sameTimer s.envSlot.mmio :=
      ih fun slot hslot => hquiet slot (List.mem_of_mem_tail hslot)
    exact hlater.trans (envRun_timer_of_quiet s.internal _ s.mmio hhead)

/-- SET_NEXT_EVENT leaves EN set, and the count it wrote where no timer step is scheduled after its first
access (R180). -/
theorem programNextEvent_armed {d : Word} {s : State}
    (hquiet : ∀ slot ∈ s.env.tail, ∀ e ∈ slot, e.isTimer = false) :
    (programNextEvent d s).mmio.tCnt = d ∧ (programNextEvent d s).mmio.en = true := by
  obtain ⟨-, -, hmmio, -⟩ := programNextEvent_ctlTransition d s
  rw [respond_mmio] at hmmio
  obtain ⟨-, -, hcnt, -⟩ := envSlots_sameTimer_of_quiet (s := busWrite .tCnt d s) 2 hquiet
  rw [hmmio]
  exact ⟨hcnt, by simp [MmioRegs.en]⟩

/-- Settles O38: the first request leaves the core as it was and three slots fewer, so the second runs and
has the fourth for its write of T_CNT. -/
theorem secondEventOverwritesTheFirst : Obligations.SecondEventOverwritesTheFirst := by
  intro s d1 d2 h hmin1 hmax1 hmin2 hmax2 hquiet
  obtain ⟨s', hfirst, hinternal, ⟨-, -, henv, -⟩, -⟩ :=
    (setNextEventArmsTheTimer s d1 h).1 hmin1 hmax1
  have h' : TmrRunning s' := by rwa [TmrRunning, hinternal]
  have hquiet' : ∀ slot ∈ s'.env.tail, ∀ e ∈ slot, e.isTimer = false := by
    rwa [henv, List.tail_drop]
  exact ⟨s', _, hfirst, (exec_setNextEvent h' d2).trans (setNextEventRule_of_le hmin2 hmax2 s'),
    programNextEvent_armed hquiet'⟩

/-! ### TIMER_IRQ -/

/-- Writing 1 to T_IRQST clears TPEND and nothing else (R77). -/
theorem write_tIrqst_one (m : MmioRegs) : m.write .tIrqst 0x00000001 = { m with tpend := false } :=
  congrArg (fun b : Bool => { m with tpend := b }) (Bool.and_false m.tpend)

/-- Settles O39: the rule is the acknowledging write and then the entry of the callback. -/
theorem timerIrqAcknowledgesThenCallsBack : Obligations.TimerIrqAcknowledgesThenCallsBack := by
  rintro s ⟨hrunning, hready⟩ htick
  have hrule : exec .timerIrq s = timerIrqRule s :=
    exec_permitted rfl hrunning (by simp [permitted, hready, htick])
  have htrace : s.trace ++ [.busWrite (s.addrOf .tIrqst) 1, .tickCallback 0] =
      (s.trace ++ [.busWrite (s.addrOf .tIrqst) 1]) ++ [.tickCallback 0] := List.append_cons ..
  rw [hrule, htrace, ← write_tIrqst_one]
  rfl

end Sys2Proof.Machine
end

section
/-!
PROOFS of the nanosecond converter: the values of NS2T, T2NS, GETMIN and GETMAX (R186 to R190), and the two
conversions as a Galois connection, from which monotonicity, the exact round trip and the safety of
validated deltas follow (R191).
-/
namespace Sys2Proof.Machine

/-! ### The conversions -/

/-- The product of two words fits 64 bits, so NS2T loses nothing before its shift (R186). -/
theorem toNat_ns2t (mult x : Word) : (ns2t mult x).toNat = x.toNat * mult.toNat / 2 ^ 32 := by
  have hlt : x.toNat * mult.toNat < 2 ^ 32 * 2 ^ 32 := Nat.mul_lt_mul'' x.isLt mult.isLt
  have hproduct : (x.setWidth 64 * mult.setWidth 64).toNat = x.toNat * mult.toNat := by
    rw [BitVec.toNat_mul, BitVec.toNat_setWidth_of_le (by decide),
      BitVec.toNat_setWidth_of_le (by decide)]
    exact Nat.mod_eq_of_lt hlt
  rw [ns2t, Config.shift, BitVec.toNat_setWidth, BitVec.toNat_ushiftRight,
    Nat.shiftRight_eq_div_pow, hproduct]
  exact Nat.mod_eq_of_lt (Nat.div_lt_of_lt_mul hlt)

theorem toNat_saturate (r : Nat) : (saturate r).toNat = min r (2 ^ 32 - 1) := by
  unfold saturate
  split
  · rw [BitVec.toNat_ofNat]
    omega
  · exact (Nat.min_eq_right (by omega)).symm

/-- T2NS is ceiling division: the least number of nanoseconds that makes up `t` ticks (R186). -/
theorem t2ns_le_iff {mult : Nat} (hmult : 0 < mult) {t x : Nat} :
    t2ns mult t ≤ x ↔ t * 2 ^ 32 ≤ mult * x := by
  rw [t2ns, Config.shift, ← Nat.ceilDiv_eq_add_pred_div]
  exact ceilDiv_le_iff_le_mul hmult

/-- The two conversions are a Galois connection (R186). -/
theorem le_ns2t_iff {mult : Word} (hmult : mult ≠ 0) {t : Nat} {x : Word} :
    t ≤ (ns2t mult x).toNat ↔ t2ns mult.toNat t ≤ x.toNat := by
  have hpos : 0 < mult.toNat := by bv_omega
  rw [toNat_ns2t, Nat.le_div_iff_mul_le (by decide), t2ns_le_iff hpos, Nat.mul_comm x.toNat]

theorem ns2t_lt_iff {mult : Word} (hmult : mult ≠ 0) {t : Nat} {x : Word} :
    (ns2t mult x).toNat < t ↔ x.toNat < t2ns mult.toNat t :=
  lt_iff_lt_of_le_iff_le (le_ns2t_iff hmult)

theorem t2ns_mono (mult : Nat) {a b : Nat} (h : a ≤ b) : t2ns mult a ≤ t2ns mult b := by
  unfold t2ns
  gcongr

theorem ns2t_mono {mult : Word} (hmult : mult ≠ 0) {x y : Word} (h : x ≤ y) :
    ns2t mult x ≤ ns2t mult y :=
  (le_ns2t_iff hmult).mpr (((le_ns2t_iff hmult).mp le_rfl).trans h)

/-- A tick is longer than a nanosecond (R185), so one more tick is at least one nanosecond more. -/
theorem t2ns_lt_succ {mult : Word} (hmult : mult ≠ 0) (t : Nat) :
    t2ns mult.toNat t < t2ns mult.toNat (t + 1) := by
  have hpos : 0 < mult.toNat := by bv_omega
  have hlt : mult.toNat < 2 ^ 32 := mult.isLt
  calc (t * 2 ^ 32 + mult.toNat - 1) / mult.toNat
      < (t * 2 ^ 32 + mult.toNat - 1 + mult.toNat) / mult.toNat := by
        rw [Nat.add_div_right _ hpos]
        exact Nat.lt_succ_self _
    _ ≤ ((t + 1) * 2 ^ 32 + mult.toNat - 1) / mult.toNat := Nat.div_le_div_right (by omega)

/-- The nanoseconds that convert to `t` ticks begin at T2NS of `t` and end before T2NS of `t + 1`. -/
theorem toNat_ns2t_eq_iff {mult : Word} (hmult : mult ≠ 0) {t : Nat} {x : Word} :
    (ns2t mult x).toNat = t ↔
      t2ns mult.toNat t ≤ x.toNat ∧ x.toNat < t2ns mult.toNat (t + 1) := by
  rw [← le_ns2t_iff hmult, ← ns2t_lt_iff hmult]
  omega

theorem toNat_ns2t_t2ns {mult : Word} (hmult : mult ≠ 0) {t : Nat}
    (hfits : t2ns mult.toNat t < 2 ^ 32) :
    (ns2t mult (BitVec.ofNat 32 (t2ns mult.toNat t))).toNat = t := by
  rw [toNat_ns2t_eq_iff hmult, BitVec.toNat_ofNat, Nat.mod_eq_of_lt hfits]
  exact ⟨le_rfl, t2ns_lt_succ hmult t⟩

/-- One nanosecond before the next tick begins, the tick still runs. -/
theorem toNat_ns2t_t2ns_pred {mult : Word} (hmult : mult ≠ 0) {t : Nat}
    (hfits : t2ns mult.toNat (t + 1) < 2 ^ 32) :
    (ns2t mult (BitVec.ofNat 32 (t2ns mult.toNat (t + 1) - 1))).toNat = t := by
  have hsucc := t2ns_lt_succ hmult t
  rw [toNat_ns2t_eq_iff hmult, BitVec.toNat_ofNat, Nat.mod_eq_of_lt (by omega)]
  omega

/-- Settles O43: monotonicity is the Galois connection's, and each round trip places its nanosecond
in the interval of its tick. -/
theorem tickRoundTripIsExact : Obligations.TickRoundTripIsExact := by
  intro mult hmult
  refine ⟨fun _ _ => ns2t_mono hmult, fun _ _ => t2ns_mono mult.toNat, fun t hfits => ⟨?_, ?_⟩⟩
  · exact BitVec.eq_of_toNat_eq (toNat_ns2t_t2ns hmult hfits)
  · intro hpos
    obtain ⟨k, hk⟩ := Nat.exists_eq_add_of_le' hpos
    rw [hk] at hfits ⊢
    apply BitVec.eq_of_toNat_eq
    rw [toNat_ns2t_t2ns_pred hmult hfits]
    bv_omega

/-! ### The commands -/

/-- A command of the converter answers what its rule computes of the core's own state, and changes nothing
but the response. -/
theorem exec_compute {s : State} (h : TmrRunning s) (i : Instr) (f : InternalRegs → Word)
    (hw : i.wellFormed = true) (hp : permitted i s = s.internal.tmrReady)
    (hrule : ruleOf i = computeRule f) :
    exec i s = .next { s with res := f s.internal, st := 0 } := by
  obtain ⟨hrunning, hready⟩ := h
  rw [exec_permitted hw hrunning (hp.trans hready), hrule]
  rfl

theorem exec_ns2t {s : State} (h : TmrRunning s) (x : Word) :
    exec (.ns2t x) s = .next { s with res := ns2t s.internal.mult x, st := 0 } :=
  exec_compute h (.ns2t x) (fun r => ns2t r.mult x) rfl rfl rfl

theorem exec_t2ns {s : State} (h : TmrRunning s) (t : Word) :
    exec (.t2ns t) s =
      .next { s with res := saturate (t2ns s.internal.mult.toNat t.toNat), st := 0 } :=
  exec_compute h (.t2ns t) (fun r => saturate (t2ns r.mult.toNat t.toNat)) rfl rfl rfl

/-- Settles O40: the command answers `ns2t`, which is the rounded product. -/
theorem ns2tMultipliesAndShifts : Obligations.Ns2tMultipliesAndShifts :=
  fun _ x h => ⟨_, toNat_ns2t _ x, exec_ns2t h x⟩

/-- Settles O41: the command answers `t2ns`, cut off where it outgrows a word. -/
theorem t2nsRoundsUpAndSaturates : Obligations.T2nsRoundsUpAndSaturates :=
  fun _ t h _ => ⟨_, toNat_saturate _, exec_t2ns h t⟩

/-- Settles O42: each command's rule is the latched bound. -/
theorem boundsAreReadBack : Obligations.BoundsAreReadBack :=
  fun _ h => ⟨exec_compute h .getmin InternalRegs.minNs rfl rfl rfl,
    exec_compute h .getmax InternalRegs.maxNs rfl rfl rfl⟩

/-! ### Validated deltas -/

/-- The bounds TINIT latched are T2NS of 1 and of 255 ticks, where the greater fits (R165, R191). -/
theorem Inv.bounds {s : State} (h : Inv s) (hready : s.internal.tmrReady = true)
    (hfits : t2ns s.internal.mult.toNat 255 < 2 ^ 32) :
    s.internal.minNs.toNat = t2ns s.internal.mult.toNat 1 ∧
    s.internal.maxNs.toNat = t2ns s.internal.mult.toNat 255 := by
  have hmin : t2ns s.internal.mult.toNat 1 < 2 ^ 32 := (t2ns_mono _ (by decide)).trans_lt hfits
  rw [h.multOk hready] at hmin hfits ⊢
  exact ⟨h.minNsOk hready hmin, h.maxNsOk hready hfits⟩

/-- After TINIT the multiplier is at least 1 (R185). -/
theorem Inv.mult_ne_zero {s : State} (h : Inv s) (hready : s.internal.tmrReady = true) :
    s.internal.mult ≠ 0 := by
  have hmult := h.multOk hready
  have hpos := multiplier_pos h.admissible
  bv_omega

/-- Settles O44: a delta from MIN_NS to MAX_NS lies between the first nanosecond of tick 1 and that of
tick 255, so it converts into the range of SET_NEXT_EVENT. -/
theorem validatedDeltasAreAlwaysAccepted : Obligations.ValidatedDeltasAreAlwaysAccepted := by
  intro s x hinv h hfits
  have ⟨_, hready⟩ := h
  have hmult := hinv.mult_ne_zero hready
  obtain ⟨hgetmin, hgetmax⟩ := boundsAreReadBack s h
  obtain ⟨hminNs, hmaxNs⟩ := hinv.bounds hready hfits
  refine ⟨_, _, hgetmin, hgetmax, fun hmin hmax => ?_⟩
  have hge : 1 ≤ (ns2t s.internal.mult x).toNat := (le_ns2t_iff hmult).mpr (hminNs ▸ hmin)
  have hle : (ns2t s.internal.mult x).toNat ≤ 255 :=
    Nat.le_of_lt_succ
      ((ns2t_lt_iff hmult).mpr (lt_of_le_of_lt (hmaxNs ▸ hmax) (t2ns_lt_succ hmult 255)))
  exact ⟨_, _, exec_ns2t h x, hge, hle,
    (exec_setNextEvent h _).trans (setNextEventRule_of_le hge hle _), rfl⟩

end Sys2Proof.Machine
end

section
/-!
PROOFS of the exceptions' statements: the prologue and the contract (R202 to R204), the steps of the
environment and of the timer hardware (R206, R208, R212 to R214), and the expiry of an armed timer under
weak fairness (R215).
-/
namespace Sys2Proof.Machine

/-! ### The step and the prologue -/

/-- Settles O5: the two branches of `step`. -/
theorem stepRunsTheDecodedCommand : Obligations.StepRunsTheDecodedCommand :=
  ⟨fun _ _ _ _ => step_command, fun _ => step_idle⟩

theorem permitted_congr {s t : State} (h : s.internal = t.internal) (i : Instr) :
    permitted i s = permitted i t := by
  simp only [permitted, h]

/-- Settles O6: the decoder answers before the prologue, and the slot before the command touches nothing
the prologue looks at. -/
theorem prologueChecksInOrder : Obligations.PrologueChecksInOrder := by
  intro s w rest hport
  refine ⟨step_illegal hport, fun i hd => ?_⟩
  have hwf : i.wellFormed = true := decode_wellFormed hd
  have hperm : permitted i { s.envSlot with port := rest } = permitted i s := permitted_congr rfl i
  rw [step_command hport hd]
  exact ⟨fun hhalt => exec_halted hwf hhalt,
    fun hrun hrefused => exec_refused hwf hrun (hperm.trans hrefused)⟩

/-- Settles O7, row by row of the table. -/
theorem permittedIsTheTableOfR203 : Obligations.PermittedIsTheTableOfR203 := by
  intro s
  refine ⟨fun _ => ?_, fun _ _ => ?_, fun i hi => ?_, ?_, ?_, fun i hi => ?_, ?_, ?_⟩
  · simp [permitted]
  · simp [permitted]
  · have hrow : permitted i s = s.internal.intcReady := by
      rcases hi with hi | ⟨k, b, rfl | ⟨v, rfl⟩⟩ | ⟨g, v, rfl⟩ |
        ⟨n, rfl | rfl | rfl | rfl | rfl | rfl | rfl | rfl⟩
      case inl =>
        simp only [List.mem_cons, List.not_mem_nil, or_false] at hi
        rcases hi with rfl | rfl | rfl <;> rfl
      all_goals rfl
    rw [hrow]
  · simp [permitted]
  · simp [permitted]
  · have hrow : permitted i s = s.internal.tmrReady := by
      rcases hi with hi | ⟨n, rfl | rfl | rfl⟩ | ⟨m, rfl⟩
      case inl =>
        simp only [List.mem_cons, List.not_mem_nil, or_false] at hi
        rcases hi with rfl | rfl <;> rfl
      all_goals rfl
    rw [hrow]
  · simp [permitted]
  · simp [permitted]

/-! ### Contract violations -/

theorem byLine_outside {n : Word} (h : 96 ≤ n.toNat) (cmd : ContractCommand)
    (op : Line → State → State) (s : State) : byLine cmd n op s = .fault (.contract cmd n) := by
  simp only [byLine, line?_eq_none.mpr h, contractFault]

theorem resolveRule_outside {n : Word} (h : 96 ≤ n.toNat) (s : State) :
    resolveRule n s = .fault (.contract .resolve n) := by
  simp only [resolveRule, line?_eq_none.mpr h, contractFault]

/-- Settles O8: the prologue lets the command through, and its rule rejects the operand. -/
theorem contractViolationsFault : Obligations.ContractViolationsFault := by
  refine ⟨fun s n h hn => ?_, fun s d h hd => ?_⟩
  · exact ⟨(exec_of_intcRunning h rfl rfl).trans (byLine_outside hn _ _ s),
      (exec_of_intcRunning h rfl rfl).trans (byLine_outside hn _ _ s),
      (exec_of_intcRunning h rfl rfl).trans (byLine_outside hn _ _ s),
      (exec_of_intcRunning h rfl rfl).trans (resolveRule_outside hn s)⟩
  · exact (exec_setNextEvent h d).trans (setNextEventRule_outside hd s)

/-- The contract violations: a command with an operand outside its contract, and its fault (R204). -/
inductive Violation : Instr → Fault → Prop where
  | ack (n : Word) (h : 96 ≤ n.toNat) : Violation (.ack n) (.contract .ack n)
  | mask (n : Word) (h : 96 ≤ n.toNat) : Violation (.mask n) (.contract .mask n)
  | unmask (n : Word) (h : 96 ≤ n.toNat) : Violation (.unmask n) (.contract .unmask n)
  | resolve (n : Word) (h : 96 ≤ n.toNat) : Violation (.resolve n) (.contract .resolve n)
  | setNextEvent (d : Word) (h : d.toNat = 0 ∨ 256 ≤ d.toNat) :
      Violation (.setNextEvent d) (.contract .setNextEvent d)

/-- The outcome is an answer, or the fault of a contract violation. -/
def AnswersOrViolates (i : Instr) (o : Out) : Prop :=
  (∃ t, o = .next t) ∨ ∃ f, o = .fault f ∧ Violation i f

theorem AnswersOrViolates.of_next {i : Instr} {o : Out} {t : State} (h : o = .next t) :
    AnswersOrViolates i o := .inl ⟨t, h⟩

theorem answersOrViolates_byLine {i : Instr} {cmd : ContractCommand} {n : Word}
    (h : 96 ≤ n.toNat → Violation i (.contract cmd n)) (op : Line → State → State) (s : State) :
    AnswersOrViolates i (byLine cmd n op s) := by
  rcases byLine_cases cmd n op s with ⟨_, -, hnext⟩ | ⟨hn, hfault⟩
  · exact .of_next hnext
  · exact .inr ⟨_, hfault, h hn⟩

theorem answersOrViolates_byId (i : Instr) (id : Word) (op : Line → State → State) (s : State) :
    AnswersOrViolates i (byId id op s) := by
  rcases byId_cases id op s with ⟨_, -, -, hnext⟩ | hnext
  · exact .of_next hnext
  · exact .of_next hnext

theorem AnswersOrViolates.of_resolve {i : Instr} {o : Out} {n : Line} {s : State}
    {go : Word → State → Out} (ho : o = resolveThen n s go) (hgo : ∀ id s, ∃ t, go id s = .next t) :
    AnswersOrViolates i o := by
  rw [ho]
  rcases resolveThen_cases n s go with ⟨id, -, h⟩ | ⟨-, -, h⟩ | ⟨-, -, h⟩
  · exact h ▸ .inl (hgo id s)
  · exact h ▸ .inl (hgo _ _)
  · exact .of_next h

/-- Every rule answers or faults on its own contract. -/
theorem ruleOf_answersOrViolates (i : Instr) (s : State) : AnswersOrViolates i (ruleOf i s) := by
  cases i with
  | ack n => exact answersOrViolates_byLine (.ack n) _ s
  | mask n => exact answersOrViolates_byLine (.mask n) _ s
  | unmask n => exact answersOrViolates_byLine (.unmask n) _ s
  | lack id => exact answersOrViolates_byId _ id _ s
  | lmask id => exact answersOrViolates_byId _ id _ s
  | lunmask id => exact answersOrViolates_byId _ id _ s
  | init base =>
    rcases initRule_cases base s with ⟨-, h⟩ | ⟨-, h⟩
    · exact .of_next h
    · exact .of_next h
  | resolve n =>
    rcases resolveRule_cases n s with ⟨l, -, h⟩ | ⟨hn, h⟩
    · exact .of_resolve h fun _ _ => ⟨_, rfl⟩
    · exact .inr ⟨_, h, .resolve n hn⟩
  | install id =>
    rcases installRule_cases id s with ⟨_, -, h⟩ | h
    · exact .of_next h
    · exact .of_next h
  | irqEntry =>
    rcases dispatchVector_cases (readValue .vector s) (afterRead .vector s) with ⟨l, -, h⟩ | ⟨-, h⟩
    · exact .of_resolve h fun _ _ => ⟨_, rfl⟩
    · exact .of_next h
  | tinit line base =>
    rcases tinitRule_cases line base s with ⟨-, -, h⟩ | ⟨-, -, h⟩ | ⟨-, h⟩
    · exact .of_next h
    · exact .of_next h
    · exact .of_next h
  | setNextEvent d =>
    rcases setNextEventRule_cases d s with ⟨-, -, h⟩ | ⟨hd, h⟩
    · exact .of_next h
    · exact .inr ⟨_, h, .setNextEvent d hd⟩
  | wrg g v => cases g <;> exact .of_next rfl
  | _ => exact .of_next rfl

theorem exec_answersOrViolates (i : Instr) (s : State) : AnswersOrViolates i (exec i s) := by
  rcases exec_cases i s with ⟨_, _, -, h⟩ | ⟨-, -, -, h⟩
  · exact .of_next h
  · exact h ▸ ruleOf_answersOrViolates i s

/-- Settles O9: a command answers or faults on its contract, and the list of violations is R204's. -/
theorem onlyContractViolationsStop : Obligations.OnlyContractViolationsStop := by
  intro i s
  rcases exec_answersOrViolates i s with ⟨t, h⟩ | ⟨f, h, hviolation⟩
  · rw [h]
    exact ⟨nofun, nofun⟩
  · rw [h]
    refine ⟨nofun, fun _ hf => ?_⟩
    cases hf
    cases hviolation with
    | ack n hn => exact ⟨n, .inl ⟨hn, .inl ⟨rfl, rfl⟩⟩⟩
    | mask n hn => exact ⟨n, .inl ⟨hn, .inr (.inl ⟨rfl, rfl⟩)⟩⟩
    | unmask n hn => exact ⟨n, .inl ⟨hn, .inr (.inr (.inl ⟨rfl, rfl⟩))⟩⟩
    | resolve n hn => exact ⟨n, .inl ⟨hn, .inr (.inr (.inr ⟨rfl, rfl⟩))⟩⟩
    | setNextEvent d hd => exact ⟨d, .inr ⟨hd, rfl, rfl⟩⟩

/-! ### Line raises -/

/-- A raise is refused to the timer's own line alone, before the timer has expired (R214). -/
theorem envEnabled_lineRaise {r : InternalRegs} {m : MmioRegs} {n : Line} :
    envEnabled r m (.lineRaise n) = true ↔
      (r.tmrReady = true → r.timerLine.toNat = n.val → m.tpend = true) := by
  have hcomm : n.val = r.timerLine.toNat ↔ r.timerLine.toNat = n.val := eq_comm
  cases htmr : r.tmrReady <;> cases hpend : m.tpend <;> simp [envEnabled, htmr, hpend, hcomm]

theorem envApply_enabled {r : InternalRegs} {m : MmioRegs} {e : EnvStep}
    (h : envEnabled r m e = true) : envApply r m e = envEffect m e := if_pos h

theorem envApply_disabled {r : InternalRegs} {m : MmioRegs} {e : EnvStep}
    (h : envEnabled r m e = false) : envApply r m e = m := by simp [envApply, h]

/-- Settles O45: an enabled raise is `MmioRegs.raise`. -/
theorem lineRaiseLatchesItsLine : Obligations.LineRaiseLatchesItsLine := by
  intro r m n h
  have henabled := envEnabled_lineRaise.mpr h
  rw [envApply_enabled henabled]
  exact ⟨henabled, raise_line m n, rfl⟩

/-- Settles O46: the one case in which a raise is not enabled. -/
theorem timerLineWaitsForExpiry : Obligations.TimerLineWaitsForExpiry := by
  intro r m n hready hline hpend
  have hdisabled : envEnabled r m (.lineRaise n) = false := by
    rw [Bool.eq_false_iff, Ne, envEnabled_lineRaise, hpend]
    exact fun h => Bool.false_ne_true (h hready hline)
  exact ⟨hdisabled, envApply_disabled hdisabled⟩

/-- Settles O50: `irq_out` is that the candidate set is not empty. -/
theorem irqOutIffSomeCandidate : Obligations.IrqOutIffSomeCandidate := by
  intro s
  rw [State.irqOut, Bool.not_eq_true', List.isEmpty_eq_false_iff_exists_mem]
  exact exists_congr fun n => mem_cand.trans isCand_iff

/-! ### The timer hardware -/

theorem canTick_iff {m : MmioRegs} : m.canTick = true ↔ m.en = true ∧ m.tCnt ≠ 0 := by
  simp [MmioRegs.canTick]

theorem canExpire_iff {m : MmioRegs} : m.canExpire = true ↔ m.en = true ∧ m.tCnt = 0 := by
  simp [MmioRegs.canExpire]

theorem envEffect_expire_single {m : MmioRegs} (h : m.single = true) :
    envEffect m .timerExpire = { m with tpend := true, tCtl := m.tCtl &&& ~~~ctlEn } := if_pos h

theorem envEffect_expire_continuous {m : MmioRegs} (h : m.single = false) :
    envEffect m .timerExpire = { m with tpend := true, tCnt := m.tIntv } := by
  simp [envEffect, h]

theorem envEffect_expire_tpend (m : MmioRegs) : (envEffect m .timerExpire).tpend = true := by
  cases h : m.single
  · rw [envEffect_expire_continuous h]
  · rw [envEffect_expire_single h]

theorem envApply_tick (r : InternalRegs) {m : MmioRegs} (h : m.canTick = true) :
    envApply r m .timerTick = { m with tCnt := m.tCnt - 1 } := if_pos h

theorem envApply_expire (r : InternalRegs) {m : MmioRegs} (h : m.canExpire = true) :
    envApply r m .timerExpire = envEffect m .timerExpire := if_pos h

/-- Settles O47: the enabling conditions, and the effect of an enabled step in either mode. -/
theorem timerTicksAndExpires : Obligations.TimerTicksAndExpires := by
  intro r m
  refine ⟨canTick_iff, canExpire_iff, fun hen hcnt => ?_, fun hen hcnt => ⟨fun hs => ?_, fun hs => ?_⟩⟩
  · exact envApply_tick r (canTick_iff.mpr ⟨hen, hcnt⟩)
  · exact (envApply_expire r (canExpire_iff.mpr ⟨hen, hcnt⟩)).trans (envEffect_expire_single hs)
  · exact (envApply_expire r (canExpire_iff.mpr ⟨hen, hcnt⟩)).trans (envEffect_expire_continuous hs)

/-- An enabled tick does not wrap the count (R212). -/
theorem envEffect_tick_count {m : MmioRegs} (h : m.canTick = true) :
    (envEffect m .timerTick).tCnt.toNat + 1 = m.tCnt.toNat := by
  have hcnt : m.tCnt ≠ 0 := (canTick_iff.mp h).2
  show (m.tCnt - 1).toNat + 1 = m.tCnt.toNat
  bv_omega

theorem envRun_append (r : InternalRegs) (m : MmioRegs) (es es' : List EnvStep) :
    envRun r m (es ++ es') = envRun r (envRun r m es) es' := List.foldl_append

/-- As many ticks as the count bring an armed timer to 0 and change nothing else. -/
theorem envRun_ticks (r : InternalRegs) (n : Nat) : ∀ m : MmioRegs, m.en = true →
    m.tCnt.toNat = n → envRun r m (List.replicate n .timerTick) = { m with tCnt := 0 } := by
  induction n with
  | zero =>
    intro m _ hn
    have hcnt : m.tCnt = 0 := BitVec.eq_of_toNat_eq hn
    rw [← hcnt]
    rfl
  | succ n ih =>
    intro m hen hn
    have hcnt : m.tCnt ≠ 0 := fun h => by simp [h] at hn
    have hcan : m.canTick = true := canTick_iff.mpr ⟨hen, hcnt⟩
    rw [List.replicate_succ, envRun_cons, envApply_tick r hcan]
    exact ih _ hen (Nat.succ.inj ((envEffect_tick_count hcan).trans hn))

theorem getLsbD_and_not_ctlEn (c : Word) : (c &&& ~~~ctlEn).getLsbD 0 = false := by
  simp [ctlEn]

/-- Settles O48: the ticks lead to 0, where the timer expires. -/
theorem armedTimerFiresAfterItsCount : Obligations.ArmedTimerFiresAfterItsCount := by
  rintro r m hen _ rfl
  have hrun : envRun r m (List.replicate m.tCnt.toNat .timerTick ++ [.timerExpire]) =
      envEffect { m with tCnt := 0 } .timerExpire := by
    rw [envRun_append, envRun_ticks r _ m hen rfl]
    exact envApply_expire r (canExpire_iff.mpr ⟨hen, rfl⟩)
  rw [hrun]
  cases hs : m.single
  · rw [envEffect_expire_continuous (m := { m with tCnt := 0 }) hs]
    exact ⟨rfl, rfl, nofun, fun _ => ⟨hen, rfl⟩⟩
  · rw [envEffect_expire_single (m := { m with tCnt := 0 }) hs]
    exact ⟨rfl, rfl, fun _ => ⟨getLsbD_and_not_ctlEn m.tCtl, rfl⟩, nofun⟩

/-! ### The timer under weak fairness -/

/-- What may follow a moment: the environment's step taken there, or, where none was taken, what `W`
allows the block. -/
def Follows (W : MmioRegs → MmioRegs → Prop) (mo mo' : Moment) : Prop :=
  (∃ e, mo.taken = some e ∧ (∃ r, envEnabled r mo.regs e = true) ∧
    mo'.regs = envEffect mo.regs e) ∨ (mo.taken = none ∧ W mo.regs mo'.regs)

theorem Follows.of_taken {W : MmioRegs → MmioRegs → Prop} {mo mo' : Moment} {e : EnvStep}
    (h : Follows W mo mo') (he : mo.taken = some e) :
    (∃ r, envEnabled r mo.regs e = true) ∧ mo'.regs = envEffect mo.regs e := by
  rcases h with ⟨e', he', hr, hregs⟩ | ⟨hnone, -⟩
  · cases he.symm.trans he'
    exact ⟨hr, hregs⟩
  · cases he.symm.trans hnone

/-- For the timer a moment is a tick, an expiry, or, where `W` allows raises, what `W` allows. -/
theorem Follows.timer {W : MmioRegs → MmioRegs → Prop} (hraise : ∀ m n, W m (m.raise n))
    {mo mo' : Moment} (h : Follows W mo mo') :
    (mo.taken = some .timerTick ∧ mo.regs.canTick = true ∧
      mo'.regs = envEffect mo.regs .timerTick) ∨
    (mo.taken = some .timerExpire ∧ mo'.regs = envEffect mo.regs .timerExpire) ∨
    W mo.regs mo'.regs := by
  rcases h with ⟨e, he, ⟨r, hr⟩, hregs⟩ | ⟨-, hW⟩
  · cases e with
    | lineRaise n => exact .inr (.inr (hregs ▸ hraise mo.regs n))
    | timerTick => exact .inl ⟨he, hr, hregs⟩
    | timerExpire => exact .inr (.inl ⟨he, hregs⟩)
  · exact .inr (.inr hW)

/-- Moments in a row, weakly fair to the timer (R215). -/
structure FairMoments (W : MmioRegs → MmioRegs → Prop) (mo : Nat → Moment) : Prop where
  follows : ∀ n, Follows W (mo n) (mo (n + 1))
  tick : ∀ n, (∀ j, n ≤ j → (mo j).regs.canTick = true) →
    ∃ j, n ≤ j ∧ (mo j).taken = some .timerTick
  expire : ∀ n, (∀ j, n ≤ j → (mo j).regs.canExpire = true) →
    ∃ j, n ≤ j ∧ (mo j).taken = some .timerExpire

theorem FairMoments.mono {W W' : MmioRegs → MmioRegs → Prop} {mo : Nat → Moment}
    (h : FairMoments W mo) (hW : ∀ m m', W m m' → W' m m') : FairMoments W' mo :=
  { h with follows := fun n => (h.follows n).imp_right fun ⟨hnone, hw⟩ => ⟨hnone, hW _ _ hw⟩ }

/-- A run's fairness is that of its moments from the `k`-th step on. -/
theorem WeaklyFair.moments {s : Nat → State} {slots : Nat → List (List EnvStep)}
    {words : Nat → List CmdWord} (hrun : Run s slots words) {k : Nat} {mo : Nat → Moment}
    (hat : ∀ n, MomentAt s ((s k).history.length + n) (mo n)) {enabled : MmioRegs → Bool}
    {e : EnvStep} (hfair : WeaklyFair s enabled e) (n : Nat)
    (h : ∀ j, n ≤ j → enabled (mo j).regs = true) : ∃ j, n ≤ j ∧ (mo j).taken = some e := by
  obtain ⟨i, m, hi, hm, htaken⟩ := hfair ((s k).history.length + n) fun i m hi hm => by
    obtain ⟨j, rfl, rfl⟩ := momentAt_index hrun hat (by omega) hm
    exact h j (by omega)
  obtain ⟨j, rfl, rfl⟩ := momentAt_index hrun hat (by omega) hm
  exact ⟨j, by omega, htaken⟩

/-- The moments of a fair run from its `k`-th step on, where `W` allows every write of the commands
taken. -/
theorem exists_fairMoments {W : MmioRegs → MmioRegs → Prop} (hr : ∀ m, W m m) {s : Nat → State}
    {slots : Nat → List (List EnvStep)} {words : Nat → List CmdWord} (hrun : Run s slots words)
    (hfair : TimerFair s) (k : Nat)
    (hw : ∀ j c i, k ≤ j → ((s j).feed (slots j) (words j)).port.head? = some c →
      decode c = some i → ∀ w, mayWrite i w → ∀ m : MmioRegs, W m (m.write w.1 w.2)) :
    ∃ mo : Nat → Moment, (mo 0).regs = (s k).mmio ∧
      (∀ n, MomentAt s ((s k).history.length + n) (mo n)) ∧ FairMoments W mo := by
  obtain ⟨mo, hzero, hmo⟩ := run_moments hr hrun k hw
  have hat := fun n => (hmo n).1
  exact ⟨mo, hzero, hat, fun n => (hmo n).2, hfair.tick.moments hrun hat,
    hfair.expire.moments hrun hat⟩

/-- What any command leaves of T_CNT: as it was, or not 0 (R176). -/
def CountKeptOrNonzero (m m' : MmioRegs) : Prop := m'.tCnt = m.tCnt ∨ m'.tCnt ≠ 0

/-- What commands other than SET_MODE and SET_NEXT_EVENT leave of the timer: T_CNT and T_CTL (R78). -/
def CountAndControlKept (m m' : MmioRegs) : Prop := m'.tCnt = m.tCnt ∧ m'.tCtl = m.tCtl

/-- While EN = 1 the timer takes a step: without one, a count that is not 0 stays so and TimerTick is
enabled for ever, and a count that never is anything but 0 enables TimerExpire for ever. -/
theorem FairMoments.exists_timerStep {mo : Nat → Moment} (h : FairMoments CountKeptOrNonzero mo)
    {k : Nat} (hen : ∀ n, k ≤ n → (mo n).regs.en = true) :
    ∃ n, k ≤ n ∧ ((mo n).taken = some .timerTick ∨ (mo n).taken = some .timerExpire) := by
  by_contra! hnone
  have hstays : ∀ n, k ≤ n → (mo n).regs.tCnt ≠ 0 → (mo (n + 1)).regs.tCnt ≠ 0 := by
    intro n hn hcnt
    rcases (h.follows n).timer fun _ _ => .inl rfl with ⟨htick, -⟩ | ⟨hexpire, -⟩ | hkept | hnonzero
    · exact absurd htick (hnone n hn).1
    · exact absurd hexpire (hnone n hn).2
    · exact hkept ▸ hcnt
    · exact hnonzero
  by_cases hzero : ∃ n, k ≤ n ∧ (mo n).regs.tCnt ≠ 0
  · obtain ⟨n, hn, hcnt⟩ := hzero
    have hforever : ∀ j, n ≤ j → (mo j).regs.tCnt ≠ 0 := fun j =>
      Nat.le_induction hcnt (fun j hj => hstays j (hn.trans hj)) j
    obtain ⟨j, hj, htick⟩ := h.tick n fun j hj =>
      canTick_iff.mpr ⟨hen j (hn.trans hj), hforever j hj⟩
    exact (hnone j (hn.trans hj)).1 htick
  · push Not at hzero
    obtain ⟨j, hj, hexpire⟩ := h.expire k fun j hj => canExpire_iff.mpr ⟨hen j hj, hzero j hj⟩
    exact (hnone j hj).2 hexpire

/-- An armed timer that no command writes expires: until then EN stays 1 and the count never grows, so
from some moment on it is constant, and the step the timer still takes is no tick. -/
theorem FairMoments.exists_expire {mo : Nat → Moment} (h : FairMoments CountAndControlKept mo)
    (hzero : (mo 0).regs.en = true) : ∃ n, (mo n).taken = some .timerExpire := by
  by_contra! hnone
  have hstep : ∀ n, ((mo n).taken = some .timerTick ∧ (mo n).regs.canTick = true ∧
      (mo (n + 1)).regs = envEffect (mo n).regs .timerTick) ∨
      CountAndControlKept (mo n).regs (mo (n + 1)).regs := by
    intro n
    rcases (h.follows n).timer fun _ _ => ⟨rfl, rfl⟩ with htick | ⟨hexpire, -⟩ | hkept
    · exact .inl htick
    · exact absurd hexpire (hnone n)
    · exact .inr hkept
  have hen : ∀ n, (mo n).regs.en = true := by
    intro n
    induction n with
    | zero => exact hzero
    | succ n ih =>
      rcases hstep n with ⟨-, -, hregs⟩ | ⟨-, hctl⟩
      · exact hregs ▸ ih
      · rw [MmioRegs.en, hctl]
        exact ih
  have hantitone : Antitone fun n => (mo n).regs.tCnt.toNat := by
    refine antitone_nat_of_succ_le fun n => ?_
    rcases hstep n with ⟨-, hcan, hregs⟩ | ⟨hcnt, -⟩
    · rw [hregs, ← envEffect_tick_count hcan]
      exact Nat.le_succ _
    · rw [hcnt]
  obtain ⟨k, hconstant⟩ := WellFoundedLT.antitone_chain_condition hantitone
  obtain ⟨n, hn, htick | hexpire⟩ :=
    (h.mono fun _ _ hkept => .inl hkept.1).exists_timerStep (k := k) fun n _ => hen n
  · obtain ⟨⟨_, hcan⟩, hregs⟩ := (h.follows n).of_taken htick
    have hcount := envEffect_tick_count hcan
    rw [← hregs, ← hconstant n hn, ← hconstant (n + 1) (by omega)] at hcount
    omega
  · exact hnone n hexpire

/-- Settles O49: the writes of any command keep a nonzero count nonzero, and those of the commands of the
second clause keep the count and EN. -/
theorem fairArmedTimerExpires : Obligations.FairArmedTimerExpires := by
  intro s slots words k hrun hfair
  refine ⟨fun hen => ?_, fun hen hquiet => ?_⟩
  · obtain ⟨mo, -, hat, hmo⟩ := exists_fairMoments (W := CountKeptOrNonzero) (fun _ => .inl rfl) hrun
      hfair k fun _ _ _ _ _ _ _ hw m => write_count hw m
    obtain ⟨n, -, htaken⟩ := hmo.exists_timerStep (k := 0) fun n _ =>
      hen _ _ (Nat.le_add_right _ n) (hat n)
    exact ⟨_, mo n, Nat.le_add_right _ n, hat n, htaken⟩
  · obtain ⟨mo, hzero, hat, hmo⟩ := exists_fairMoments (W := CountAndControlKept)
      (fun _ => ⟨rfl, rfl⟩) hrun hfair k fun j c i hj hc hd w hw m => by
        obtain ⟨hmode, hevent⟩ := hquiet j c hj hc
        exact write_keeps_timer hw (fun m hm => hmode m (hm ▸ hd)) (fun d hi => hevent d (hi ▸ hd)) m
    obtain ⟨n, htaken⟩ := hmo.exists_expire (hzero ▸ hen)
    obtain ⟨-, hnext⟩ := (hmo.follows n).of_taken htaken
    exact ⟨_, mo n, mo (n + 1), Nat.le_add_right _ n, hat n, htaken, hat (n + 1),
      hnext ▸ envEffect_expire_tpend _⟩

end Sys2Proof.Machine
end

section
/-!
PROOFS of the hazards' statements: an expiry in the window of SET_MODE ONESHOT's read-modify-write (R251),
and the two commands that arm a disarmed timer (R254).
-/
namespace Sys2Proof.Machine

/-! ### The commands that write T_CTL, where they answer -/

/-- SET_MODE answers with the state its transition leaves. -/
theorem mmio_of_setMode {s t : State} (h : TmrRunning s) {m : ModeReq}
    (he : exec (.setMode m) s = .next t) : t.mmio = (modeTransition m s).mmio := by
  cases (exec_setMode h m).symm.trans he
  rfl

/-- A SET_NEXT_EVENT that answers has programmed its count. -/
theorem mmio_of_setNextEvent {s t : State} (h : TmrRunning s) {d : Word}
    (he : exec (.setNextEvent d) s = .next t) : t.mmio = (programNextEvent d s).mmio := by
  rw [exec_setNextEvent h] at he
  rcases setNextEventRule_cases d s with ⟨-, -, hrule⟩ | ⟨-, hrule⟩
  · cases hrule.symm.trans he
    rfl
  · cases hrule.symm.trans he

/-! ### EN after a transition of T_CTL -/

/-- A transition leaves in T_CTL what it made of the value it read. -/
theorem CtlTransition.tCtl {f : Word → Word} {mode : TimerMode} {s t : State}
    (h : CtlTransition f mode s t) : t.mmio.tCtl = f s.envSlot.mmio.tCtl := by
  obtain ⟨-, -, hmmio, -⟩ := h
  rw [hmmio]

theorem CtlTransition.en {f : Word → Word} {mode : TimerMode} {s t : State}
    (h : CtlTransition f mode s t) : t.mmio.en = (f s.envSlot.mmio.tCtl).getLsbD 0 :=
  congrArg (·.getLsbD 0) h.tCtl

theorem getLsbD_or_ctlSingle (c : Word) : (c ||| ctlSingle).getLsbD 0 = c.getLsbD 0 := by
  simp [ctlSingle]

/-- ONESHOT writes EN back as it read it (R168). -/
theorem toOneShot_en (s : State) : (toOneShot s).mmio.en = s.envSlot.mmio.en :=
  (toOneShot_ctlTransition s).en.trans (getLsbD_or_ctlSingle _)

theorem toDisabled_en (s : State) : (toDisabled s).mmio.en = false :=
  (toDisabled_ctlTransition s).en.trans (getLsbD_and_not_ctlEn _)

theorem toPeriodic_armed (s : State) :
    (toPeriodic s).mmio.en = true ∧ (toPeriodic s).mmio.single = false := by
  have hctl : (toPeriodic s).mmio.tCtl = _ := (toPeriodic_ctlTransition s).tCtl
  rw [MmioRegs.en, MmioRegs.single, hctl]
  simp [ctlSingle, ctlEn]

theorem programNextEvent_en_reload (d : Word) (s : State) :
    (programNextEvent d s).mmio.en = true ∧ (programNextEvent d s).mmio.reload = true := by
  have hctl : (programNextEvent d s).mmio.tCtl = _ := (programNextEvent_ctlTransition d s).tCtl
  rw [MmioRegs.en, MmioRegs.reload, hctl]
  simp

/-! ### An expiry in the window of ONESHOT -/

/-- A one-shot expiry between the read and the write of ONESHOT sets TPEND, and the write takes back the
EN it cleared (R251 b). -/
theorem toOneShot_mmio_of_expiry {s : State} {rest : List (List EnvStep)}
    (henv : s.env = [] :: [.timerExpire] :: rest) (hcan : s.mmio.canExpire = true)
    (hsingle : s.mmio.single = true) :
    (toOneShot s).mmio = { s.mmio with tpend := true, tCtl := s.mmio.tCtl ||| ctlSingle } := by
  have hread : s.envSlot.mmio = s.mmio := by simp [envSlot_mmio, henv]
  have hwrite : s.envSlot.envSlot.mmio =
      { s.mmio with tpend := true, tCtl := s.mmio.tCtl &&& ~~~ctlEn } := by
    calc s.envSlot.envSlot.mmio
        = envApply s.internal s.mmio .timerExpire := by
          simp [envSlot_mmio s.envSlot, hread, henv, envRun_cons]
      _ = _ := (envApply_expire _ hcan).trans (envEffect_expire_single hsingle)
  obtain ⟨-, -, hmmio, -⟩ := toOneShot_ctlTransition s
  rw [respond_mmio, envSlots_two, hread, hwrite] at hmmio
  exact hmmio

/-- Settles O36: the registers ONESHOT leaves after the expiry, and the bits the other commands force
whatever value they read. -/
theorem readModifyWriteWindowsOfTCtl : Obligations.ReadModifyWriteWindowsOfTCtl := by
  refine ⟨?oneshot, fun s t h he => ?periodic, fun s t d h he => ?event, fun s t h he => ?disabled⟩
  case oneshot =>
    intro s rest h henv hen hsingle hcnt
    have hmmio := toOneShot_mmio_of_expiry henv (canExpire_iff.mpr ⟨hen, hcnt⟩) hsingle
    have hen' : (toOneShot s).mmio.en = true := by
      rw [hmmio]
      exact (getLsbD_or_ctlSingle _).trans hen
    have hcnt' : (toOneShot s).mmio.tCnt = 0 := by rw [hmmio, hcnt]
    exact ⟨_, exec_setMode h .oneshot, hen', congrArg MmioRegs.tpend hmmio, hcnt',
      canExpire_iff.mpr ⟨hen', hcnt'⟩⟩
  case periodic =>
    rw [mmio_of_setMode h he]
    exact toPeriodic_armed s
  case event =>
    rw [mmio_of_setNextEvent h he]
    exact programNextEvent_en_reload d s
  case disabled =>
    rw [mmio_of_setMode h he]
    exact toDisabled_en s

/-! ### What arms a disarmed timer -/

/-- A step of the environment or of the timer sets no EN (R206, R212, R213). -/
theorem envApply_disarmed (r : InternalRegs) {m : MmioRegs} (h : m.en = false) (e : EnvStep) :
    (envApply r m e).en = false := by
  cases e with
  | lineRaise n => unfold envApply; split <;> exact h
  | timerTick => rw [envApply_disabled (by simp [envEnabled, MmioRegs.canTick, h])]; exact h
  | timerExpire => rw [envApply_disabled (by simp [envEnabled, MmioRegs.canExpire, h])]; exact h

theorem envRun_disarmed (r : InternalRegs) (es : List EnvStep) : ∀ {m : MmioRegs},
    m.en = false → (envRun r m es).en = false := by
  induction es with
  | nil => exact id
  | cons e es ih => exact fun h => ih (envApply_disarmed r h e)

theorem envSlot_disarmed {s : State} (h : s.mmio.en = false) : s.envSlot.mmio.en = false :=
  envRun_disarmed s.internal _ h

/-- Accesses that do not write T_CTL leave a disarmed timer disarmed. -/
theorem accessRun_disarmed {l : List (Option (Reg × Word))}
    (hl : ∀ w, some w ∈ l → ∀ m : MmioRegs, (m.write w.1 w.2).tCtl = m.tCtl) (r : InternalRegs) :
    ∀ (env : List (List EnvStep)) (b : Board), b.regs.en = false →
      (accessRun r l env b).regs.en = false := by
  induction l with
  | nil => exact fun _ _ h => h
  | cons a l ih =>
    intro env b h
    have hslot : (b.slot r (env.headD [])).regs.en = false := envRun_disarmed r _ h
    refine ih (fun w hw => hl w (by simp [hw])) env.tail _ ?_
    cases a with
    | none => exact hslot
    | some w => exact (congrArg (·.getLsbD 0) (hl w (by simp) _)).trans hslot

/-- Of the mode requests only PERIODIC sets an EN that is 0. -/
theorem modeTransition_disarmed {m : ModeReq} (hm : m ≠ .periodic) {s : State}
    (h : s.mmio.en = false) : (modeTransition m s).mmio.en = false := by
  cases m with
  | periodic => exact absurd rfl hm
  | oneshot => exact (toOneShot_en s).trans (envSlot_disarmed h)
  | disabled => exact toDisabled_en s
  | unused => exact toDisabled_en s

theorem setMode_disarmed {m : ModeReq} (hm : m ≠ .periodic) {s t : State}
    (he : exec (.setMode m) s = .next t) (h : s.mmio.en = false) : t.mmio.en = false := by
  rcases exec_cases (.setMode m) s with ⟨e, v, -, hrefused⟩ | ⟨-, hrun, hready, -⟩
  · cases hrefused.symm.trans he
    exact h
  · rw [mmio_of_setMode ⟨hrun, hready⟩ he]
    exact modeTransition_disarmed hm h

/-- The two commands that arm a disarmed timer (R254). -/
theorem exec_arms {i : Instr} {s t : State} (he : exec i s = .next t) (hs : s.mmio.en = false)
    (ht : t.mmio.en = true) : i = .setMode .periodic ∨ ∃ d, i = .setNextEvent d := by
  by_contra hi
  obtain ⟨hperiodic, hevent⟩ := not_or.mp hi
  suffices hfalse : t.mmio.en = false from Bool.false_ne_true (hfalse.symm.trans ht)
  by_cases hmode : ∃ m, i = .setMode m
  · obtain ⟨m, rfl⟩ := hmode
    exact setMode_disarmed (fun hm => hperiodic (hm ▸ rfl)) he hs
  · obtain ⟨l, -, hl, hb⟩ := exec_accesses he
    have hkeeps : ∀ w, some w ∈ l → ∀ m : MmioRegs, (m.write w.1 w.2).tCtl = m.tCtl := fun w hw m =>
      (write_keeps_timer (hl w hw) (not_exists.mp hmode) (not_exists.mp hevent) m).2
    exact (congrArg (·.regs.en) hb).trans (accessRun_disarmed hkeeps s.internal s.env s.board hs)

/-- Settles O59: the slot before the command arms nothing, so the command the word decodes to did. -/
theorem onlyArmingCommandsArmTheTimer : Obligations.OnlyArmingCommandsArmTheTimer := by
  intro s t hstep hs ht
  have hslot : s.envSlot.mmio.en = false := envSlot_disarmed hs
  rcases step_cases s with ⟨-, h⟩ | ⟨w, rest, -, -, h⟩ | ⟨w, rest, i, hport, hdecode, -, h⟩
  · cases h.symm.trans hstep
    exact absurd (hslot.symm.trans ht) Bool.false_ne_true
  · cases h.symm.trans hstep
    exact absurd (hslot.symm.trans ht) Bool.false_ne_true
  · refine ⟨w, rest, hport, ?_⟩
    rcases exec_arms (h.symm.trans hstep) hslot ht with rfl | ⟨d, rfl⟩
    · exact .inl hdecode
    · exact .inr ⟨d, hdecode⟩

end Sys2Proof.Machine
end
